-- ==== Sys2Proof/Config.lean ====
section
/-! DEFINITION. The configuration: what an implementation of the codec fixes (00_scope.md R6 to R9) and the open
latencies (93_implementation_defined.md U6). The parameters are an argument `P : Params` of every definition of the model
(00_scope.md section 3). The image (R10) is configuration too; it is plain data and stands in `Machine.State.image`, so
that every statement is for every image. -/

namespace Sys2Proof

/-- The implementation parameters, with the defaults of the spec (R6, R7, R8). -/
structure Params where
  /-- `SYM_W`, the width of a symbol (R6). -/
  symW : Nat := 8
  /-- `IDX_W`, the width of a node index (R7). -/
  idxW : Nat := symW + 1
  /-- `MAX_CODE_LEN`, the greatest code length a `CODE` word can hold (R8). -/
  maxCodeLen : Nat := 2 ^ symW - 1
  deriving DecidableEq, Repr

/-- `CLEN_W`, the number of bits needed to write `MAX_CODE_LEN` (R8). -/
abbrev Params.clenW (P : Params) : Nat := Nat.log2 P.maxCodeLen + 1

/-- `CMD_W` (R9). -/
abbrev Params.cmdW (P : Params) : Nat := P.symW + 3

/-- `NODE_W` (R9). -/
abbrev Params.nodeW (P : Params) : Nat := 2 + 2 * P.idxW + P.symW

/-- `CODE_W` (R9). -/
abbrev Params.codeW (P : Params) : Nat := 1 + P.clenW + P.maxCodeLen

/-- The bounds R6, R7 and R8 put on the three parameters. -/
def Params.wellFormed (P : Params) : Bool :=
  decide (1 ≤ P.symW) && decide (1 ≤ P.idxW) && decide (1 ≤ P.maxCodeLen)

/-- The spec's default parameters (R6 to R8). The model is for every `P : Params`; the names with no such argument (`exec`,
`step`, `State.reset`, and a type written without its argument) are the instance at these defaults, the one every test
vector uses (DESIGN CHOICE, assumption 1). -/
abbrev Config.params : Params := {}

abbrev Config.symW : Nat := Config.params.symW
abbrev Config.idxW : Nat := Config.params.idxW
abbrev Config.maxCodeLen : Nat := Config.params.maxCodeLen
abbrev Config.clenW : Nat := Config.params.clenW
abbrev Config.cmdW : Nat := Config.params.cmdW
abbrev Config.nodeW : Nat := Config.params.nodeW
abbrev Config.codeW : Nat := Config.params.codeW

/-- `RESP_W` (R9). -/
abbrev Config.respW : Nat := 10

/-- `T_ENC_SYM(len)`, an open latency of an implementation; no rule of the spec and no definition of the model reads
it (R278, U6; assumption 8). -/
opaque Config.tEncSym : Nat → Nat

/-- `T_DEC_BIT`, open in the same way (R278, U6; assumption 8). -/
opaque Config.tDecBit : Nat

/-- `T_OTHER`, open in the same way (R278, U6; assumption 8). -/
opaque Config.tOther : Nat

end Sys2Proof
end

