-- ==== Sys2Proof/Word.lean ====
section
/-! DEFINITION. The word types of the codec, one per width the spec names (R6, R7, R9), and nothing else. All are
unsigned bit vectors with bit 0 the least significant (00_scope.md section 5). A type written without its argument is the
one at the default parameters. -/

namespace Sys2Proof

/-- A symbol, `SYM_W` bits (R6). -/
abbrev Symbol (P : Params := Config.params) := BitVec P.symW

/-- A node index, `IDX_W` bits (R7). -/
abbrev NodeIndex (P : Params := Config.params) := BitVec P.idxW

/-- A command word, `CMD_W` bits (R80). -/
abbrev CmdWord (P : Params := Config.params) := BitVec P.cmdW

/-- A word of the `CODE` space, `CODE_W` bits (R96). -/
abbrev CodeWord (P : Params := Config.params) := BitVec P.codeW

/-- A word of the `TREE` space, `NODE_W` bits (R98). -/
abbrev NodeWord (P : Params := Config.params) := BitVec P.nodeW

/-- A response word, `RESP_W` bits (R87). -/
abbrev RespWord := BitVec Config.respW

/-- The `rdata` byte of a response, the width of `STATUS` (R28, R87). -/
abbrev Byte := BitVec 8

/-- A bit string: an ordered sequence of binary digits, the first digit first (00_scope.md sections 5 and 6). -/
abbrev BitString := List Bool

end Sys2Proof
end

