-- ==== Sys2Proof/Machine/Operands.lean ====
section
/-! DEFINITION. The fields of a command word and every operand form (30_encoding.md R80, R82). -/

namespace Sys2Proof.Machine

variable {P : Params}

/-- `opcode`, bits 2:0 of a command word (R80). -/
def opcodeOf (w : CmdWord P) : BitVec 3 := w.extractLsb' 0 3

/-- `operand`, bits `SYM_W+2 : 3` of a command word (R80). -/
def operandOf (w : CmdWord P) : Symbol P := w.extractLsb' 3 P.symW

/-- The operand form of `DEC_BIT`: `operand[0]` is the bit and `operand[SYM_W-1:1]` must be zero (R82). -/
def bitOperand (opd : Symbol P) : Option Bool :=
  if opd >>> 1 = 0 then some (opd.getLsbD 0) else none

/-- The operand form of `ENC_END`, `DEC_END`, `RD_STATUS`, `CLR_STATUS`: the whole operand must be zero (R82). -/
def zeroOperand (opd : Symbol P) : Bool := opd = 0

/-- A command word from its two fields, `{operand, opcode}` (R80). -/
def cmdWord (op : BitVec 3) (opd : Symbol P) : CmdWord P :=
  opd ++ op

end Sys2Proof.Machine
end

