-- ==== Sys2Proof/Machine/Types.lean ====
section
/-! DEFINITION. The plain data the codec reads and sends: condition codes, responses, stream items, code entries and
nodes (30_encoding.md R86 to R90, R96, R98; 10_state.md R29, R30, R34; 60_exceptions.md R220). -/

namespace Sys2Proof.Machine

/-- The condition codes, for a response and for the status of an END item (R86). -/
inductive Rcode where
  /-- Code 0. -/
  | ok
  /-- Code 1. -/
  | unknownSymbol
  /-- Code 2. -/
  | malformedBitstream
  /-- Code 3. -/
  | illegalCmd
  deriving DecidableEq, Repr

/-- The conditions the block raises, one for each row of R220; the two causes of MalformedBitstream have one code. -/
inductive Condition where
  /-- UnknownSymbol, raised by `ENC_SYM` (R224). -/
  | unknownSymbol
  /-- MalformedBitstream, cause 1: a `DEC_BIT` would move to an absent child (R226). -/
  | absentChild
  /-- MalformedBitstream, cause 2: a `DEC_END` found the cursor away from the root (R226). -/
  | truncatedCode
  /-- IllegalCommand, raised by every illegal word (R227). -/
  | illegalCommand
  deriving DecidableEq, Repr

/-- A response (R87). -/
structure Response where
  rcode : Rcode
  rdata : Byte
  deriving DecidableEq, Repr

/-- An item of `enc_out` (R88). -/
inductive EncItem where
  /-- `DATA(b)`, one bit of encoded output. -/
  | data (b : Bool)
  /-- `END(st)`, which closes a frame and carries its result. -/
  | endFrame (st : Rcode)
  deriving DecidableEq, Repr

/-- An item of `dec_out` (R90). -/
inductive DecItem (P : Params := Config.params) where
  /-- `DATA(s)`, one decoded symbol. -/
  | data (sym : Symbol P)
  /-- `END(st)`, which closes a frame and carries its result. -/
  | endFrame (st : Rcode)
  deriving DecidableEq, Repr

/-- The record `CodeRead` returns (R34, R96). -/
structure CodeEntry (P : Params := Config.params) where
  valid : Bool
  len : BitVec P.clenW
  /-- Bit `k` is the bit emitted `k`-th. -/
  bits : BitVec P.maxCodeLen
  deriving DecidableEq, Repr

/-- The record `NodeRead` returns (R30, R98). -/
structure Node (P : Params := Config.params) where
  lv : Bool
  left : NodeIndex P
  rv : Bool
  right : NodeIndex P
  symbol : Symbol P
  deriving DecidableEq, Repr

end Sys2Proof.Machine
end

