-- ==== Sys2Proof/Syntax.lean ====
section
/-! DEFINITION. The commands of the codec (30_encoding.md R81), one constructor for each row of spec/opcode_table.json.
Each field has the type that holds exactly the operand values the row admits (R82), so no term of `Instr` is ill formed;
the checks on command words are the decoder's. `Instr P` is for the parameters `P`; `Instr` alone is for the defaults. -/

namespace Sys2Proof

/-- A command. The words of opcodes 1 to 5 with a must-be-zero operand bit set have no row in the table; the decoder
rejects them by name (`DecodeError`), and the step raises IllegalCommand for them as R156 says. -/
inductive Instr (P : Params := Config.params) where
  /-- `ENC_SYM s` (R112). -/
  | encSym (sym : Symbol P)
  /-- `ENC_END` (R114). -/
  | encEnd
  /-- `DEC_BIT b` (R132); `false` is the bit 0, `true` the bit 1. -/
  | decBit (b : Bool)
  /-- `DEC_END` (R136). -/
  | decEnd
  /-- `RD_STATUS` (R152). -/
  | rdStatus
  /-- `CLR_STATUS` (R154). -/
  | clrStatus
  /-- A word of the reserved opcode `0b110`, with any operand (R84, R156). -/
  | illegalOp6 (opd : Symbol P)
  /-- A word of the reserved opcode `0b111`, with any operand (R84, R156). -/
  | illegalOp7 (opd : Symbol P)
  deriving DecidableEq, Repr

end Sys2Proof
end

