-- ==== Sys2Proof/Decode.lean ====
section
/-! DEFINITION. The encodings of 30_encoding.md, each in both directions where both have a use: command words (R80 to
R84, R104), condition codes (R86), response words (R87), stream items as port words (R88, R90) and ROM words (R96,
R98). The pack functions of the ROM words are the image maker's (R184); the block only unpacks. -/

namespace Sys2Proof

open Sys2Proof.Machine

variable {P : Params}

/-- Why a command word is no row of the opcode table. It is an illegal word all the same, with R156's effect (DEDUCED,
assumption 10). -/
inductive DecodeError (P : Params := Config.params) where
  /-- An opcode of 1 to 5 with a must-be-zero operand bit set (R84, second class). -/
  | strayOperand (op : BitVec 3) (opd : Symbol P)
  deriving DecidableEq, Repr

/-- The decode function of R83. Total; it depends on the word alone. R83's `ILLEGAL` is the two reserved opcodes and
every error. -/
def decode (w : CmdWord P) : Except (DecodeError P) (Instr P) :=
  let op := opcodeOf w
  let opd := operandOf w
  let stray : Except (DecodeError P) (Instr P) := .error (.strayOperand op opd)
  if op = 0 then .ok (.encSym opd)
  else if op = 1 then if zeroOperand opd then .ok .encEnd else stray
  else if op = 2 then
    match bitOperand opd with
    | some b => .ok (.decBit b)
    | none => stray
  else if op = 3 then if zeroOperand opd then .ok .decEnd else stray
  else if op = 4 then if zeroOperand opd then .ok .rdStatus else stray
  else if op = 5 then if zeroOperand opd then .ok .clrStatus else stray
  else if op = 6 then .ok (.illegalOp6 opd)
  else .ok (.illegalOp7 opd)

/-- The opcode of a command (R81). -/
def Instr.opcode : Instr P → BitVec 3
  | .encSym _ => 0
  | .encEnd => 1
  | .decBit _ => 2
  | .decEnd => 3
  | .rdStatus => 4
  | .clrStatus => 5
  | .illegalOp6 _ => 6
  | .illegalOp7 _ => 7

/-- The operand field of a command (R81, R82). -/
def Instr.operand : Instr P → Symbol P
  | .encSym s => s
  | .encEnd => 0
  | .decBit b => if b then 1 else 0
  | .decEnd => 0
  | .rdStatus => 0
  | .clrStatus => 0
  | .illegalOp6 opd => opd
  | .illegalOp7 opd => opd

/-- The command word of a command (R80, R81). -/
def encode (i : Instr P) : CmdWord P := cmdWord i.opcode i.operand

/-- Whether R83 decodes the word to `ILLEGAL` (R84). -/
def isIllegal (w : CmdWord P) : Bool :=
  match decode w with
  | .error _ => true
  | .ok i => match i with
    | .illegalOp6 _ => true
    | .illegalOp7 _ => true
    | .encSym _ => false
    | .encEnd => false
    | .decBit _ => false
    | .decEnd => false
    | .rdStatus => false
    | .clrStatus => false

/-- The instruction the decoder reads from a command word given as a number. A command is one word of `CMD_W` bits,
whatever `nbits` the table counts in whole bytes; a number that does not fit one word is no command word. For the default
parameters, which the table's words are for. -/
def decodeTableWord (_nbits w : Nat) : Option Instr :=
  if w < 2 ^ Config.cmdW then (decode (BitVec.ofNat Config.cmdW w)).toOption else none

namespace Machine

/-- The number of a condition code (R86). -/
def Rcode.code : Rcode → BitVec 2
  | .ok => 0
  | .unknownSymbol => 1
  | .malformedBitstream => 2
  | .illegalCmd => 3

/-- The response word: `resp[1:0] = rcode`, `resp[9:2] = rdata` (R87). -/
def Response.word (r : Response) : RespWord :=
  r.rdata ++ r.rcode.code

/-- The `kind` bit and the 2-bit `payload` of an `enc_out` port word (R88). -/
def EncItem.portWord : EncItem → BitVec 1 × BitVec 2
  | .data b => (0, if b then 1 else 0)
  | .endFrame st => (1, st.code)

/-- The `kind` bit and the payload of a `dec_out` port word, `max(SYM_W, 2)` bits (R90). -/
def DecItem.portWord : DecItem P → BitVec 1 × BitVec (max P.symW 2)
  | .data s => (0, s.setWidth _)
  | .endFrame st => (1, st.code.setWidth _)

/-- The fields of a `CODE` word (R96). -/
def CodeEntry.unpack (w : CodeWord P) : CodeEntry P where
  valid := w.getLsbD 0
  len := w.extractLsb' 1 P.clenW
  bits := w.extractLsb' (P.clenW + 1) P.maxCodeLen

/-- The `CODE` word of an entry (R96, R184). -/
def CodeEntry.pack (e : CodeEntry P) : CodeWord P :=
  (e.bits ++ e.len ++ BitVec.ofBool e.valid).setWidth P.codeW

/-- The fields of a `TREE` word (R98). -/
def Node.unpack (w : NodeWord P) : Node P where
  lv := w.getLsbD 0
  left := w.extractLsb' 1 P.idxW
  rv := w.getLsbD (P.idxW + 1)
  right := w.extractLsb' (P.idxW + 2) P.idxW
  symbol := w.extractLsb' (2 * P.idxW + 2) P.symW

/-- The `TREE` word of a node (R98, R184). -/
def Node.pack (n : Node P) : NodeWord P :=
  (n.symbol ++ n.right ++ BitVec.ofBool n.rv ++ n.left ++ BitVec.ofBool n.lv).setWidth P.nodeW

end Machine

end Sys2Proof
end

