-- ==== Sys2Proof/Machine/Memory.lean ====
section
/-! DEFINITION. One read-only space of words (20_memory.md R50 to R57) as plain data: a list of (address, word) cells in
one canonical form. An address names one whole word (R55), so a cell holds a word and no byte order arises. -/

namespace Sys2Proof.Machine

/-- A word-addressed space with words of `w` bits, holding the words that are not blank. -/
abbrev Memory (w : Nat) := List (Nat × BitVec w)

/-- What an address with no cell reads as: the zero word. The spec writes an image as its non-zero words and says that
all other words are zero (R184, R67; 95_test_vectors.md section 1; assumption 3). -/
def Memory.blank (w : Nat) : BitVec w := 0

/-- Read one whole word. No side effect (R57). -/
def Memory.read {w : Nat} : Memory w → Nat → BitVec w
  | [], _ => Memory.blank w
  | (k, v) :: m, a => if k = a then v else Memory.read m a

/-- Write one word and keep the canonical form. No command writes (R57); this is the image maker's (R184). -/
def Memory.write {w : Nat} : Memory w → Nat → BitVec w → Memory w
  | [], a, v => if v = Memory.blank w then [] else [(a, v)]
  | (k, x) :: m, a, v =>
    if a < k then (if v = Memory.blank w then (k, x) :: m else (a, v) :: (k, x) :: m)
    else if a = k then (if v = Memory.blank w then m else (a, v) :: m)
    else (k, x) :: Memory.write m a v

/-- The canonical form of a space of `size` words: addresses strictly rising and inside the space, no blank cell. -/
abbrev Memory.wf {w : Nat} (size : Nat) (m : Memory w) : Prop :=
  m.Pairwise (fun c d => c.1 < d.1) ∧ ∀ c ∈ m, c.1 < size ∧ c.2 ≠ Memory.blank w

end Sys2Proof.Machine
end

