-- ==== Sys2Proof/Machine/Image.lean ====
section
/-! DEFINITION. The image (00_scope.md R10): the contents of `CODE`, `TREE` and `ROOT`, and every read the block makes of
them (20_memory.md R50 to R53, R57; 10_state.md R30, R34). -/

namespace Sys2Proof.Machine

variable {P : Params}

/-- The content of the three read-only spaces (R10, R50). -/
structure Image (P : Params := Config.params) where
  /-- `CODE`, addressed by a symbol (R51). -/
  code : Memory P.codeW
  /-- `TREE`, addressed by a node index (R52). -/
  tree : Memory P.nodeW
  /-- `ROOT`, one word (R53, R99). -/
  root : NodeIndex P
  deriving DecidableEq, Repr

/-- The image of zero words, with `ROOT` zero. The spec gives `CODE`, `TREE` and `ROOT` no contents: this is the image
in place after `State.reset` (DESIGN CHOICE, assumption 4). -/
def Image.blank : Image P := { code := [], tree := [], root := 0 }

/-- Both spaces are in canonical form: `2^SYM_W` and `2^IDX_W` words (R50). -/
abbrev Image.wf (img : Image P) : Prop :=
  img.code.wf (2 ^ P.symW) ∧ img.tree.wf (2 ^ P.idxW)

/-- `CodeRead(s)`: the entry at address `s` of `CODE`. Total (R51). -/
def Image.codeRead (img : Image P) (s : Symbol P) : CodeEntry P := CodeEntry.unpack (img.code.read s.toNat)

/-- `NodeRead(i)`: the node at address `i` of `TREE`. Total (R52). -/
def Image.nodeRead (img : Image P) (i : NodeIndex P) : Node P := Node.unpack (img.tree.read i.toNat)

/-- (S1) of one entry: a valid entry has `1 <= len <= MAX_CODE_LEN` (R100). -/
def CodeEntry.lenOk (e : CodeEntry P) : Bool :=
  !e.valid || (decide (1 ≤ e.len.toNat) && decide (e.len.toNat ≤ P.maxCodeLen))

/-- The code bits of an entry, `bits[0]` first, `bits[len-1]` last (R34, R66). Where `len` is above `MAX_CODE_LEN`, which
fails (S1) and has no `bits[k]` to give (U1), the bits from `MAX_CODE_LEN` on read as 0 (DESIGN CHOICE, assumption 14);
`ENC_SYM` refuses such an entry. -/
def CodeEntry.code (e : CodeEntry P) : BitString := (List.range e.len.toNat).map e.bits.getLsbD

/-- `CodeOf(s)` (R34): none when the entry is absent. Of an entry that fails (S1), see `CodeEntry.code` (assumption 14). -/
def Image.codeOf (img : Image P) (s : Symbol P) : Option BitString :=
  if (img.codeRead s).valid then some (img.codeRead s).code else none

/-- A node is a leaf iff both children are absent (R30). -/
def Node.isLeaf (n : Node P) : Bool := !n.lv && !n.rv

/-- The node at an index is a leaf (R30). -/
def Image.isLeafAt (img : Image P) (i : NodeIndex P) : Bool := (img.nodeRead i).isLeaf

/-- `RootIsLeaf` (00_scope.md section 5). -/
def Image.rootIsLeaf (img : Image P) : Bool := img.isLeafAt img.root

/-- The child on one side of a node, if present: left on the bit 0, right on the bit 1 (R30, R102). -/
def Node.child (n : Node P) (b : Bool) : Option (NodeIndex P) :=
  if b then (if n.rv then some n.right else none) else (if n.lv then some n.left else none)

/-- `child(i, b)` (R30). -/
def Image.child (img : Image P) (i : NodeIndex P) (b : Bool) : Option (NodeIndex P) := (img.nodeRead i).child b

/-- The index that following the children named by a bit string from `i` ends at, if no child on the way is absent
(R30, "leads to"). -/
def Image.walk (img : Image P) : NodeIndex P → BitString → Option (NodeIndex P)
  | i, [] => some i
  | i, b :: p =>
    match img.child i b with
    | some j => Image.walk img j p
    | none => none

end Sys2Proof.Machine
end

