-- ==== Sys2Proof/Machine/CodeTable.lean ====
section
/-! DEFINITION. The offline CodeTableGenerator (43_code_table_generation.md R166 to R172) and the writing of an image
(R184). Not hardware (00_scope.md R3): the block never runs any of it. It makes images. -/

namespace Sys2Proof.Machine

variable {P : Params}

/-- The depth-first traversal, left before right, with the bits of the path so far; a side that is absent is not
descended into (R168). `fuel` bounds the depth. -/
def Image.generateFrom (img : Image P) : Nat → NodeIndex P → BitString → List (Symbol P × BitString)
  | 0, _, _ => []
  | fuel + 1, i, path =>
    if img.isLeafAt i then [((img.nodeRead i).symbol, path)]
    else
      (match img.child i false with
        | some j => Image.generateFrom img fuel j (path ++ [false])
        | none => []) ++
      (match img.child i true with
        | some j => Image.generateFrom img fuel j (path ++ [true])
        | none => [])

/-- `Generate` (R166): the table of a tree with `WF_TREE`, whose paths have fewer than `2^IDX_W` nodes below the root.
A tree that is one leaf gets the code `"0"` (R172). -/
def Image.generate (img : Image P) : List (Symbol P × BitString) :=
  if img.rootIsLeaf then [((img.nodeRead img.root).symbol, [false])]
  else img.generateFrom (2 ^ P.idxW) img.root []

/-- Every code the tree generates fits a `CODE` word (R174). -/
abbrev Image.CodesFit (img : Image P) : Prop := ∀ e ∈ img.generate, e.2.length ≤ P.maxCodeLen

/-- The code entry of a bit string of 1 to `MAX_CODE_LEN` bits (R96, R184). Of a longer one, which fits no entry (R174), the
length is taken modulo `2^CLEN_W` and the bits past `MAX_CODE_LEN` are dropped: the spec writes no such entry, and this is the
model's choice (DESIGN CHOICE, assumption 13). `RomTree.make` refuses before it writes one. -/
def CodeEntry.ofCode (p : BitString) : CodeEntry P where
  valid := true
  len := BitVec.ofNat P.clenW p.length
  bits := BitVec.ofNat P.maxCodeLen (p.foldr (fun b n => 2 * n + b.toNat) 0)

/-- Write a generated table into an image's `CODE` space, each entry at the address equal to its symbol, every other
word blank (R184). The table is that of a tree with `WF_TREE` (R166) whose codes fit (`Image.CodesFit`); of any other, what
is written is the model's choice (DESIGN CHOICE, assumption 13). -/
def Image.withCodeTable (img : Image P) (table : List (Symbol P × BitString)) : Image P :=
  { img with
    code := table.foldl (fun m e => m.write e.1.toNat (CodeEntry.ofCode e.2).pack) [] }

end Sys2Proof.Machine
end

