-- ==== Sys2Proof/WellFormed.lean ====
section
/-! DEFINITION. The image predicates of 10_state.md R30, R31, R35, R41, 30_encoding.md R100 and
43_code_table_generation.md R170, R172, R174, in the spec's own terms. `Machine/ImageCheck.lean` has the Boolean check of
each. A command needs no predicate: `Instr` holds no ill-formed term. -/

namespace Sys2Proof.Machine

variable {P : Params}

/-- `Reach`: the indices some bit string leads to from `ROOT`. Both descriptions in R30 give the same set. -/
def Image.Reach (img : Image P) (j : NodeIndex P) : Prop := ∃ p, img.walk img.root p = some j

/-- (T1): exactly one bit string leads to each index of `Reach` (R31). -/
def Image.UniquePaths (img : Image P) : Prop :=
  ∀ p q j, img.walk img.root p = some j → img.walk img.root q = some j → p = q

/-- (T2): distinct leaves of `Reach` carry distinct symbols (R31). -/
def Image.DistinctSymbols (img : Image P) : Prop :=
  ∀ i j, img.Reach i → img.Reach j → img.isLeafAt i = true → img.isLeafAt j = true →
    (img.nodeRead i).symbol = (img.nodeRead j).symbol → i = j

/-- (T3): every node of `Reach` that is not a leaf has both children (R31). -/
def Image.TwoChildren (img : Image P) : Prop :=
  ∀ i, img.Reach i → img.isLeafAt i = false → (img.nodeRead i).lv = true ∧ (img.nodeRead i).rv = true

/-- `WF_TREE` (R31). -/
structure Image.WfTree (img : Image P) : Prop where
  uniquePaths : img.UniquePaths
  distinctSymbols : img.DistinctSymbols

/-- `WF_TREE_STRICT` (R31). -/
structure Image.WfTreeStrict (img : Image P) : Prop where
  wfTree : img.WfTree
  twoChildren : img.TwoChildren

/-- (S1), which is (K1): every valid entry has `1 <= len <= MAX_CODE_LEN` (R100, R35). -/
def Image.LenInRange (img : Image P) : Prop := ∀ s, (img.codeRead s).lenOk = true

/-- (K2): the codes of two distinct symbols are neither equal nor one a proper prefix of the other (R35, C5). -/
def Image.PrefixFree (img : Image P) : Prop :=
  ∀ s t p q, s ≠ t → img.codeOf s = some p → img.codeOf t = some q → ¬ p <+: q

/-- `WF_CODE` (R35). -/
structure Image.WfCode (img : Image P) : Prop where
  lenInRange : img.LenInRange
  prefixFree : img.PrefixFree

/-- `WF_STRUCT`, the word-level predicate, (S1) to (S6) (R100). -/
structure Image.WfStruct (img : Image P) : Prop where
  /-- (S1) -/
  lenInRange : img.LenInRange
  /-- (S2) -/
  bitsAboveLen : ∀ s k, (img.codeRead s).valid = true → (img.codeRead s).len.toNat ≤ k →
    (img.codeRead s).bits.getLsbD k = false
  /-- (S3) -/
  absentEntry : ∀ s, (img.codeRead s).valid = false → (img.codeRead s).len = 0 ∧ (img.codeRead s).bits = 0
  /-- (S4) -/
  absentChild : ∀ i, ((img.nodeRead i).lv = false → (img.nodeRead i).left = 0) ∧
    ((img.nodeRead i).rv = false → (img.nodeRead i).right = 0)
  /-- (S5) -/
  innerSymbol : ∀ i, img.isLeafAt i = false → (img.nodeRead i).symbol = 0
  /-- (S6) -/
  unreached : ∀ i, ¬ img.Reach i → img.tree.read i.toNat = 0

/-- `Generate` gives the symbol `s` the code `p`: the path of its leaf (R170), or `"0"` for a tree that is one leaf
(R172, C2). -/
def Image.Generates (img : Image P) (s : Symbol P) (p : BitString) : Prop :=
  if img.rootIsLeaf then s = (img.nodeRead img.root).symbol ∧ p = [false]
  else ∃ j, img.walk img.root p = some j ∧ img.isLeafAt j = true ∧ (img.nodeRead j).symbol = s

/-- `CONSISTENT` (R174). -/
structure Image.Consistent (img : Image P) : Prop where
  /-- The `CODE` space holds exactly the table the tree generates. -/
  holdsTheTable : ∀ s p, img.codeOf s = some p ↔ img.Generates s p
  /-- Every code of that table fits a `CODE` word. -/
  codesFit : ∀ s p, img.Generates s p → p.length ≤ P.maxCodeLen

/-- `s` is the symbol of a leaf in `Reach` (R178). -/
def Image.LeafSymbol (img : Image P) (s : Symbol P) : Prop :=
  ∃ j, img.Reach j ∧ img.isLeafAt j = true ∧ (img.nodeRead j).symbol = s

end Sys2Proof.Machine
end

