-- ==== Sys2Proof/Machine/ImageCheck.lean ====
section
/-! DEFINITION. The image predicates as decidable Boolean checks over the image (10_state.md R41). The block checks
nothing (R266); these are the image maker's. -/

namespace Sys2Proof.Machine

variable {P : Params}

/-- The children that are present, left first. -/
def Image.children (img : Image P) (i : NodeIndex P) : List (NodeIndex P) :=
  (img.child i false).toList ++ (img.child i true).toList

/-- Visit the nodes below a list of nodes, each at most once: the visited indices, or none when an index comes up a
second time or the fuel runs out. -/
def Image.visit (img : Image P) : Nat → List (NodeIndex P) → List (NodeIndex P) → Option (List (NodeIndex P))
  | _, [], seen => some seen
  | 0, _ :: _, _ => none
  | fuel + 1, i :: todo, seen =>
    if i ∈ seen then none else Image.visit img fuel (img.children i ++ todo) (i :: seen)

/-- The indices of `Reach` when (T1) holds, else none. There are `2^IDX_W` indices, so the fuel is enough. -/
def Image.reached (img : Image P) : Option (List (NodeIndex P)) := img.visit (2 ^ P.idxW) [img.root] []

/-- The indices reached from a list of nodes, each once; one that has come up before is skipped. -/
def Image.closure (img : Image P) : Nat → List (NodeIndex P) → List (NodeIndex P) → List (NodeIndex P)
  | 0, _, seen => seen
  | _ + 1, [], seen => seen
  | fuel + 1, i :: todo, seen =>
    if i ∈ seen then Image.closure img fuel todo seen
    else Image.closure img fuel (img.children i ++ todo) (i :: seen)

/-- The indices of `Reach`, whatever the image. Each of the `2^IDX_W` indices puts at most two nodes on the list, so the
fuel is enough. -/
def Image.reachable (img : Image P) : List (NodeIndex P) := img.closure (2 ^ (P.idxW + 1) + 1) [img.root] []

/-- The check of `WF_TREE` (R31). -/
def Image.checkTree (img : Image P) : Bool :=
  match img.reached with
  | none => false
  | some l => decide ((l.filter img.isLeafAt).map fun i => (img.nodeRead i).symbol).Nodup

/-- The check of `WF_TREE_STRICT` (R31). -/
def Image.checkTreeStrict (img : Image P) : Bool :=
  img.checkTree &&
    match img.reached with
    | none => false
    | some l => l.all fun i => img.isLeafAt i || ((img.nodeRead i).lv && (img.nodeRead i).rv)

/-- The symbols with a cell in `CODE`; every other entry is absent. -/
def Image.codeSymbols (img : Image P) : List (Symbol P) := img.code.map fun c => BitVec.ofNat _ c.1

/-- The indices with a cell in `TREE`; every other word is zero. -/
def Image.treeIndices (img : Image P) : List (NodeIndex P) := img.tree.map fun c => BitVec.ofNat _ c.1

/-- The check of (S1), which is (K1) (R100, R35). -/
def Image.checkLen (img : Image P) : Bool := img.codeSymbols.all fun s => (img.codeRead s).lenOk

/-- The codes of the table, each with its symbol. -/
def Image.codes (img : Image P) : List (Symbol P × BitString) :=
  img.codeSymbols.filterMap fun s => (img.codeOf s).map fun p => (s, p)

/-- The check of `WF_CODE` (R35). -/
def Image.checkCode (img : Image P) : Bool :=
  img.checkLen &&
    img.codes.all fun e => img.codes.all fun f => e.1 == f.1 || !(e.2.isPrefixOf f.2)

/-- (S2) and (S3) of one entry (R100). -/
def CodeEntry.ignoredZero (e : CodeEntry P) : Bool :=
  if e.valid then e.bits >>> e.len.toNat = 0 else e.len = 0 ∧ e.bits = 0

/-- (S4) and (S5) of one node (R100). -/
def Node.ignoredZero (n : Node P) : Bool :=
  (n.lv || n.left == 0) && (n.rv || n.right == 0) && (n.isLeaf || n.symbol == 0)

/-- The check of `WF_STRUCT` (R100), for any image in canonical form. -/
def Image.checkStruct (img : Image P) : Bool :=
  img.checkLen && (img.codeSymbols.all fun s => (img.codeRead s).ignoredZero) &&
    (img.treeIndices.all fun i => (img.nodeRead i).ignoredZero) &&
    (let reach := img.reachable; img.treeIndices.all fun i => decide (i ∈ reach))

/-- The check of `CONSISTENT`, for an image with `WF_TREE` (R174). -/
def Image.checkConsistent (img : Image P) : Bool :=
  (img.codes.all fun e => decide (e ∈ img.generate)) && (img.generate.all fun e => decide (e ∈ img.codes)) &&
    decide img.CodesFit

end Sys2Proof.Machine
end

