-- ==== Sys2Proof/Machine/BuiltImage.lean ====
section
/-! DEFINITION. Building an image: its checks run when it is built, and what is built carries the proof of (S1)
(10_state.md R41; 93_implementation_defined.md U1; assumption 12). A host places built images only
(`Machine/Port.lean`). -/

namespace Sys2Proof.Machine

variable {P : Params}

/-- The image predicates of R41. -/
inductive ImagePredicate where
  /-- `WF_STRUCT` (R100). -/
  | struct
  /-- `WF_TREE` (R31). -/
  | tree
  /-- `WF_TREE_STRICT` (R31). -/
  | treeStrict
  /-- `WF_CODE` (R35). -/
  | code
  /-- `CONSISTENT` with `WF_TREE`, as R41's table asks for it (R174). -/
  | consistent
  deriving DecidableEq, Repr

/-- What a predicate says of an image (R41). -/
def Image.Meets (img : Image P) : ImagePredicate → Prop
  | .struct => img.WfStruct
  | .tree => img.WfTree
  | .treeStrict => img.WfTreeStrict
  | .code => img.WfCode
  | .consistent => img.WfTree ∧ img.Consistent

/-- The Boolean check of a predicate (R41). -/
def Image.check (img : Image P) : ImagePredicate → Bool
  | .struct => img.checkStruct
  | .tree => img.checkTree
  | .treeStrict => img.checkTreeStrict
  | .code => img.checkCode
  | .consistent => img.checkTree && img.checkConsistent

/-- An image that was built: it is in canonical form and passed the check of (S1), without which an image is not an image
(U1, R266). -/
structure BuiltImage (P : Params := Config.params) where
  image : Image P
  canonical : image.wf
  lenInRange : image.checkLen = true
  deriving DecidableEq, Repr

/-- Why an image is not built. -/
inductive ImageError where
  /-- A space is not in canonical form (assumption 3). -/
  | notCanonical
  /-- A valid entry has a length outside 1 to `MAX_CODE_LEN`: (S1) fails (U1). -/
  | lenOutOfRange
  /-- A predicate that was asked for does not hold. -/
  | fails (p : ImagePredicate)
  deriving DecidableEq, Repr

/-- Build an image: check (S1), and the predicates that are needed of it (R41). -/
def Image.build (needs : List ImagePredicate) (img : Image P) : Except ImageError (BuiltImage P) :=
  if canonical : img.wf then
    if lenInRange : img.checkLen = true then
      match needs.find? fun p => !img.check p with
      | some p => .error (.fails p)
      | none => .ok { image := img, canonical := canonical, lenInRange := lenInRange }
    else .error .lenOutOfRange
  else .error .notCanonical

/-- The blank image, built. -/
def BuiltImage.blank : BuiltImage P where
  image := Image.blank
  canonical := by simp [Image.wf, Memory.wf, Image.blank]
  lenInRange := rfl

end Sys2Proof.Machine
end

