-- ==== Sys2Proof/Machine/State.lean ====
section
/-! DEFINITION. The state of the codec as plain data (10_state.md R20, R29, R38), the reasons a step can stop, and the
state after reset. -/

namespace Sys2Proof.Machine

/-- Everything the spec gives the machine. The first six fields are its whole mutable state (R20), the next three its
observation histories (R29); the image is its read-only configuration (R10); that both stand in the state is the model's
choice (assumption 11); the last two are what its input ports carry. -/
structure State (P : Params := Config.params) where
  /-- `cursor`: the decoder's position in the tree (R21). -/
  cursor : NodeIndex P
  /-- `enc_fault`: the current encoder frame has failed (R23). -/
  encFault : Bool
  /-- `dec_fault`: the current decoder frame has failed (R24). -/
  decFault : Bool
  /-- `s_unk`, sticky: UnknownSymbol was raised (R25). -/
  sUnk : Bool
  /-- `s_mal`, sticky: MalformedBitstream was raised (R25). -/
  sMal : Bool
  /-- `s_ill`, sticky: an illegal command was given (R25). -/
  sIll : Bool
  /-- `enc_out`, oldest item first (R29, R88). -/
  encOut : List EncItem
  /-- `dec_out`, oldest item first (R29, R90). -/
  decOut : List (DecItem P)
  /-- `resp`, oldest response first (R29, R87). -/
  resp : List Response
  /-- The image in `CODE`, `TREE` and `ROOT` (R10, R50). No command changes it (R58). -/
  image : Image P
  /-- The model's own (assumption 5): the command words the host has given on the command port and the engine has not
  yet taken, oldest first (R60, R268). -/
  cmds : List (CmdWord P)
  /-- The level of the reset input `rst` (R260; assumption 6). -/
  rst : Bool
  deriving DecidableEq, Repr

/-- The faults that stop the machine: there are none. Every condition of the spec is answered and the machine goes on
(60_exceptions.md R228), and every command has a next state (R236). -/
inductive Fault
  deriving DecidableEq, Repr

/-- Why the model gives no next state. -/
inductive Refusal where
  /-- Raised by an arm of `exec` for an instruction with no meaning yet; no arm is left that raises it. Safe. -/
  | notModelled (mnemonic : String)
  /-- Raised by `execEncSym` for a valid entry whose length is outside 1 to `MAX_CODE_LEN`, an entry of an image that
  fails (S1): the spec gives it no behaviour and says to refuse (93_implementation_defined.md U1, R100, R112 corner case
  (a)). Safe: the model stops where the hardware would do something the spec does not say (assumption 2). -/
  | codeEntryUnspecified
  /-- Raised by the host operation `State.placeImage`, never by a command, when the image would change out of reset
  (93_implementation_defined.md U2, R264). Safe (assumption 6). -/
  | imageChangedOutOfReset
  deriving DecidableEq, Repr

/-- The reset state, evaluated with the image that is in place, whatever it is: the block checks nothing (R38, R260, R266). -/
def State.resetWith {P : Params} (img : Image P) : State P where
  cursor := img.root
  encFault := false
  decFault := false
  sUnk := false
  sMal := false
  sIll := false
  encOut := []
  decOut := []
  resp := []
  image := img
  cmds := []
  rst := false

/-- The machine right after reset. The spec gives no image: the blank one, which passes the checks of one that is built, is
in place (assumption 4), and no command has been given (assumption 5). -/
def State.reset : State := State.resetWith BuiltImage.blank.image

end Sys2Proof.Machine
end

