-- ==== Sys2Proof/Machine/Flags.lean ====
section
/-! DEFINITION. The flags: the `STATUS` view (10_state.md R28) and the writes of the sticky flags that are not part of
raising a condition (R26, R154). -/

namespace Sys2Proof.Machine

variable {P : Params}

/-- `STATUS.DEC_MID`: the decoder is part-way through a code (R28 bit 5). -/
def State.decMid (s : State P) : Bool := s.cursor != s.image.root

/-- `STATUS`: bit 0 `UNK`, 1 `MAL`, 2 `ILL`, 3 `ENC_FAULT`, 4 `DEC_FAULT`, 5 `DEC_MID`, bits 7:6 zero (R28). -/
def State.status (s : State P) : Byte :=
  (0 : BitVec 2) ++ BitVec.ofBool s.decMid ++ BitVec.ofBool s.decFault ++ BitVec.ofBool s.encFault
    ++ BitVec.ofBool s.sIll ++ BitVec.ofBool s.sMal ++ BitVec.ofBool s.sUnk

/-- All three sticky flags to 0 (R154). -/
def State.clearSticky (s : State P) : State P := { s with sUnk := false, sMal := false, sIll := false }

end Sys2Proof.Machine
end

