-- ==== Sys2Proof/Machine/Ops.lean ====
section
/-! DEFINITION. The named operations the commands are made of: responding, emitting, moving the cursor, raising a
condition (60_exceptions.md R228) and closing a frame (R234). -/

namespace Sys2Proof.Machine

variable {P : Params}

/-- `respond(rcode, rdata)` (00_scope.md section 5; R87). -/
def State.respond (rc : Rcode) (rdata : Byte) (s : State P) : State P :=
  { s with resp := s.resp ++ [{ rcode := rc, rdata := rdata }] }

/-- `emit_enc`, once for each item, in order (R66). -/
def State.emitEnc (items : List EncItem) (s : State P) : State P := { s with encOut := s.encOut ++ items }

/-- `emit_dec` (R90). -/
def State.emitDec (item : DecItem P) (s : State P) : State P := { s with decOut := s.decOut ++ [item] }

/-- `cursor <- i` (R21). -/
def State.moveCursor (i : NodeIndex P) (s : State P) : State P := { s with cursor := i }

/-- What `DEC_BIT` does at the child it moves to: at a leaf it emits the symbol and goes back to the root, else the
cursor rests there (R132). -/
def State.arriveAt (i : NodeIndex P) (s : State P) : State P :=
  if s.image.isLeafAt i then (s.emitDec (.data (s.image.nodeRead i).symbol)).moveCursor s.image.root
  else s.moveCursor i

/-- `raise <Condition>`, the entry to every condition: exactly what R228 says and nothing more. No control is
transferred: there is no handler. The truncated code only sets its flag here; the rest of `DEC_END` answers. -/
def State.raise (c : Condition) (s : State P) : State P :=
  match c with
  | .unknownSymbol => State.respond .unknownSymbol 0 { s with encFault := true, sUnk := true }
  | .absentChild =>
    State.respond .malformedBitstream 0 { s with decFault := true, sMal := true, cursor := s.image.root }
  | .truncatedCode => { s with sMal := true }
  | .illegalCommand => State.respond .illegalCmd 0 { s with sIll := true }

/-- The end of an encoder frame with the result `st`, failed or not (R114, R234). -/
def State.closeEnc (st : Rcode) (s : State P) : State P :=
  State.respond st 0 { s.emitEnc [.endFrame st] with encFault := false }

/-- The end of a decoder frame with the result `st`, failed or not (R136, R234). -/
def State.closeDec (st : Rcode) (s : State P) : State P :=
  State.respond st 0 { s.emitDec (.endFrame st) with decFault := false, cursor := s.image.root }

end Sys2Proof.Machine
end

