-- ==== Sys2Proof/Machine/Decoder.lean ====
section
/-! DEFINITION. The decoder commands, the tree walker (41_decoder.md). -/

namespace Sys2Proof.Machine

variable {P : Params}

/-- `DEC_BIT b` (R132). The single-leaf case is tested before any child is looked at (C3). -/
def execDecBit (b : Bool) (s : State P) : Host.Outcome (State P) Fault Refusal :=
  if s.decFault then .next (s.respond .malformedBitstream 0)
  else if s.image.rootIsLeaf then
    .next ((s.emitDec (.data (s.image.nodeRead s.image.root).symbol)).respond .ok 0)
  else match s.image.child s.cursor b with
    | none => .next (s.raise .absentChild)
    | some t => .next ((s.arriveAt t).respond .ok 0)

/-- `DEC_END` (R136). -/
def execDecEnd (s : State P) : Host.Outcome (State P) Fault Refusal :=
  if s.decFault then .next (s.closeDec .malformedBitstream)
  else if s.decMid then .next ((s.raise .truncatedCode).closeDec .malformedBitstream)
  else .next (s.closeDec .ok)

end Sys2Proof.Machine
end

