-- ==== Sys2Proof/Machine/Encoder.lean ====
section
/-! DEFINITION. The encoder commands (40_encoder.md). -/

namespace Sys2Proof.Machine

variable {P : Params}

/-- `ENC_SYM s` (R112). A valid entry of a length outside 1 to `MAX_CODE_LEN` is refused (U1). -/
def execEncSym (sym : Symbol P) (s : State P) : Host.Outcome (State P) Fault Refusal :=
  let e := s.image.codeRead sym
  if s.encFault then .next (s.respond .unknownSymbol 0)
  else if !e.valid then .next (s.raise .unknownSymbol)
  else if !e.lenOk then .refused .codeEntryUnspecified
  else .next ((s.emitEnc (e.code.map .data)).respond .ok 0)

/-- `ENC_END` (R114). -/
def execEncEnd (s : State P) : Host.Outcome (State P) Fault Refusal :=
  .next (s.closeEnc (if s.encFault then .unknownSymbol else .ok))

end Sys2Proof.Machine
end

