-- ==== Sys2Proof/Machine/Port.lean ====
section
/-! DEFINITION. The input ports: how the engine takes a command (20_memory.md R60) and what the host may do from outside
(70_reset_and_hazards.md R260, R264, R266, R268). The host operations are no steps of the machine. -/

namespace Sys2Proof.Machine

variable {P : Params}

/-- The command the engine takes next and the state with it taken. While `rst` is asserted no command is accepted
(R260); with no command given there is none to take. -/
def State.fetch (s : State P) : Option (CmdWord P × State P) :=
  if s.rst then none
  else match s.cmds with
    | [] => none
    | w :: ws => some (w, { s with cmds := ws })

/-- The host gives one more command word, any word at all (R268). -/
def State.giveCommand (w : CmdWord P) (s : State P) : State P := { s with cmds := s.cmds ++ [w] }

/-- The state in which the given word is the next command the engine takes: `rst` released, the word before every
other. -/
def State.offerFirst (w : CmdWord P) (s : State P) : State P := { s with rst := false, cmds := w :: s.cmds }

/-- The host asserts `rst`; it may at any time (R268). -/
def State.assertReset (s : State P) : State P := { s with rst := true }

/-- The host releases `rst`: the reset state with the image in place at that moment (R260). The words the host still
has to give are the host's and stay. -/
def State.releaseReset (s : State P) : State P :=
  if s.rst then { State.resetWith s.image with cmds := s.cmds } else s

/-- The host places an image, one that was built and so carries (S1) (U1), which it may do only while `rst` is asserted
(R264); out of reset the behaviour is unspecified and the operation refuses (U2). -/
def State.placeImage (b : BuiltImage P) (s : State P) : Host.Outcome (State P) Fault Refusal :=
  if s.rst then .next { s with image := b.image } else .refused .imageChangedOutOfReset

/-- Boot: a built image in place, then `rst` released (R266). -/
def State.boot (b : BuiltImage P) : State P := State.resetWith b.image

end Sys2Proof.Machine
end

