-- ==== Sys2Proof/Machine/StatusCommands.lean ====
section
/-! DEFINITION. The status commands and every illegal word (42_status_commands.md). -/

namespace Sys2Proof.Machine

variable {P : Params}

/-- `RD_STATUS` (R152). -/
def execRdStatus (s : State P) : Host.Outcome (State P) Fault Refusal := .next (s.respond .ok s.status)

/-- `CLR_STATUS` (R154). -/
def execClrStatus (s : State P) : Host.Outcome (State P) Fault Refusal := .next (s.clearSticky.respond .ok 0)

/-- A word of the reserved opcode 6 (R156). The whole word is ignored beyond being illegal. -/
def execIllegalOp6 (_opd : Symbol P) (s : State P) : Host.Outcome (State P) Fault Refusal :=
  .next (s.raise .illegalCommand)

/-- A word of the reserved opcode 7 (R156). -/
def execIllegalOp7 (_opd : Symbol P) (s : State P) : Host.Outcome (State P) Fault Refusal :=
  .next (s.raise .illegalCommand)

/-- A word the decoder rejects: opcode 1 to 5 with a stray operand bit (R84, R156). -/
def execRejected (_e : DecodeError P) (s : State P) : Host.Outcome (State P) Fault Refusal :=
  .next (s.raise .illegalCommand)

end Sys2Proof.Machine
end

