-- ==== Sys2Proof/Machine/AnyWidth.lean ====
section
/-! DEFINITION. The commands and one step of the machine for any parameters (00_scope.md R6 to R8 and section 3): take the
next command, decode it, run it to completion (20_memory.md R60). `exec` and `step`, whose form the host fixes, are these at
the default parameters (`Laws/Ops.lean`). -/

namespace Sys2Proof.Machine

variable {P : Params}

/-- The command `i`, for any parameters (30_encoding.md R81). -/
def execIn (i : Instr P) (s : State P) : Host.Outcome (State P) Fault Refusal :=
  match i with
  | .encSym sym => execEncSym sym s
  | .encEnd => execEncEnd s
  | .decBit b => execDecBit b s
  | .decEnd => execDecEnd s
  | .rdStatus => execRdStatus s
  | .clrStatus => execClrStatus s
  | .illegalOp6 opd => execIllegalOp6 opd s
  | .illegalOp7 opd => execIllegalOp7 opd s

/-- One step, in which `run` runs a command. With `rst` asserted, or no command given, nothing happens (R260; assumption
5). An illegal word that is no row of the opcode table raises IllegalCommand as every illegal word does (R156). -/
def stepWith (run : Instr P → State P → Host.Outcome (State P) Fault Refusal) (s : State P) :
    Host.Outcome (State P) Fault Refusal :=
  match s.fetch with
  | none => .next s
  | some (w, t) =>
    match decode w with
    | .ok i => run i t
    | .error e => execRejected e t

/-- One step, for any parameters. -/
def stepIn (s : State P) : Host.Outcome (State P) Fault Refusal := stepWith execIn s

end Sys2Proof.Machine
end

