-- ==== Sys2Proof/Machine/Dispatch.lean ====
section
/-! DEFINITION. One arm for each command, each one direct call of its meaning (30_encoding.md R81). -/

namespace Sys2Proof.Machine

def exec (i : Instr) (s : State) : Host.Outcome State Fault Refusal :=
  match i with
  | .encSym sym => Sys2Proof.Machine.execEncSym sym s
  | .encEnd => Sys2Proof.Machine.execEncEnd s
  | .decBit b => Sys2Proof.Machine.execDecBit b s
  | .decEnd => Sys2Proof.Machine.execDecEnd s
  | .rdStatus => Sys2Proof.Machine.execRdStatus s
  | .clrStatus => Sys2Proof.Machine.execClrStatus s
  | .illegalOp6 opd => Sys2Proof.Machine.execIllegalOp6 opd s
  | .illegalOp7 opd => Sys2Proof.Machine.execIllegalOp7 opd s

end Sys2Proof.Machine
end

