-- ==== Sys2Proof/Machine/Step.lean ====
section
/-! DEFINITION. One step of the machine at the default parameters, and the placing of a command word. -/

namespace Sys2Proof.Machine

/-- One step: take the next command, decode it, run it to completion (20_memory.md R60). -/
def step (s : State) : Host.Outcome State Fault Refusal := stepWith exec s

/-- `s` with the command word whose bits are `w` given as the next command the engine takes (assumption 5). A command
is one word of `CMD_W` bits, so `nbits` plays no part. -/
def State.withFetchWord (s : State) (_nbits w : Nat) : State := s.offerFirst (BitVec.ofNat Config.cmdW w)

end Sys2Proof.Machine
end

