-- ==== Sys2Proof/Machine/Heap.lean ====
section
/-! DEFINITION. The offline binary min-heap (44_offline_tree_construction.md R188 to R197). Not hardware (00_scope.md
R3). Generic over the element type and its ordering (R189). -/

namespace Sys2Proof.Machine

/-- The conditions of the offline reference (R208). The hardware raises none of them (60_exceptions.md R222). -/
inductive OfflineCondition where
  /-- No symbols to build a tree from; raised by `buildTree` (R203). -/
  | emptyAlphabet
  /-- `Front` on an empty queue; raised by `Heap.front` (R194). -/
  | emptyQueue
  /-- Named by the taxonomy; the reference `add` drops the item silently, so nothing raises it (R192, R208, S3). -/
  | capacityExceeded
  deriving DecidableEq, Repr

/-- `HeapArray<T>`: position `i` counted from 1 is element `i - 1` of the list (R188). -/
structure Heap (α : Type) where
  capacity : Nat
  items : List α
  deriving DecidableEq, Repr

/-- `Size()` (R195). -/
def Heap.size {α : Type} (q : Heap α) : Nat := q.items.length

/-- `Empty()` (R195). -/
def Heap.isEmpty {α : Type} (q : Heap α) : Bool := q.items.isEmpty

/-- `MakeEmpty()` (R195). -/
def Heap.makeEmpty {α : Type} (q : Heap α) : Heap α := { q with items := [] }

/-- `Construct(capacity)` (R190). -/
def Heap.empty {α : Type} (capacity : Nat) : Heap α := { capacity := capacity, items := [] }

/-- Swap the elements at two positions counted from 1. -/
def swapAt {α : Type} (A : List α) (i j : Nat) : List α :=
  match A[i - 1]?, A[j - 1]? with
  | some x, some y => (A.set (i - 1) y).set (j - 1) x
  | _, _ => A

/-- Whether the element at position `i` compares strictly less than the one at `j`, both present. -/
def lessAt {α : Type} (lt : α → α → Bool) (A : List α) (i j : Nat) : Bool :=
  match A[i - 1]?, A[j - 1]? with
  | some x, some y => lt x y
  | _, _ => false

/-- Percolate up from position `i`: swap with the parent while strictly less than it (R192). -/
def percolateUp {α : Type} (lt : α → α → Bool) : Nat → List α → Nat → List α
  | 0, A, _ => A
  | fuel + 1, A, i =>
    if 1 < i ∧ lessAt lt A i (i / 2) = true then percolateUp lt fuel (swapAt A i (i / 2)) (i / 2) else A

/-- Percolate down from position `i`: the smaller child, the left one on a tie, moves up while strictly less (R193). -/
def percolateDown {α : Type} (lt : α → α → Bool) : Nat → List α → Nat → List α
  | 0, A, _ => A
  | fuel + 1, A, i =>
    if A.length < 2 * i then A
    else
      let c := if lessAt lt A (2 * i + 1) (2 * i) then 2 * i + 1 else 2 * i
      if lessAt lt A c i then percolateDown lt fuel (swapAt A c i) c else A

/-- `Add(item)`: a silent no-op on a full queue (R192; S3, assumption 9). -/
def Heap.add {α : Type} (lt : α → α → Bool) (q : Heap α) (x : α) : Heap α :=
  if q.items.length = q.capacity then q
  else { q with items := percolateUp lt (q.items.length + 1) (q.items ++ [x]) (q.items.length + 1) }

/-- `Remove()`: discards the minimum; a no-op on an empty queue (R193). -/
def Heap.remove {α : Type} (lt : α → α → Bool) (q : Heap α) : Heap α :=
  match q.items.getLast? with
  | none => q
  | some l => { q with items := percolateDown lt q.items.length (q.items.set 0 l).dropLast 1 }

/-- `Front()`: the minimum, or EmptyQueue (R194). -/
def Heap.front {α : Type} (q : Heap α) : Except OfflineCondition α :=
  match q.items with
  | [] => .error .emptyQueue
  | x :: _ => .ok x

/-- `BuildHeap`: percolate down from position `i` to 1 (R191; the loop is the spec's general knowledge, G2). -/
def buildHeap {α : Type} (lt : α → α → Bool) : Nat → List α → List α
  | 0, A => A
  | i + 1, A => buildHeap lt i (percolateDown lt A.length A (i + 1))

/-- `Construct(items)` (R191). -/
def Heap.ofItems {α : Type} (lt : α → α → Bool) (items : List α) : Heap α :=
  { capacity := items.length, items := buildHeap lt (items.length / 2) items }

/-- Extract the minimum `n` times. -/
def Heap.drain {α : Type} (lt : α → α → Bool) : Nat → Heap α → List α
  | 0, _ => []
  | n + 1, q =>
    match q.items with
    | [] => []
    | x :: _ => x :: Heap.drain lt n (q.remove lt)

/-- `HeapSort(sequence)`: repeated extraction of the minimum (R196). Two points are the model's choice (DESIGN CHOICE,
assumption 9): the result is a sorted copy (S4), and the heap is made by `Construct(items)`, bottom-up, not by repeated `Add`,
which decides the order among equal elements. -/
def heapSort {α : Type} (lt : α → α → Bool) (l : List α) : List α :=
  (Heap.ofItems lt l).drain lt l.length

/-- The heap invariant: for every position `i` above 1, the element at `i` is not less than its parent (R188). -/
def Heap.Ordered {α : Type} (lt : α → α → Bool) (A : List α) : Prop :=
  ∀ i, 1 < i → i ≤ A.length → lessAt lt A i (i / 2) = false

end Sys2Proof.Machine
end

