-- ==== Sys2Proof/Machine/RomTree.lean ====
section
/-! DEFINITION. From a tree and its generated table to an image (43_code_table_generation.md R184). Not hardware
(00_scope.md R3). -/

namespace Sys2Proof.Machine

variable {P : Params}

/-- A tree to be written, each node with its number: a leaf, or a node with one child or two (R30, R31, R168). -/
inductive RomTree (P : Params := Config.params) where
  | leaf (num : Nat) (sym : Symbol P)
  | leftOnly (num : Nat) (left : RomTree P)
  | rightOnly (num : Nat) (right : RomTree P)
  | both (num : Nat) (left right : RomTree P)
  deriving DecidableEq, Repr

/-- The number of a node (R184). -/
def RomTree.num : RomTree P → Nat
  | .leaf n _ => n
  | .leftOnly n _ => n
  | .rightOnly n _ => n
  | .both n _ _ => n

/-- The record of a node: `lv`, `rv` set for the children that exist, `left`, `right` holding their numbers, `symbol` for
leaves (R184). -/
def RomTree.record : RomTree P → Node P
  | .leaf _ s => { lv := false, left := 0, rv := false, right := 0, symbol := s }
  | .leftOnly _ l => { lv := true, left := BitVec.ofNat _ l.num, rv := false, right := 0, symbol := 0 }
  | .rightOnly _ r => { lv := false, left := 0, rv := true, right := BitVec.ofNat _ r.num, symbol := 0 }
  | .both _ l r =>
    { lv := true, left := BitVec.ofNat _ l.num, rv := true, right := BitVec.ofNat _ r.num, symbol := 0 }

/-- The nodes of a tree, itself first, left before right. -/
def RomTree.subtrees : RomTree P → List (RomTree P)
  | .leaf n s => [.leaf n s]
  | .leftOnly n l => .leftOnly n l :: l.subtrees
  | .rightOnly n r => .rightOnly n r :: r.subtrees
  | .both n l r => .both n l r :: (l.subtrees ++ r.subtrees)

/-- The symbols of the leaves, left to right. -/
def RomTree.symbols : RomTree P → List (Symbol P)
  | .leaf _ s => [s]
  | .leftOnly _ l => l.symbols
  | .rightOnly _ r => r.symbols
  | .both _ l r => l.symbols ++ r.symbols

/-- Every node that is not a leaf has two children, as (T3) asks (R31). -/
def RomTree.isStrict : RomTree P → Bool
  | .leaf _ _ => true
  | .leftOnly _ _ => false
  | .rightOnly _ _ => false
  | .both _ l r => l.isStrict && r.isStrict

/-- The numbers are distinct indices in `0 .. 2^IDX_W - 1` (R184). -/
abbrev RomTree.Numbered (t : RomTree P) : Prop :=
  (t.subtrees.map RomTree.num).Nodup ∧ ∀ u ∈ t.subtrees, u.num < 2 ^ P.idxW

/-- The tree part of an image: each node as a `TREE` word at its number, `ROOT` the root's number, every other word 0
(R184). -/
def RomTree.image (t : RomTree P) : Image P where
  code := []
  tree := t.subtrees.foldl (fun m u => m.write u.num u.record.pack) []
  root := BitVec.ofNat _ t.num

/-- The whole image of a tree: its words and those of the table it generates (R184), where that table can be written
(`Image.withCodeTable`). -/
def RomTree.imageWithCodes (t : RomTree P) : Image P := t.image.withCodeTable t.image.generate

/-- Why an image maker gives no image. -/
inductive MakeError where
  /-- The tree builder fails. -/
  | offline (c : OfflineCondition)
  /-- The numbers of the nodes are not distinct indices in range: a tree too large for `IDX_W` (R184). -/
  | numbering
  /-- Two leaves carry one symbol, so that the tree has no `WF_TREE` and the generator no mapping to give (R166, R31). -/
  | sharedSymbol
  /-- A code is longer than `MAX_CODE_LEN`: no `CODE` word holds it (R174). -/
  | codeTooLong
  /-- The image written does not pass a check that was asked for. -/
  | image (e : ImageError)
  deriving DecidableEq, Repr

/-- Write a tree and its table, and build the image with the predicates that are needed of it (R184, R41). A tree that
cannot be numbered, that has no table (R166), or whose table does not fit (R174) is refused before anything is written. -/
def RomTree.make (needs : List ImagePredicate) (t : RomTree P) : Except MakeError (BuiltImage P) :=
  if ¬ t.Numbered then .error .numbering
  else if ¬ t.symbols.Nodup then .error .sharedSymbol
  else if ¬ t.image.CodesFit then .error .codeTooLong
  else
    match t.imageWithCodes.build needs with
    | .ok b => .ok b
    | .error e => .error (.image e)

end Sys2Proof.Machine
end

