-- ==== Sys2Proof/Machine/TreeBuilder.lean ====
section
/-! DEFINITION. The offline FrequencyAnalyzer and HuffmanTreeBuilder (44_offline_tree_construction.md R186, R187, R200 to
R212). Not hardware (00_scope.md R3). It makes images. -/

namespace Sys2Proof.Machine

variable {P : Params}

/-- `FrequencyMap`: symbols with their counts in leaf insertion order, the keys unique and the counts positive (R187,
R212). -/
structure FrequencyMap (P : Params := Config.params) where
  entries : List (Symbol P × Nat)
  keysUnique : (entries.map Prod.fst).Nodup
  countsPositive : ∀ e ∈ entries, 0 < e.2
  deriving DecidableEq, Repr

/-- The map of a table of counts, in the order the table lists them (R212); none when a key comes twice or a count is 0
(R187). -/
def FrequencyMap.ofList (l : List (Symbol P × Nat)) : Option (FrequencyMap P) :=
  if h : (l.map Prod.fst).Nodup ∧ ∀ e ∈ l, 0 < e.2 then
    some { entries := l, keysUnique := h.1, countsPositive := h.2 }
  else none

/-- The map with no entry (R186). -/
def FrequencyMap.empty : FrequencyMap P where
  entries := []
  keysUnique := by simp
  countsPositive := by simp

/-- Count one more occurrence of a symbol in a list of counts; a new symbol goes to the end. -/
def countOne : List (Symbol P × Nat) → Symbol P → List (Symbol P × Nat)
  | [], s => [(s, 1)]
  | (t, n) :: l, s => if t = s then (t, n + 1) :: l else (t, n) :: countOne l s

/-- Counting one more adds no key but the symbol's own. -/
theorem mem_keys_countOne {l : List (Symbol P × Nat)} {s x : Symbol P} :
    x ∈ (countOne l s).map Prod.fst ↔ x ∈ l.map Prod.fst ∨ x = s := by
  induction l with
  | nil => simp [countOne]
  | cons e l ih =>
    obtain ⟨t, n⟩ := e
    simp only [countOne]
    split
    · next h => subst h; simp [or_comm]
    · simp [ih, or_assoc]

/-- Counting one more keeps the keys unique. -/
theorem keysUnique_countOne {l : List (Symbol P × Nat)} (s : Symbol P) (h : (l.map Prod.fst).Nodup) :
    ((countOne l s).map Prod.fst).Nodup := by
  induction l with
  | nil => simp [countOne]
  | cons e l ih =>
    obtain ⟨t, n⟩ := e
    obtain ⟨ht, hl⟩ := List.nodup_cons.1 h
    simp only [countOne]
    split
    · exact h
    · next hs =>
      refine List.nodup_cons.2 ⟨fun hm => ?_, ih hl⟩
      rcases mem_keys_countOne.1 hm with hm | hm
      · exact ht hm
      · exact hs hm

/-- Counting one more keeps the counts positive. -/
theorem countsPositive_countOne {l : List (Symbol P × Nat)} (s : Symbol P) (h : ∀ e ∈ l, 0 < e.2) :
    ∀ e ∈ countOne l s, 0 < e.2 := by
  induction l with
  | nil => simp [countOne]
  | cons d l ih =>
    obtain ⟨t, n⟩ := d
    simp only [countOne]
    split
    · simp only [List.mem_cons, forall_eq_or_imp] at h ⊢
      exact ⟨Nat.succ_pos n, h.2⟩
    · simp only [List.mem_cons, forall_eq_or_imp] at h ⊢
      exact ⟨h.1, ih h.2⟩

/-- Count one more occurrence of a symbol. -/
def FrequencyMap.count (fm : FrequencyMap P) (s : Symbol P) : FrequencyMap P where
  entries := countOne fm.entries s
  keysUnique := keysUnique_countOne s fm.keysUnique
  countsPositive := countsPositive_countOne s fm.countsPositive

/-- `AnalyzeFrequencies(symbols)` (R186), in order of first occurrence (R212). -/
def analyzeFrequencies (syms : List (Symbol P)) : FrequencyMap P := syms.foldl FrequencyMap.count FrequencyMap.empty

/-- `HuffmanNode` (R200), each node with its number (R210). -/
inductive HuffTree (P : Params := Config.params) where
  | leaf (num : Nat) (sym : Symbol P) (freq : Nat)
  | internal (num : Nat) (freq : Nat) (left right : HuffTree P)
  deriving DecidableEq, Repr

/-- The `frequency` field (R200). -/
def HuffTree.freq : HuffTree P → Nat
  | .leaf _ _ f => f
  | .internal _ f _ _ => f

/-- The number of a node (R210). -/
def HuffTree.num : HuffTree P → Nat
  | .leaf n _ _ => n
  | .internal n _ _ _ => n

/-- The leaves of a tree, left to right. -/
def HuffTree.leaves : HuffTree P → List (HuffTree P)
  | .leaf n s f => [.leaf n s f]
  | .internal _ _ l r => l.leaves ++ r.leaves

/-- The numbers of the internal nodes of a tree. -/
def HuffTree.innerNums : HuffTree P → List Nat
  | .leaf _ _ _ => []
  | .internal n _ l r => n :: (l.innerNums ++ r.innerNums)

/-- Every internal node's frequency is the sum of its children's (R200, R206). -/
def HuffTree.sumsHold : HuffTree P → Bool
  | .leaf _ _ _ => true
  | .internal _ f l r => f == l.freq + r.freq && l.sumsHold && r.sumsHold

/-- The ordering of nodes: by frequency alone (R189). -/
def HuffTree.less (x y : HuffTree P) : Bool := decide (x.freq < y.freq)

/-- The leaves of the entries of a frequency map, numbered in insertion order from `n` (R202, R210). -/
def leavesFrom : Nat → List (Symbol P × Nat) → List (HuffTree P)
  | _, [] => []
  | n, (s, f) :: l => .leaf n s f :: leavesFrom (n + 1) l

/-- The merge loop: while two nodes are left, take `x` then `y` and put back their parent, left `x`, right `y` (R202).
Each pass leaves one node fewer, so the number of leaves is fuel enough. -/
def mergeAll : Nat → Nat → Heap (HuffTree P) → Except OfflineCondition (HuffTree P)
  | 0, _, q => q.front
  | fuel + 1, next, q =>
    if q.size ≤ 1 then q.front
    else do
      let x ← q.front
      let q₁ := q.remove HuffTree.less
      let y ← q₁.front
      let q₂ := q₁.remove HuffTree.less
      mergeAll fuel (next + 1) (q₂.add HuffTree.less (.internal next (x.freq + y.freq) x y))

/-- `Build(frequencyMap)` (R202); EmptyAlphabet on an empty map (R203). -/
def buildTree (fm : FrequencyMap P) : Except OfflineCondition (HuffTree P) :=
  if fm.entries.isEmpty then .error .emptyAlphabet
  else
    mergeAll fm.entries.length fm.entries.length
      ((leavesFrom 0 fm.entries).foldl (fun q t => q.add HuffTree.less t) (Heap.empty fm.entries.length))

/-- The tree to be written: the frequencies are dropped (R200). -/
def HuffTree.rom : HuffTree P → RomTree P
  | .leaf n s _ => .leaf n s
  | .internal n _ l r => .both n l.rom r.rom

/-- The image of a frequency map: `Build`, then `Generate`, then the words (R184), with every predicate checked (R41). -/
def imageOfCounts (fm : FrequencyMap P) : Except MakeError (BuiltImage P) :=
  match buildTree fm with
  | .error c => .error (.offline c)
  | .ok t => t.rom.make [.struct, .treeStrict, .code, .consistent]

/-- The image of an input: its session (00_scope.md R10). -/
def imageOfInput (syms : List (Symbol P)) : Except MakeError (BuiltImage P) := imageOfCounts (analyzeFrequencies syms)

end Sys2Proof.Machine
end

