-- ==== Sys2Proof/Machine/Frames.lean ====
section
/-! DEFINITION. Frames (40_encoder.md R116, 41_decoder.md R138): the commands of one `Encode` or `Decode` call, the frame
functions, and how the host reads a frame's result from the histories (60_exceptions.md R230, R270). -/

namespace Sys2Proof.Machine

variable {P : Params}

/-- `Encode` of a symbol sequence, R116: the concatenation of the codes, or the failure. Over an image that fails (S1) it
goes on with what `codeOf` gives (assumption 14), where the machine refuses. -/
def Image.encodeFrame (img : Image P) : List (Symbol P) → Except Rcode BitString
  | [] => .ok []
  | s :: ss =>
    match img.codeOf s, Image.encodeFrame img ss with
    | some p, .ok bs => .ok (p ++ bs)
    | _, _ => .error .unknownSymbol

/-- The loop of R138's general case from the node `cur`: the symbols of the completed codes, or the failure. -/
def Image.decodeFrom (img : Image P) : NodeIndex P → BitString → Except Rcode (List (Symbol P))
  | cur, [] => if cur = img.root then .ok [] else .error .malformedBitstream
  | cur, b :: bs =>
    match img.child cur b with
    | none => .error .malformedBitstream
    | some t =>
      if img.isLeafAt t then (Image.decodeFrom img img.root bs).map ((img.nodeRead t).symbol :: ·)
      else Image.decodeFrom img t bs

/-- `Decode` of a bit string (R138). -/
def Image.decodeFrame (img : Image P) (bs : BitString) : Except Rcode (List (Symbol P)) :=
  if img.rootIsLeaf then .ok (bs.map fun _ => (img.nodeRead img.root).symbol)
  else img.decodeFrom img.root bs

/-- The symbols completed before the failure point of a frame, and all of them when it does not fail (R140). -/
def Image.decodedBefore (img : Image P) : NodeIndex P → BitString → List (Symbol P)
  | _, [] => []
  | cur, b :: bs =>
    match img.child cur b with
    | none => []
    | some t =>
      if img.isLeafAt t then (img.nodeRead t).symbol :: Image.decodedBefore img img.root bs
      else Image.decodedBefore img t bs

/-- How many bits of a frame are moved on before one meets an absent child, and all of them when none does (R140). -/
def Image.movesBefore (img : Image P) : NodeIndex P → BitString → Nat
  | _, [] => 0
  | cur, b :: bs =>
    match img.child cur b with
    | none => 0
    | some t =>
      if img.isLeafAt t then Image.movesBefore img img.root bs + 1 else Image.movesBefore img t bs + 1

/-- The commands of one `Encode` call; also the expansion of the pseudo-command `ENCODE` (R92, R116). -/
def encodeCommands (syms : List (Symbol P)) : List (Instr P) := syms.map .encSym ++ [.encEnd]

/-- The commands of one `Decode` call; also the expansion of the pseudo-command `DECODE` (R92, R138). -/
def decodeCommands (bs : BitString) : List (Instr P) := bs.map .decBit ++ [.decEnd]

/-- The frames in a history of `enc_out`: the data before each END and its status (R116). `acc` is the data of the open
frame so far. -/
def encFrames (acc : BitString) : List EncItem → List (BitString × Rcode)
  | [] => []
  | .data b :: l => encFrames (acc ++ [b]) l
  | .endFrame st :: l => (acc, st) :: encFrames [] l

/-- The frames in a history of `dec_out` (R138). -/
def decFrames (acc : List (Symbol P)) : List (DecItem P) → List (List (Symbol P) × Rcode)
  | [] => []
  | .data s :: l => decFrames (acc ++ [s]) l
  | .endFrame st :: l => (acc, st) :: decFrames [] l

/-- What a frame is worth to the host: its data if its END carries `OK`, else the failure alone, the data void (R230,
R270). -/
def frameResult {α : Type} (f : List α × Rcode) : Except Rcode (List α) :=
  if f.2 = .ok then .ok f.1 else .error f.2

/-- The results of the frames closed so far on `enc_out`. -/
def encResults (l : List EncItem) : List (Except Rcode BitString) := (encFrames [] l).map frameResult

/-- The results of the frames closed so far on `dec_out`. -/
def decResults (l : List (DecItem P)) : List (Except Rcode (List (Symbol P))) := (decFrames [] l).map frameResult

/-- The command words of the encoder half (R27, R116). -/
def isEncoderWord (w : CmdWord P) : Bool :=
  match decode w with
  | .ok (.encSym _) => true
  | .ok .encEnd => true
  | _ => false

/-- The command words of the decoder half (R27, R138). -/
def isDecoderWord (w : CmdWord P) : Bool :=
  match decode w with
  | .ok (.decBit _) => true
  | .ok .decEnd => true
  | _ => false

end Sys2Proof.Machine
end

