-- ==== Sys2Proof/Safety.lean ====
section
/-! DEFINITION. What counts as a safe state and what a command may leave unchanged, in the terms the statements use. -/

namespace Sys2Proof.Machine

variable {P : Params}

/-- The quiescent state: no failed frame open, the decoder at the root (10_state.md R37). -/
def State.Quiescent (s : State P) : Prop :=
  s.encFault = false ∧ s.decFault = false ∧ s.cursor = s.image.root

/-- What every response's `rdata` is like: bits 7:6 are 0 (R28, R87), and `DEC_FAULT` and `DEC_MID` are not both 1 (R36). -/
def Response.WellFormed (r : Response) : Prop :=
  r.rdata.getLsbD 7 = false ∧ r.rdata.getLsbD 6 = false ∧ ¬ (r.rdata.getLsbD 4 = true ∧ r.rdata.getLsbD 5 = true)

/-- The invariant: R36's three clauses about the cursor, the canonical form of the image, and what the items and responses
sent so far may hold (R88, R90, R28). -/
structure State.Inv (s : State P) : Prop where
  /-- The cursor is at the root or at a reached node that is not a leaf (R36). -/
  cursorPlace : s.cursor = s.image.root ∨ (s.image.Reach s.cursor ∧ s.image.isLeafAt s.cursor = false)
  /-- A failed decoder frame has the cursor at the root (R36). -/
  faultAtRoot : s.decFault = true → s.cursor = s.image.root
  /-- In a single-leaf tree the cursor is at the root (R36). -/
  leafAtRoot : s.image.rootIsLeaf = true → s.cursor = s.image.root
  /-- The spaces are in canonical form. -/
  imageWf : s.image.wf
  /-- The END items of `enc_out` carry `OK` or `UNKNOWN_SYMBOL` (R88). -/
  encEnds : ∀ st, EncItem.endFrame st ∈ s.encOut → st = .ok ∨ st = .unknownSymbol
  /-- The END items of `dec_out` carry `OK` or `MALFORMED_BITSTREAM` (R90). -/
  decEnds : ∀ st, DecItem.endFrame st ∈ s.decOut → st = .ok ∨ st = .malformedBitstream
  /-- Every response sent so far is of the form R28, R36 and R87 give. -/
  respForm : ∀ r ∈ s.resp, r.WellFormed

/-- The encoder half's state and output are unchanged (R27). -/
def SameEncoder (s t : State P) : Prop := t.encFault = s.encFault ∧ t.sUnk = s.sUnk ∧ t.encOut = s.encOut

/-- The decoder half's state and output are unchanged (R27). -/
def SameDecoder (s t : State P) : Prop :=
  t.cursor = s.cursor ∧ t.decFault = s.decFault ∧ t.sMal = s.sMal ∧ t.decOut = s.decOut

/-- The image and the input ports are unchanged: every word of `CODE` and `TREE` reads as before, and `ROOT` (R57, R58). -/
def SameImage (s t : State P) : Prop :=
  (∀ a, t.image.code.read a = s.image.code.read a) ∧ (∀ a, t.image.tree.read a = s.image.tree.read a) ∧
    t.image = s.image ∧ t.cmds = s.cmds ∧ t.rst = s.rst

/-- `n` steps of the machine, stopping at the first that gives no next state. -/
def runFor : Nat → State → Host.Outcome State Fault Refusal
  | 0, s => .next s
  | n + 1, s =>
    match step s with
    | .next t => runFor n t
    | .fault r => .fault r
    | .refused r => .refused r

/-- Run every command the host has given. -/
def runAll (s : State) : Host.Outcome State Fault Refusal := runFor s.cmds.length s

/-- `s` with the words of a sequence of commands given, and no others. -/
def State.given (is : List (Instr P)) (s : State P) : State P := { s with cmds := is.map encode, rst := false }

/-- One response was appended: `(rc, rdata)` (R87). -/
def Responded (s t : State P) (rc : Rcode) (rdata : Byte) : Prop :=
  t.resp = s.resp ++ [{ rcode := rc, rdata := rdata }]

/-- Two images agree on everything the block looks at (R32, R100): all but the words outside `Reach`, the fields of
absent children, the symbols of inner nodes, absent entries and the bits at and above `len`. -/
structure Image.SameMeaning (a b : Image P) : Prop where
  root : a.root = b.root
  nodes : ∀ i, a.Reach i → (a.nodeRead i).lv = (b.nodeRead i).lv ∧ (a.nodeRead i).rv = (b.nodeRead i).rv ∧
    ((a.nodeRead i).lv = true → (a.nodeRead i).left = (b.nodeRead i).left) ∧
    ((a.nodeRead i).rv = true → (a.nodeRead i).right = (b.nodeRead i).right) ∧
    (a.isLeafAt i = true → (a.nodeRead i).symbol = (b.nodeRead i).symbol)
  entries : ∀ s, (a.codeRead s).valid = (b.codeRead s).valid ∧
    ((a.codeRead s).valid = true → (a.codeRead s).len = (b.codeRead s).len ∧
      ∀ k, k < (a.codeRead s).len.toNat → (a.codeRead s).bits.getLsbD k = (b.codeRead s).bits.getLsbD k)

/-- `b` is `a` with its nodes numbered by `f`, another injective numbering of the same tree (R184). -/
structure Image.Renumbered (f : NodeIndex P → NodeIndex P) (a b : Image P) : Prop where
  injective : ∀ i j, a.Reach i → a.Reach j → f i = f j → i = j
  root : b.root = f a.root
  nodes : ∀ i, a.Reach i → (b.nodeRead (f i)).lv = (a.nodeRead i).lv ∧ (b.nodeRead (f i)).rv = (a.nodeRead i).rv ∧
    ((a.nodeRead i).lv = true → (b.nodeRead (f i)).left = f (a.nodeRead i).left) ∧
    ((a.nodeRead i).rv = true → (b.nodeRead (f i)).right = f (a.nodeRead i).right) ∧
    (a.isLeafAt i = true → (b.nodeRead (f i)).symbol = (a.nodeRead i).symbol)
  code : b.code = a.code

/-- A state of the machine with the renumbered image: the cursor alone differs, and no output shows it (R184). -/
def State.renumber (f : NodeIndex P → NodeIndex P) (b : Image P) (s : State P) : State P :=
  { s with image := b, cursor := f s.cursor }

/-- An outcome with its next state changed. -/
def mapNext (g : State P → State P) (o : Host.Outcome (State P) Fault Refusal) :
    Host.Outcome (State P) Fault Refusal :=
  match o with
  | .next t => .next (g t)
  | .fault r => .fault r
  | .refused r => .refused r

/-- A history of `enc_out` with no open frame that holds data: it is empty or its last item is an END. -/
def EncClosed (l : List EncItem) : Prop := l = [] ∨ ∃ l' st, l = l' ++ [.endFrame st]

/-- The same of `dec_out`. -/
def DecClosed (l : List (DecItem P)) : Prop := l = [] ∨ ∃ l' st, l = l' ++ [.endFrame st]

end Sys2Proof.Machine
end

