-- ==== Sys2Proof/Certificates/Slice0/Obligations.lean ====
section
/-! DEFINITION. The statements for the provers. Each docstring names the rule of spec/ it is about. -/

open Sys2Proof Sys2Proof.Machine

/-! ## Reset, the ports and the step -/

/-- R38: what reset leaves, for every image and all parameters. The values of `cmds` and `rst` are the model's and are not
stated. -/
def Obligations.ResetLeavesTheSpecValues : Prop :=
  ∀ (P : Params) (img : Image P), (State.resetWith img).cursor = img.root ∧ (State.resetWith img).encFault = false ∧
    (State.resetWith img).decFault = false ∧ (State.resetWith img).sUnk = false ∧
    (State.resetWith img).sMal = false ∧ (State.resetWith img).sIll = false ∧ (State.resetWith img).image = img ∧
    (State.resetWith img).encOut = [] ∧ (State.resetWith img).decOut = [] ∧ (State.resetWith img).resp = []

/-- R260, R38, R264, U2: a held reset lets nothing happen, its release gives the reset state of the image in place, and an
image is placed while reset is held and at no other time. That the words still to be given stay, and that placing an image
out of reset refuses by name, is the model's choice (assumption 6). -/
def Obligations.HeldResetStopsAndReleaseResets : Prop :=
  (∀ s : State, s.rst = true → step s = .next s ∧
    s.releaseReset = { State.resetWith s.image with cmds := s.cmds } ∧
    ∀ b : BuiltImage, s.placeImage b = .next { s with image := b.image }) ∧
  ∀ (s : State) (b : BuiltImage), s.rst = false → s.placeImage b = .refused .imageChangedOutOfReset

/-- The model's choice (assumption 5): with no command given a step changes nothing. -/
def Obligations.StepWaitsForACommand : Prop := ∀ s : State, s.rst = false → s.cmds = [] → step s = .next s

/-- R60, R83: a step runs the decoded command, with its word taken from the port (that the words given wait in a list of the
state is the model's choice, assumption 5); the same for all parameters (R6 to R8), of which `step` and `exec` are the
default (assumption 1). -/
def Obligations.StepRunsTheDecodedCommand : Prop :=
  (∀ (s : State) (w : CmdWord) (ws : List CmdWord) (i : Instr), s.rst = false → s.cmds = w :: ws →
    decode w = .ok i → step s = exec i { s with cmds := ws }) ∧
  (∀ (P : Params) (s : State P) (w : CmdWord P) (ws : List (CmdWord P)) (i : Instr P), s.rst = false →
    s.cmds = w :: ws → decode w = .ok i → stepIn s = execIn i { s with cmds := ws }) ∧
  (∀ (i : Instr) (s : State), execIn i s = exec i s) ∧ ∀ s : State, stepIn s = step s

/-- The model's own (assumption 5): a word placed by `withFetchWord` is the next one run. -/
def Obligations.PlacedWordRunsNext : Prop :=
  ∀ (s : State) (nbits w : Nat) (i : Instr), decodeTableWord nbits w = some i →
    step (s.withFetchWord nbits w) = exec i { s with rst := false }

/-- R156, R84: an illegal word, whatever the state, raises IllegalCommand and does nothing else: its opcode (`w mod 8`) is
6 or 7, or is 1, 3, 4 or 5 with a non-zero operand, or is 2 with an operand above 1. -/
def Obligations.IllegalWordsOnlySetTheirFlag : Prop :=
  ∀ (s : State) (w : CmdWord) (ws : List CmdWord), s.rst = false → s.cmds = w :: ws →
    (w.toNat % 8 = 6 ∨ w.toNat % 8 = 7 ∨
      (w.toNat % 8 ∈ [1, 3, 4, 5] ∧ w.toNat / 8 ≠ 0) ∨ (w.toNat % 8 = 2 ∧ 1 < w.toNat / 8)) →
    step s = .next { s with cmds := ws, sIll := true, resp := s.resp ++ [{ rcode := .illegalCmd, rdata := 0 }] }

/-! ## Encodings -/

/-- R81, R104: sample words, written bit by bit. -/
def Obligations.SampleWordsDecode : Prop :=
  decode (0b01100001000 : CmdWord) = .ok (.encSym 0x61) ∧ decode (0b00000000001 : CmdWord) = .ok .encEnd ∧
    decode (0b00000001010 : CmdWord) = .ok (.decBit true) ∧ decode (0b00000000010 : CmdWord) = .ok (.decBit false) ∧
    decode (0b00000000011 : CmdWord) = .ok .decEnd ∧ decode (0b00000000100 : CmdWord) = .ok .rdStatus ∧
    decode (0b00000000101 : CmdWord) = .ok .clrStatus ∧
    decode (0b01100001110 : CmdWord) = .ok (.illegalOp6 0x61) ∧
    decode (0b11111111111 : CmdWord) = .ok (.illegalOp7 0xFF)

/-- R80 to R84: decoding and encoding are inverse, for all parameters in the bounds of R6 to R8, every command, every word
and every rejected word: no bit is dropped and no two words mean the same. -/
def Obligations.DecodeAndEncodeAreInverse : Prop :=
  ∀ P : Params, P.wellFormed = true →
    (∀ i : Instr P, decode (encode i) = .ok i) ∧
    (∀ (w : CmdWord P) (i : Instr P), decode w = .ok i → encode i = w) ∧
    ∀ (w : CmdWord P) (op : BitVec 3) (opd : Symbol P), decode w = .error (.strayOperand op opd) →
      w.toNat = op.toNat + 8 * opd.toNat

/-- R83: the decode function, with `op = w[2:0]` and `opd = w[SYM_W+2:3]` as numbers, for all parameters. -/
def Obligations.DecodeFollowsThePseudocode : Prop :=
  ∀ (P : Params) (w : CmdWord P),
    (w.toNat % 8 = 0 → decode w = .ok (.encSym (BitVec.ofNat _ (w.toNat / 8)))) ∧
    (w.toNat % 8 = 1 ∧ w.toNat / 8 = 0 → decode w = .ok .encEnd) ∧
    (w.toNat % 8 = 2 ∧ w.toNat / 16 = 0 → decode w = .ok (.decBit (decide (w.toNat / 8 % 2 = 1)))) ∧
    (w.toNat % 8 = 3 ∧ w.toNat / 8 = 0 → decode w = .ok .decEnd) ∧
    (w.toNat % 8 = 4 ∧ w.toNat / 8 = 0 → decode w = .ok .rdStatus) ∧
    (w.toNat % 8 = 5 ∧ w.toNat / 8 = 0 → decode w = .ok .clrStatus) ∧
    (isIllegal w = true ↔ ¬ (w.toNat % 8 = 0 ∨ (w.toNat % 8 ∈ [1, 3, 4, 5] ∧ w.toNat / 8 = 0) ∨
      (w.toNat % 8 = 2 ∧ w.toNat / 16 = 0)))

/-- R104: a word is the command of a row when `w and mask = match`, and is illegal when it matches no row. -/
def Obligations.MatchAndMaskSelectTheCommand : Prop :=
  ∀ w : CmdWord,
    ((∃ s, decode w = .ok (.encSym s)) ↔ w &&& 0x007 = 0x000) ∧ (decode w = .ok .encEnd ↔ w &&& 0x7FF = 0x001) ∧
    ((∃ b, decode w = .ok (.decBit b)) ↔ w &&& 0x7F7 = 0x002) ∧ (decode w = .ok .decEnd ↔ w &&& 0x7FF = 0x003) ∧
    (decode w = .ok .rdStatus ↔ w &&& 0x7FF = 0x004) ∧ (decode w = .ok .clrStatus ↔ w &&& 0x7FF = 0x005) ∧
    (isIllegal w = true ↔ w &&& 0x007 ≠ 0x000 ∧ w &&& 0x7FF ≠ 0x001 ∧ w &&& 0x7F7 ≠ 0x002 ∧
      w &&& 0x7FF ≠ 0x003 ∧ w &&& 0x7FF ≠ 0x004 ∧ w &&& 0x7FF ≠ 0x005)

/-- R96, R98: the fields of the ROM words, as numbers, and that an image maker's packing is read back, for all
parameters. -/
def Obligations.RomWordsAreReadByTheirLayouts : Prop :=
  ∀ P : Params,
    (∀ w : CodeWord P, (CodeEntry.unpack w).valid = w.getLsbD 0 ∧
      (CodeEntry.unpack w).len.toNat = w.toNat / 2 % 2 ^ P.clenW ∧
      ∀ k, k < P.maxCodeLen → (CodeEntry.unpack w).bits.getLsbD k = w.getLsbD (1 + P.clenW + k)) ∧
    (∀ w : NodeWord P, (Node.unpack w).lv = w.getLsbD 0 ∧
      (Node.unpack w).left.toNat = w.toNat / 2 % 2 ^ P.idxW ∧ (Node.unpack w).rv = w.getLsbD (P.idxW + 1) ∧
      (Node.unpack w).right.toNat = w.toNat / 2 ^ (P.idxW + 2) % 2 ^ P.idxW ∧
      (Node.unpack w).symbol.toNat = w.toNat / 2 ^ (2 * P.idxW + 2)) ∧
    (∀ e : CodeEntry P, CodeEntry.unpack e.pack = e) ∧ (∀ n : Node P, Node.unpack n.pack = n)

/-- R86 to R90: the numbers of the condition codes, the response word and the port words of the stream items. -/
def Obligations.OutputWordsFollowTheirLayouts : Prop :=
  (Rcode.ok.code = 0 ∧ Rcode.unknownSymbol.code = 1 ∧ Rcode.malformedBitstream.code = 2 ∧ Rcode.illegalCmd.code = 3) ∧
  (∀ r : Response, r.word.toNat % 4 = r.rcode.code.toNat ∧ r.word.toNat / 4 = r.rdata.toNat) ∧
  (∀ b : Bool, (EncItem.data b).portWord = (0, BitVec.ofNat 2 b.toNat)) ∧
  (∀ st : Rcode, (EncItem.endFrame st).portWord = (1, st.code)) ∧
  (∀ (P : Params) (s : Symbol P), (DecItem.data s).portWord.1 = 0 ∧ (DecItem.data s).portWord.2.toNat = s.toNat) ∧
  (∀ (P : Params) (st : Rcode), (DecItem.endFrame st : DecItem P).portWord.1 = 1 ∧
    (DecItem.endFrame st : DecItem P).portWord.2.toNat = st.code.toNat)

/-! ## The encoder commands -/

/-- R112: `ENC_SYM s`, for an entry that meets (S1); every field not named is as before. -/
def Obligations.EncSymFollowsItsRule : Prop :=
  ∀ (sym : Symbol) (s : State), (encode (.encSym sym)).toNat = 8 * sym.toNat ∧
    (s.encFault = true → exec (.encSym sym) s =
      .next { s with resp := s.resp ++ [{ rcode := .unknownSymbol, rdata := 0 }] }) ∧
    (s.encFault = false → (s.image.codeRead sym).valid = false → exec (.encSym sym) s =
      .next { s with encFault := true, sUnk := true,
                     resp := s.resp ++ [{ rcode := .unknownSymbol, rdata := 0 }] }) ∧
    (s.encFault = false → (s.image.codeRead sym).valid = true → 1 ≤ (s.image.codeRead sym).len.toNat →
      (s.image.codeRead sym).len.toNat ≤ Config.maxCodeLen → exec (.encSym sym) s =
      .next { s with
        encOut := s.encOut ++ (List.range (s.image.codeRead sym).len.toNat).map
          fun k => EncItem.data ((s.image.codeRead sym).bits.getLsbD k)
        resp := s.resp ++ [{ rcode := .ok, rdata := 0 }] })

/-- R66, R96: the bits `ENC_SYM` sends are the bits of the symbol's `CODE` word from bit 9 upward, in that order. -/
def Obligations.EncSymSendsTheCodeWordBits : Prop :=
  ∀ (sym : Symbol) (s : State), s.encFault = false → (s.image.code.read sym.toNat).getLsbD 0 = true →
    1 ≤ (s.image.code.read sym.toNat).toNat / 2 % 256 → (s.image.code.read sym.toNat).toNat / 2 % 256 ≤ 255 →
    ∃ t, exec (.encSym sym) s = .next t ∧
      t.encOut = s.encOut ++ (List.range ((s.image.code.read sym.toNat).toNat / 2 % 256)).map
        (fun k => EncItem.data ((s.image.code.read sym.toNat).getLsbD (9 + k))) ∧
      Responded s t .ok 0 ∧ t.encFault = false ∧ t.sUnk = s.sUnk ∧ t.sIll = s.sIll ∧ SameDecoder s t ∧ SameImage s t

/-- R224: UnknownSymbol is raised by `ENC_SYM` exactly when the frame has not failed and the entry is absent; its whole
effect. -/
def Obligations.UnknownSymbolIsRaisedExactly : Prop :=
  ∀ (sym : Symbol) (s : State),
    (s.encFault = false ∧ (s.image.codeRead sym).valid = false → exec (.encSym sym) s =
      .next { s with encFault := true, sUnk := true,
                     resp := s.resp ++ [{ rcode := .unknownSymbol, rdata := 0 }] }) ∧
    (∀ t, exec (.encSym sym) s = .next t → ¬ (s.encFault = false ∧ (s.image.codeRead sym).valid = false) →
      t.encFault = s.encFault ∧ t.sUnk = s.sUnk)

/-- U1, R100: `ENC_SYM` stops, by name, exactly for a valid entry whose length is outside 1 to `MAX_CODE_LEN`, looked up in a
frame that has not failed, and has a next state in every other case; the same for all parameters. -/
def Obligations.EncSymStopsOnlyOnBadLength : Prop :=
  (∀ (sym : Symbol) (s : State),
    (exec (.encSym sym) s = .refused .codeEntryUnspecified ↔
      s.encFault = false ∧ (s.image.codeRead sym).valid = true ∧
        ¬ (1 ≤ (s.image.codeRead sym).len.toNat ∧ (s.image.codeRead sym).len.toNat ≤ Config.maxCodeLen)) ∧
    (¬ (s.encFault = false ∧ (s.image.codeRead sym).valid = true ∧
        ¬ (1 ≤ (s.image.codeRead sym).len.toNat ∧ (s.image.codeRead sym).len.toNat ≤ Config.maxCodeLen)) →
      ∃ t, exec (.encSym sym) s = .next t)) ∧
  ∀ (P : Params) (sym : Symbol P) (s : State P),
    (execIn (.encSym sym) s = .refused .codeEntryUnspecified ↔
      s.encFault = false ∧ (s.image.codeRead sym).valid = true ∧
        ¬ (1 ≤ (s.image.codeRead sym).len.toNat ∧ (s.image.codeRead sym).len.toNat ≤ P.maxCodeLen)) ∧
    (¬ (s.encFault = false ∧ (s.image.codeRead sym).valid = true ∧
        ¬ (1 ≤ (s.image.codeRead sym).len.toNat ∧ (s.image.codeRead sym).len.toNat ≤ P.maxCodeLen)) →
      ∃ t, execIn (.encSym sym) s = .next t)

/-- R114: `ENC_END`; every field not named is as before. -/
def Obligations.EncEndFollowsItsRule : Prop :=
  (encode .encEnd : CmdWord) = 0x001 ∧ ∀ s : State,
    (s.encFault = false → exec .encEnd s = .next { s with
      encOut := s.encOut ++ [.endFrame .ok], resp := s.resp ++ [{ rcode := .ok, rdata := 0 }] }) ∧
    (s.encFault = true → exec .encEnd s = .next { s with
      encOut := s.encOut ++ [.endFrame .unknownSymbol], encFault := false
      resp := s.resp ++ [{ rcode := .unknownSymbol, rdata := 0 }] })

/-! ## The decoder commands -/

/-- R132: `DEC_BIT b`, every case of the pseudocode in its order; every field not named is as before. -/
def Obligations.DecBitFollowsItsRule : Prop :=
  (encode (.decBit false) : CmdWord) = 0x002 ∧ (encode (.decBit true) : CmdWord) = 0x00A ∧
  ∀ (b : Bool) (s : State) (r c m : Node) (v : Bool) (t : NodeIndex),
    r = s.image.nodeRead s.image.root → c = s.image.nodeRead s.cursor → v = (if b then c.rv else c.lv) →
    t = (if b then c.right else c.left) → m = s.image.nodeRead t →
    (s.decFault = true → exec (.decBit b) s =
      .next { s with resp := s.resp ++ [{ rcode := .malformedBitstream, rdata := 0 }] }) ∧
    (s.decFault = false → r.lv = false ∧ r.rv = false → exec (.decBit b) s =
      .next { s with decOut := s.decOut ++ [.data r.symbol]
                     resp := s.resp ++ [{ rcode := .ok, rdata := 0 }] }) ∧
    (s.decFault = false → ¬ (r.lv = false ∧ r.rv = false) → v = false → exec (.decBit b) s =
      .next { s with decFault := true, sMal := true, cursor := s.image.root
                     resp := s.resp ++ [{ rcode := .malformedBitstream, rdata := 0 }] }) ∧
    (s.decFault = false → ¬ (r.lv = false ∧ r.rv = false) → v = true → m.lv = false ∧ m.rv = false →
      exec (.decBit b) s = .next { s with
        decOut := s.decOut ++ [.data m.symbol], cursor := s.image.root
        resp := s.resp ++ [{ rcode := .ok, rdata := 0 }] }) ∧
    (s.decFault = false → ¬ (r.lv = false ∧ r.rv = false) → v = true → ¬ (m.lv = false ∧ m.rv = false) →
      exec (.decBit b) s = .next { s with cursor := t, resp := s.resp ++ [{ rcode := .ok, rdata := 0 }] })

/-- R136: `DEC_END`; every field not named is as before. -/
def Obligations.DecEndFollowsItsRule : Prop :=
  (encode .decEnd : CmdWord) = 0x003 ∧ ∀ s : State,
    (s.decFault = true → exec .decEnd s = .next { s with
      decOut := s.decOut ++ [.endFrame .malformedBitstream], decFault := false, cursor := s.image.root
      resp := s.resp ++ [{ rcode := .malformedBitstream, rdata := 0 }] }) ∧
    (s.decFault = false → s.cursor ≠ s.image.root → exec .decEnd s = .next { s with
      decOut := s.decOut ++ [.endFrame .malformedBitstream], sMal := true, cursor := s.image.root
      resp := s.resp ++ [{ rcode := .malformedBitstream, rdata := 0 }] }) ∧
    (s.decFault = false → s.cursor = s.image.root → exec .decEnd s = .next { s with
      decOut := s.decOut ++ [.endFrame .ok], resp := s.resp ++ [{ rcode := .ok, rdata := 0 }] })

/-- R226: MalformedBitstream, both causes: when each is raised, and that nothing else sets its flag. -/
def Obligations.MalformedBitstreamIsRaisedExactly : Prop :=
  (∀ (b : Bool) (s : State), s.decFault = false → s.image.rootIsLeaf = false → s.image.child s.cursor b = none →
    exec (.decBit b) s = .next { s with
      decFault := true, sMal := true, cursor := s.image.root
      resp := s.resp ++ [{ rcode := .malformedBitstream, rdata := 0 }] }) ∧
  (∀ s : State, s.decFault = false → s.cursor ≠ s.image.root →
    exec .decEnd s = .next { s with
      sMal := true, decOut := s.decOut ++ [.endFrame .malformedBitstream], cursor := s.image.root
      resp := s.resp ++ [{ rcode := .malformedBitstream, rdata := 0 }] }) ∧
  (∀ (i : Instr) (s t : State), exec i s = .next t → s.sMal = false → t.sMal = true →
    s.decFault = false ∧ ((∃ b, i = .decBit b ∧ s.image.rootIsLeaf = false ∧ s.image.child s.cursor b = none) ∨
      (i = .decEnd ∧ s.cursor ≠ s.image.root)))

/-! ## The status commands and the reserved opcodes -/

/-- R152, R28: `RD_STATUS` answers `STATUS` of the state before it, bit by bit, and changes nothing. -/
def Obligations.RdStatusAnswersTheStatusView : Prop :=
  (encode .rdStatus : CmdWord) = 0x004 ∧ ∀ s : State, ∃ v : Byte,
    exec .rdStatus s = .next { s with resp := s.resp ++ [{ rcode := .ok, rdata := v }] } ∧
    v.getLsbD 0 = s.sUnk ∧ v.getLsbD 1 = s.sMal ∧ v.getLsbD 2 = s.sIll ∧ v.getLsbD 3 = s.encFault ∧
    v.getLsbD 4 = s.decFault ∧ (v.getLsbD 5 = true ↔ s.cursor ≠ s.image.root) ∧
    v.getLsbD 6 = false ∧ v.getLsbD 7 = false

/-- R154: `CLR_STATUS` clears the three sticky flags and changes nothing else. -/
def Obligations.ClrStatusClearsTheStickyFlags : Prop :=
  (encode .clrStatus : CmdWord) = 0x005 ∧ ∀ s : State, exec .clrStatus s = .next { s with
    sUnk := false, sMal := false, sIll := false, resp := s.resp ++ [{ rcode := .ok, rdata := 0 }] }

/-- R156, R227: both reserved opcodes, with any operand and in any state, raise IllegalCommand and do nothing else. -/
def Obligations.ReservedOpcodesRaiseIllegalCommand : Prop :=
  ∀ (opd : Symbol) (s : State),
    exec (.illegalOp6 opd) s = .next { s with
      sIll := true, resp := s.resp ++ [{ rcode := .illegalCmd, rdata := 0 }] } ∧
    exec (.illegalOp7 opd) s = .next { s with
      sIll := true, resp := s.resp ++ [{ rcode := .illegalCmd, rdata := 0 }] }

/-! ## Frames: what each group of commands leaves unchanged -/

/-- R27, R57: the encoder commands leave the decoder half, the other flags and every word of the image as they were. -/
def Obligations.EncoderCommandsFrame : Prop :=
  ∀ (i : Instr) (s t : State), i.opcode = 0 ∨ i.opcode = 1 → exec i s = .next t →
    SameDecoder s t ∧ t.sIll = s.sIll ∧ SameImage s t ∧ (i = .encEnd → t.sUnk = s.sUnk)

/-- R27, R57: the decoder commands leave the encoder half, the other flags and every word of the image as they were. -/
def Obligations.DecoderCommandsFrame : Prop :=
  ∀ (i : Instr) (s t : State), i.opcode = 2 ∨ i.opcode = 3 → exec i s = .next t →
    SameEncoder s t ∧ t.sIll = s.sIll ∧ SameImage s t

/-- R152 to R156: the status commands and the reserved opcodes leave both streams, both fault bits, the cursor and every
word of the image as they were; `RD_STATUS` leaves the flags, the reserved opcodes all of them but `s_ill`. -/
def Obligations.StatusAndIllegalCommandsFrame : Prop :=
  ∀ (i : Instr) (s t : State), 4 ≤ i.opcode.toNat → exec i s = .next t →
    t.cursor = s.cursor ∧ t.encFault = s.encFault ∧ t.decFault = s.decFault ∧ t.encOut = s.encOut ∧
    t.decOut = s.decOut ∧ SameImage s t ∧ (i ≠ .clrStatus → t.sUnk = s.sUnk ∧ t.sMal = s.sMal) ∧
    (i = .rdStatus → t.sIll = s.sIll)

/-- R57, R58: no step writes `CODE`, `TREE` or `ROOT`. -/
def Obligations.NoStepWritesTheImage : Prop :=
  ∀ s t : State, step s = .next t →
    (∀ a, t.image.code.read a = s.image.code.read a) ∧ (∀ a, t.image.tree.read a = s.image.tree.read a) ∧
    t.image = s.image

/-! ## Rules of the whole machine -/

/-- R36 and the forms of the outputs: every step keeps the invariant, in every state that has it. -/
def Obligations.StepKeepsTheInvariant : Prop := ∀ s t : State, s.Inv → step s = .next t → t.Inv

/-- R38, R36: the invariant holds at reset, for every image in canonical form and for the model's blank one (assumption
4). -/
def Obligations.InvariantHoldsAtReset : Prop :=
  State.reset.Inv ∧ ∀ img : Image, img.wf → (State.resetWith img).Inv

/-- R26: only `CLR_STATUS` clears a sticky flag; the END commands leave the flag of a failed frame as it is. -/
def Obligations.OnlyClrStatusClearsStickyFlags : Prop :=
  ∀ s t : State, step s = .next t →
    (s.cmds.head? ≠ some (encode .clrStatus) →
      (s.sUnk = true → t.sUnk = true) ∧ (s.sMal = true → t.sMal = true) ∧ (s.sIll = true → t.sIll = true)) ∧
    (s.rst = false → s.cmds.head? = some (encode .clrStatus) → t.sUnk = false ∧ t.sMal = false ∧ t.sIll = false) ∧
    (s.cmds.head? = some (encode .encEnd) → t.sUnk = s.sUnk) ∧
    (s.cmds.head? = some (encode .decEnd) → s.decFault = true → t.sMal = s.sMal)

/-- R87: every command gives exactly one response; `rdata` is `STATUS` for `RD_STATUS` and 0 for every other, illegal words
too. -/
def Obligations.EveryCommandAnswersOnce : Prop :=
  ∀ (s t : State) (w : CmdWord) (ws : List CmdWord), s.rst = false → s.cmds = w :: ws → step s = .next t →
    ∃ r : Response, t.resp = s.resp ++ [r] ∧ r.rdata = (if w = encode .rdStatus then s.status else 0) ∧
      r.word.toNat % 4 = r.rcode.code.toNat ∧ r.word.toNat / 4 = r.rdata.toNat

/-- R220, R232: which codes each command can answer with. -/
def Obligations.AnswersByCommand : Prop :=
  ∀ (i : Instr) (s t : State), exec i s = .next t → ∃ r : Response, t.resp = s.resp ++ [r] ∧
    (i.opcode = 0 ∨ i.opcode = 1 → r.rcode = .ok ∨ r.rcode = .unknownSymbol) ∧
    (i.opcode = 2 ∨ i.opcode = 3 → r.rcode = .ok ∨ r.rcode = .malformedBitstream) ∧
    (i.opcode = 4 ∨ i.opcode = 5 → r.rcode = .ok) ∧ (6 ≤ i.opcode.toNat → r.rcode = .illegalCmd)

/-- R29, R61: the three histories only grow, at their ends. -/
def Obligations.HistoriesOnlyGrow : Prop :=
  ∀ s t : State, step s = .next t → s.encOut <+: t.encOut ∧ s.decOut <+: t.decOut ∧ s.resp <+: t.resp

/-- R23: `enc_fault` is 1 from the `ENC_SYM` that raises UnknownSymbol until the `ENC_END`, and the encoder sends no data
meanwhile. -/
def Obligations.EncFaultLastsToTheFrameEnd : Prop :=
  ∀ (i : Instr) (s t : State), exec i s = .next t →
    (t.encFault = true ↔ i ≠ .encEnd ∧
      (s.encFault = true ∨ ∃ sym, i = .encSym sym ∧ (s.image.codeRead sym).valid = false)) ∧
    (s.encFault = true → i ≠ .encEnd → t.encOut = s.encOut)

/-- R24: `dec_fault` is 1 from the `DEC_BIT` that raises MalformedBitstream until the `DEC_END`; meanwhile the decoder
neither moves nor sends data. -/
def Obligations.DecFaultLastsToTheFrameEnd : Prop :=
  ∀ (i : Instr) (s t : State), exec i s = .next t →
    (t.decFault = true ↔ i ≠ .decEnd ∧ (s.decFault = true ∨
      ∃ b, i = .decBit b ∧ s.image.rootIsLeaf = false ∧ s.image.child s.cursor b = none)) ∧
    (s.decFault = true → i ≠ .decEnd → t.decOut = s.decOut ∧ t.cursor = s.cursor)

/-- R22: the cursor only ever takes the value `ROOT` or a child index read from the node it is at, and only by the decoder
commands. -/
def Obligations.CursorTakesRootOrAChild : Prop :=
  ∀ (i : Instr) (s t : State), exec i s = .next t →
    (t.cursor = s.cursor ∨ t.cursor = s.image.root ∨ ∃ b, i = .decBit b ∧ s.image.child s.cursor b = some t.cursor) ∧
    (i.opcode ≠ 2 → i.opcode ≠ 3 → t.cursor = s.cursor) ∧ (i = .decEnd → t.cursor = s.image.root)

/-- R236: for every image with (S1), every state and every command word there is a next state, one response and a bounded
number of items. -/
def Obligations.EveryWordCompletesUnderS1 : Prop :=
  ∀ (s : State) (w : CmdWord) (ws : List CmdWord), s.image.LenInRange → s.rst = false → s.cmds = w :: ws →
    ∃ (t : State) (r : Response) (es : List EncItem) (ds : List DecItem), step s = .next t ∧ t.cmds = ws ∧
      t.resp = s.resp ++ [r] ∧ t.encOut = s.encOut ++ es ∧ t.decOut = s.decOut ++ ds ∧
      (w.toNat % 8 = 0 → es.length ≤ Config.maxCodeLen ∧ ds = []) ∧
      (w.toNat % 8 ≠ 0 → es.length + ds.length ≤ 1)

/-- R37: from a quiescent state, commands that close every frame they open lead to a quiescent state: the last encoder
command, if there is one, is `ENC_END`, and the last decoder command `DEC_END`. -/
def Obligations.CleanEndIsQuiescent : Prop :=
  ∀ s t : State, s.Quiescent → s.rst = false →
    (∀ w, (s.cmds.filter isEncoderWord).getLast? = some w → w = encode .encEnd) →
    (∀ w, (s.cmds.filter isDecoderWord).getLast? = some w → w = encode .decEnd) →
    runAll s = .next t → t.Quiescent

/-! ## The two halves -/

/-- R27: interleaved commands, status commands and illegal words among them, give each half what its own commands alone
would give it. -/
def Obligations.InterleavingDoesNotMatter : Prop :=
  ∀ s t : State, s.rst = false → runAll s = .next t →
    (∃ u, runAll { s with cmds := s.cmds.filter isEncoderWord } = .next u ∧
      u.encOut = t.encOut ∧ u.encFault = t.encFault) ∧
    (∃ u, runAll { s with cmds := s.cmds.filter isDecoderWord } = .next u ∧
      u.decOut = t.decOut ∧ u.decFault = t.decFault ∧ u.cursor = t.cursor)

/-- R27: the encoder commands read only `enc_fault` and `CODE`: in two states that agree on these they send the same items,
answer the same and leave the same fault bit. -/
def Obligations.EncoderReadsOnlyItsHalf : Prop :=
  ∀ (i : Instr) (s s' t : State), i.opcode = 0 ∨ i.opcode = 1 → s'.encFault = s.encFault →
    s'.image.code = s.image.code → exec i s = .next t → ∃ t' r items, exec i s' = .next t' ∧
      t.encOut = s.encOut ++ items ∧ t'.encOut = s'.encOut ++ items ∧ t.resp = s.resp ++ [r] ∧
      t'.resp = s'.resp ++ [r] ∧ t'.encFault = t.encFault

/-- R27: the decoder commands read only `cursor`, `dec_fault`, `TREE` and `ROOT`. -/
def Obligations.DecoderReadsOnlyItsHalf : Prop :=
  ∀ (i : Instr) (s s' t : State), i.opcode = 2 ∨ i.opcode = 3 → s'.decFault = s.decFault → s'.cursor = s.cursor →
    s'.image.tree = s.image.tree → s'.image.root = s.image.root → exec i s = .next t →
    ∃ t' r items, exec i s' = .next t' ∧ t.decOut = s.decOut ++ items ∧ t'.decOut = s'.decOut ++ items ∧
      t.resp = s.resp ++ [r] ∧ t'.resp = s'.resp ++ [r] ∧ t'.decFault = t.decFault ∧ t'.cursor = t.cursor

/-! ## What of the image matters -/

/-- R32, R100: two images that differ only in what the block ignores give the same outcome of every command. -/
def Obligations.IgnoredBitsDoNotMatter : Prop :=
  ∀ (a b : Image) (i : Instr) (s : State), a.SameMeaning b → s.image = a → s.Inv →
    exec i { s with image := b } = mapNext (fun t => { t with image := b }) (exec i s)

/-- R184: the numbering of the nodes matters to no output, only to the cursor itself. -/
def Obligations.NodeNumberingDoesNotMatter : Prop :=
  ∀ (f : NodeIndex → NodeIndex) (a b : Image) (i : Instr) (s : State), a.Renumbered f b → s.image = a → s.Inv →
    exec i (s.renumber f b) = mapNext (State.renumber f b) (exec i s)

/-- R134: with a strict tree no `DEC_BIT` meets an absent child. -/
def Obligations.StrictTreesHaveNoAbsentChild : Prop :=
  ∀ (b : Bool) (s : State), s.image.WfTreeStrict → s.Inv →
    ∃ t, exec (.decBit b) s = .next t ∧ t.decFault = s.decFault ∧ t.sMal = s.sMal ∧
      (s.decFault = false → Responded s t .ok 0)

/-- R144: with a strict tree whose root is no leaf every bit string is whole codes `ps` followed by a proper prefix `q` of one:
`q ++ r` is a code, and `r` is not empty. For all parameters. -/
def Obligations.EveryBitStringIsCodesAndAPrefix : Prop :=
  ∀ (P : Params) (img : Image P) (bs : BitString), img.WfTreeStrict → img.rootIsLeaf = false →
    ∃ (ps : List BitString) (q r : BitString), bs = ps.flatten ++ q ∧
      (∀ p ∈ ps, ∃ i, img.walk img.root p = some i ∧ img.isLeafAt i = true) ∧
      (∃ j, img.walk img.root q = some j ∧ img.isLeafAt j = false) ∧
      r ≠ [] ∧ ∃ k, img.walk img.root (q ++ r) = some k ∧ img.isLeafAt k = true

/-! ## Frames against the frame functions -/

/-- R118: an encoder frame run on the machine is `EncodeFrame`. -/
def Obligations.EncoderFrameStreams : Prop :=
  ∀ (s : State) (syms : List Symbol), s.encFault = false → s.image.LenInRange →
    ∃ t, runAll (s.given (encodeCommands syms)) = .next t ∧ t.encFault = false ∧ SameDecoder s t ∧
      t.sIll = s.sIll ∧ t.image = s.image ∧ t.cmds = [] ∧
      (∀ bs, s.image.encodeFrame syms = .ok bs →
        t.encOut = s.encOut ++ bs.map .data ++ [.endFrame .ok] ∧ t.sUnk = s.sUnk ∧
        t.resp = s.resp ++ List.replicate (syms.length + 1) { rcode := .ok, rdata := 0 }) ∧
      (∀ e, s.image.encodeFrame syms = .error e → e = .unknownSymbol ∧ t.sUnk = true ∧
        ∃ (pre post : List Symbol) (x : Symbol), syms = pre ++ x :: post ∧ s.image.codeOf x = none ∧
          (∀ y ∈ pre, s.image.codeOf y ≠ none) ∧
          t.encOut = s.encOut ++ ((pre.filterMap s.image.codeOf).flatten).map .data ++ [.endFrame .unknownSymbol] ∧
          t.resp = s.resp ++ List.replicate pre.length { rcode := .ok, rdata := 0 } ++
            List.replicate (post.length + 2) { rcode := .unknownSymbol, rdata := 0 })

/-- R140: a decoder frame run on the machine is `DecodeFrame`. -/
def Obligations.DecoderFrameStreams : Prop :=
  ∀ (s : State) (bs : BitString), s.decFault = false → s.cursor = s.image.root →
    ∃ t, runAll (s.given (decodeCommands bs)) = .next t ∧ t.decFault = false ∧ t.cursor = s.image.root ∧
      SameEncoder s t ∧ t.sIll = s.sIll ∧ t.image = s.image ∧ t.cmds = [] ∧
      (∀ out, s.image.decodeFrame bs = .ok out →
        t.decOut = s.decOut ++ out.map .data ++ [.endFrame .ok] ∧ t.sMal = s.sMal ∧
        t.resp = s.resp ++ List.replicate (bs.length + 1) { rcode := .ok, rdata := 0 }) ∧
      (∀ e, s.image.decodeFrame bs = .error e → e = .malformedBitstream ∧ t.sMal = true ∧
        t.decOut = s.decOut ++ (s.image.decodedBefore s.image.root bs).map .data ++ [.endFrame .malformedBitstream] ∧
        t.resp = s.resp ++
          List.replicate (s.image.movesBefore s.image.root bs) { rcode := .ok, rdata := 0 } ++
          List.replicate (bs.length + 1 - s.image.movesBefore s.image.root bs)
            { rcode := .malformedBitstream, rdata := 0 })

/-- R116, R138, R230: what the host reads from the histories, voiding the data of failed frames, is the frame functions'
result, one more for each frame. -/
def Obligations.HistoriesHoldTheFrameResults : Prop :=
  (∀ (s : State) (syms : List Symbol), s.encFault = false → s.image.LenInRange → EncClosed s.encOut →
    ∃ t, runAll (s.given (encodeCommands syms)) = .next t ∧
      encResults t.encOut = encResults s.encOut ++ [s.image.encodeFrame syms]) ∧
  (∀ (s : State) (bs : BitString), s.decFault = false → s.cursor = s.image.root → DecClosed s.decOut →
    ∃ t, runAll (s.given (decodeCommands bs)) = .next t ∧
      decResults t.decOut = decResults s.decOut ++ [s.image.decodeFrame bs])

/-- R178: the round trip of the frame functions, for all parameters. -/
def Obligations.DecodeInvertsEncode : Prop :=
  ∀ (P : Params) (img : Image P) (syms : List (Symbol P)), img.WfTree → img.Consistent → img.LenInRange →
    (∀ x ∈ syms, img.LeafSymbol x) →
    ∃ bs, img.encodeFrame syms = .ok bs ∧ img.decodeFrame bs = .ok syms

/-- R178, whole: the round trip of the frame functions, and of the machine from the reset state, every response `OK` and no
flag set. -/
def Obligations.MachineRoundTrip : Prop :=
  ∀ (img : Image) (syms : List Symbol), img.WfTree → img.Consistent → img.LenInRange →
    (∀ x ∈ syms, img.LeafSymbol x) →
    ∃ (bs : BitString) (t u : State), img.encodeFrame syms = .ok bs ∧ img.decodeFrame bs = .ok syms ∧
      runAll ((State.resetWith img).given (encodeCommands syms)) = .next t ∧
      t.encOut = bs.map .data ++ [.endFrame .ok] ∧
      runAll ((State.resetWith img).given (decodeCommands bs)) = .next u ∧
      u.decOut = syms.map .data ++ [.endFrame .ok] ∧
      (∀ r ∈ t.resp ++ u.resp, r.rcode = .ok) ∧ t.status = 0 ∧ u.status = 0

/-- R120: the length of an encoded frame, for all parameters. -/
def Obligations.EncodedLengthIsTheSum : Prop :=
  ∀ (P : Params) (img : Image P) (syms : List (Symbol P)) (bs : BitString), img.encodeFrame syms = .ok bs →
    bs.length = (syms.map fun x => ((img.codeOf x).getD []).length).sum ∧
    (img.LenInRange → syms.length ≤ bs.length ∧ bs.length ≤ P.maxCodeLen * syms.length) ∧
    (img.Consistent → img.rootIsLeaf = true → bs.length = syms.length)

/-- R142: the length of a decoded frame; in the general case the bits are the paths of the emitted leaves. For all
parameters. -/
def Obligations.DecodedBitsAreTheLeafPaths : Prop :=
  ∀ (P : Params) (img : Image P) (bs : BitString) (out : List (Symbol P)), img.WfTree → img.decodeFrame bs = .ok out →
    (img.rootIsLeaf = true → out.length = bs.length) ∧
    (img.rootIsLeaf = false → out.length ≤ bs.length ∧ ∃ ps : List BitString, bs = ps.flatten ∧
      List.Forall₂ (fun p x => ∃ j, img.walk img.root p = some j ∧ img.isLeafAt j = true ∧
        (img.nodeRead j).symbol = x) ps out)

/-! ## The generated code table and the built tree (offline reference) -/

/-- R176: what `Generate` guarantees for a well-formed tree: a code for exactly the leaf symbols, one each, none empty, none
a prefix of another's. For all parameters. -/
def Obligations.GeneratedCodesArePrefixFree : Prop :=
  ∀ (P : Params) (img : Image P), img.WfTree →
    (∀ x, (∃ p, img.Generates x p) ↔ img.LeafSymbol x) ∧
    (∀ x p q, img.Generates x p → img.Generates x q → p = q) ∧ (∀ x p, img.Generates x p → p ≠ []) ∧
    (∀ x y p q, x ≠ y → img.Generates x p → img.Generates y q → ¬ p <+: q)

/-- R168, R170, R172: the traversal records exactly the paths of the leaves, for all parameters. -/
def Obligations.GenerateRecordsTheLeafPaths : Prop :=
  ∀ (P : Params) (img : Image P), img.WfTree → ∀ x p, (x, p) ∈ img.generate ↔ img.Generates x p

/-- R41: each Boolean check decides its predicate, for every image in canonical form, that of `CONSISTENT` for one with
`WF_TREE`; and an image is built exactly when it is in canonical form and meets (S1) and every predicate asked for. That
an image maker runs the checks in `build`, that of the canonical form among them, is the model's choice (assumptions 12 and
3). For all parameters. -/
def Obligations.ChecksDecideThePredicates : Prop :=
  ∀ P : Params,
    (∀ img : Image P, img.wf →
      (img.checkTree = true ↔ img.WfTree) ∧ (img.checkTreeStrict = true ↔ img.WfTreeStrict) ∧
      (img.checkLen = true ↔ img.LenInRange) ∧ (img.checkCode = true ↔ img.WfCode) ∧
      (img.checkStruct = true ↔ img.WfStruct) ∧
      (img.WfTree → (img.checkConsistent = true ↔ img.Consistent))) ∧
    ∀ (needs : List ImagePredicate) (img : Image P),
      (∃ b, img.build needs = .ok b ∧ b.image = img) ↔ img.wf ∧ img.LenInRange ∧ ∀ p ∈ needs, img.Meets p

/-- R174, R184, R176, R168: writing the generated table into a tree's image makes it consistent, with a prefix-free code, as
long as every code fits an entry, and when one does not fit, no `CODE` space makes the tree consistent; writing a tree,
one-child nodes included, whose numbers are distinct indices and whose leaves carry distinct symbols gives each node's word at
its number, every other word 0, and a tree with `WF_TREE`, of which the whole image passes every check; and a tree is made
into an image exactly when its numbers, its symbols and its code lengths allow it (and it is strict, if that is asked for).
That the image maker refuses every other tree, whatever predicates are asked for, is the model's choice (assumption 12). For
all parameters. -/
def Obligations.WrittenTablesAreConsistent : Prop :=
  ∀ P : Params,
    (∀ img : Image P, img.WfTree → img.CodesFit →
      (img.withCodeTable img.generate).Consistent ∧ (img.withCodeTable img.generate).WfCode ∧
      (img.withCodeTable img.generate).tree = img.tree ∧ (img.withCodeTable img.generate).root = img.root) ∧
    (∀ (img : Image P) (code : Memory P.codeW), img.WfTree → (∃ e ∈ img.generate, P.maxCodeLen < e.2.length) →
      ¬ { img with code := code }.Consistent) ∧
    (∀ t : RomTree P, t.Numbered → t.symbols.Nodup →
      (∀ u ∈ t.subtrees, t.image.nodeRead (BitVec.ofNat _ u.num) = u.record) ∧
      (∀ a, (∀ u ∈ t.subtrees, u.num ≠ a) → t.image.tree.read a = 0) ∧ t.image.root.toNat = t.num ∧
      t.image.WfTree ∧ (t.image.WfTreeStrict ↔ t.isStrict = true) ∧
      (∀ x, t.image.LeafSymbol x ↔ x ∈ t.symbols) ∧
      (t.image.CodesFit →
        ∃ b, t.make [.struct, .tree, .code, .consistent] = .ok b ∧ b.image = t.imageWithCodes ∧
          b.image.WfStruct ∧ b.image.WfTree ∧ b.image.WfCode ∧ b.image.Consistent)) ∧
    ∀ (t : RomTree P) (needs : List ImagePredicate), (∃ b, t.make needs = .ok b ∧ b.image = t.imageWithCodes) ↔
      t.Numbered ∧ t.symbols.Nodup ∧ (∀ e ∈ t.image.generate, e.2.length ≤ P.maxCodeLen) ∧
        (.treeStrict ∈ needs → t.isStrict = true)

/-- R186, R187, R212: the frequency map counts every symbol that occurs and no other, in order of first occurrence; and a
table of counts is a map exactly when its keys are unique and its counts positive. For all parameters. -/
def Obligations.FrequenciesAreCounts : Prop :=
  ∀ P : Params,
    (∀ syms : List (Symbol P), ((analyzeFrequencies syms).entries.map Prod.fst).Nodup ∧
      ∀ x n, (x, n) ∈ (analyzeFrequencies syms).entries ↔ n = syms.count x ∧ 0 < n) ∧
    (∀ (syms : List (Symbol P)) (x : Symbol P), (analyzeFrequencies (syms ++ [x])).entries.map Prod.fst =
      if x ∈ syms then (analyzeFrequencies syms).entries.map Prod.fst
      else (analyzeFrequencies syms).entries.map Prod.fst ++ [x]) ∧
    ∀ l : List (Symbol P × Nat), (∃ fm, FrequencyMap.ofList l = some fm ∧ fm.entries = l) ↔
      (l.map Prod.fst).Nodup ∧ ∀ e ∈ l, 0 < e.2

/-- R202, R203, R204, R206, R210: what `Build` gives: EmptyAlphabet for the empty map, the leaf itself for one entry, and
otherwise a tree with one leaf for each of the `n` entries, numbered in the map's order, and `n - 1` internal nodes, in which
every internal node's frequency is the sum of its children's, with the numbers after the leaves' for the internal nodes and
the last number for the root. Where the `2n - 1` numbers fit `IDX_W` its image has `WF_TREE_STRICT`, and so has every image
made of counts, which predicates are checked of it being the model's choice (assumption 12). For all parameters. -/
def Obligations.BuiltTreesHoldTheCounts : Prop :=
  ∀ P : Params,
    (∀ fm : FrequencyMap P, fm.entries = [] → buildTree fm = .error .emptyAlphabet) ∧
    (∀ (fm : FrequencyMap P) (s : Symbol P) (f : Nat), fm.entries = [(s, f)] → buildTree fm = .ok (.leaf 0 s f)) ∧
    (∀ fm : FrequencyMap P, fm.entries ≠ [] → ∃ t, buildTree fm = .ok t ∧
      t.leaves.Perm (leavesFrom 0 fm.entries) ∧ t.leaves.length = fm.entries.length ∧ t.sumsHold = true ∧
      t.innerNums.Perm (List.range' fm.entries.length (fm.entries.length - 1)) ∧ t.num = 2 * fm.entries.length - 2 ∧
      (2 * fm.entries.length - 1 ≤ 2 ^ P.idxW → t.rom.image.WfTreeStrict ∧
        ∀ x, t.rom.image.LeafSymbol x ↔ ∃ n, (x, n) ∈ fm.entries)) ∧
    (∀ (fm : FrequencyMap P) (b : BuiltImage P), imageOfCounts fm = .ok b →
      b.image.WfStruct ∧ b.image.WfTreeStrict ∧ b.image.WfCode ∧ b.image.Consistent) ∧
    ∀ (syms : List (Symbol P)) (t : HuffTree P), buildTree (analyzeFrequencies syms) = .ok t →
      t.freq = syms.length ∧ t.leaves.length = syms.dedup.length

/-- R188, R192, R193, R194, R197: over any strict weak ordering, `Add` and `Remove` keep the heap order, `Add` adds the item
or, on a full queue, does nothing, `Remove` drops the first element, and `Front` is a minimum or fails with EmptyQueue. -/
def Obligations.HeapKeepsItsOrder : Prop :=
  ∀ (α : Type) (lt : α → α → Bool) (q : Heap α) (x : α), (∀ a b, lt a b = true → lt b a = false) →
    (∀ a b c, lt b a = false → lt c b = false → lt c a = false) → Heap.Ordered lt q.items →
    q.size ≤ q.capacity →
    Heap.Ordered lt (q.add lt x).items ∧ Heap.Ordered lt (q.remove lt).items ∧
    (q.size = q.capacity → q.add lt x = q) ∧ (q.size < q.capacity → (q.add lt x).items.Perm (x :: q.items)) ∧
    (q.remove lt).items.Perm q.items.tail ∧ (q.isEmpty = true → q.front = .error .emptyQueue) ∧
    (∀ m, q.front = .ok m → ∀ y ∈ q.items, lt y m = false) ∧ (q.isEmpty = false → ∃ m, q.front = .ok m)

/-- R191, R196: `Construct(items)` gives a heap of exactly the items, and `HeapSort` the items in non-decreasing order. -/
def Obligations.HeapSortSorts : Prop :=
  ∀ (α : Type) (lt : α → α → Bool) (l : List α), (∀ a b, lt a b = true → lt b a = false) →
    (∀ a b c, lt b a = false → lt c b = false → lt c a = false) →
    Heap.Ordered lt (Heap.ofItems lt l).items ∧ (Heap.ofItems lt l).items.Perm l ∧
    (Heap.ofItems lt l).capacity = l.length ∧
    (heapSort lt l).Perm l ∧ (heapSort lt l).Pairwise fun a b => lt b a = false
end

