-- ==== Sys2Proof/Laws/Config.lean ====
section
/-! SUPPORT. The widths as numerals, for arithmetic. -/

namespace Sys2Proof

theorem Config.symW_eq : Config.symW = 8 := rfl
theorem Config.idxW_eq : Config.idxW = 9 := rfl
theorem Config.maxCodeLen_eq : Config.maxCodeLen = 255 := rfl
theorem Config.clenW_eq : Config.clenW = 8 := by decide
theorem Config.cmdW_eq : Config.cmdW = 11 := rfl
theorem Config.nodeW_eq : Config.nodeW = 28 := rfl
theorem Config.codeW_eq : Config.codeW = 264 := by decide

end Sys2Proof
end

