-- ==== Sys2Proof/Laws/Memory.lean ====
section
/-! SUPPORT. The laws of a memory space: a read after a write, and the canonical form. -/

namespace Sys2Proof.Machine

@[simp] theorem Memory.read_nil {w : Nat} (a : Nat) : Memory.read ([] : Memory w) a = Memory.blank w := rfl

@[simp] theorem Memory.read_cons {w : Nat} (k : Nat) (v : BitVec w) (m : Memory w) (a : Nat) :
    Memory.read ((k, v) :: m) a = if k = a then v else Memory.read m a := rfl

/-- An address below every cell reads as blank. -/
theorem Memory.read_below {w : Nat} {m : Memory w} {a : Nat} (h : ∀ c ∈ m, a < c.1) :
    m.read a = Memory.blank w := by
  induction m with
  | nil => rfl
  | cons c m ih =>
    obtain ⟨k, v⟩ := c
    have hk : a < k := h (k, v) (by simp)
    have : ¬ k = a := by omega
    simp only [Memory.read_cons, if_neg this]
    exact ih fun c hc => h c (by simp [hc])

/-- A read after a write to a space in canonical form: the written word there, every other word as before. -/
theorem Memory.read_write {w size : Nat} {m : Memory w} (hm : m.wf size) (a : Nat) (v : BitVec w) (b : Nat) :
    (m.write a v).read b = if a = b then v else m.read b := by
  induction m with
  | nil =>
    simp only [Memory.write]
    split
    · next h => simp [h]
    · simp
  | cons c m ih =>
    obtain ⟨k, x⟩ := c
    obtain ⟨hp, hc⟩ := hm
    rw [List.pairwise_cons] at hp
    have hm' : Memory.wf size m := ⟨hp.2, fun c h => hc c (by simp [h])⟩
    have below : ∀ c ∈ m, k < c.1 := fun c h => hp.1 c h
    simp only [Memory.write]
    split
    · next hak =>
      split
      · next hv =>
        by_cases hab : a = b
        · subst hab
          have : ¬ k = a := by omega
          rw [if_pos rfl, Memory.read_cons, if_neg this, hv]
          exact Memory.read_below fun c h => Nat.lt_trans hak (below c h)
        · rw [if_neg hab]
      · simp
    · next hak =>
      split
      · next hek =>
        subst hek
        split
        · next hv =>
          by_cases hab : a = b
          · subst hab
            rw [if_pos rfl, hv]
            exact Memory.read_below below
          · rw [if_neg hab, Memory.read_cons, if_neg hab]
        · by_cases hab : a = b <;> simp [hab]
      · next hek =>
        rw [Memory.read_cons, Memory.read_cons, ih hm']
        by_cases hkb : k = b
        · have : ¬ a = b := by omega
          simp [hkb, this]
        · simp [hkb]

/-- Every cell after a write is the written one or was there before. -/
theorem Memory.mem_write {w : Nat} {m : Memory w} {a : Nat} {v : BitVec w} {c : Nat × BitVec w}
    (h : c ∈ m.write a v) : (c = (a, v) ∧ v ≠ Memory.blank w) ∨ c ∈ m := by
  induction m with
  | nil =>
    simp only [Memory.write] at h
    split at h
    · simp at h
    · next hv => exact .inl ⟨by simpa using h, hv⟩
  | cons d m ih =>
    obtain ⟨k, x⟩ := d
    simp only [Memory.write] at h
    split at h
    · split at h
      · exact .inr h
      · next hv =>
        rcases List.mem_cons.1 h with h | h
        · exact .inl ⟨h, hv⟩
        · exact .inr h
    · split at h
      · split at h
        · exact .inr (List.mem_cons_of_mem _ h)
        · next hv =>
          rcases List.mem_cons.1 h with h | h
          · exact .inl ⟨h, hv⟩
          · exact .inr (List.mem_cons_of_mem _ h)
      · rcases List.mem_cons.1 h with h | h
        · exact .inr (by simp [h])
        · rcases ih h with h | h
          · exact .inl h
          · exact .inr (List.mem_cons_of_mem _ h)

/-- A write inside the space keeps the canonical form. -/
theorem Memory.wf_write {w size : Nat} {m : Memory w} (hm : m.wf size) {a : Nat} (ha : a < size) (v : BitVec w) :
    (m.write a v).wf size := by
  refine ⟨?_, fun c h => ?_⟩
  · induction m with
    | nil => simp only [Memory.write]; split <;> simp
    | cons d m ih =>
      obtain ⟨k, x⟩ := d
      obtain ⟨hp, hc⟩ := hm
      have hp' := List.pairwise_cons.1 hp
      have hm' : Memory.wf size m := ⟨hp'.2, fun c h => hc c (by simp [h])⟩
      simp only [Memory.write]
      split
      · next hak =>
        split
        · exact hp
        · refine List.pairwise_cons.2 ⟨fun c h => ?_, hp⟩
          rcases List.mem_cons.1 h with h | h
          · simpa [h] using hak
          · exact Nat.lt_trans hak (hp'.1 c h)
      · next hak =>
        split
        · next hek =>
          subst hek
          split
          · exact hp'.2
          · exact List.pairwise_cons.2 ⟨hp'.1, hp'.2⟩
        · next hek =>
          refine List.pairwise_cons.2 ⟨fun c h => ?_, ih hm'⟩
          rcases Memory.mem_write h with ⟨h, -⟩ | h
          · simp only [h]; omega
          · exact hp'.1 c h
  · rcases Memory.mem_write h with ⟨h, hv⟩ | h
    · exact ⟨by simpa [h] using ha, by simpa [h] using hv⟩
    · exact hm.2 c h

/-- The empty space is in canonical form. -/
theorem Memory.wf_nil {w size : Nat} : Memory.wf (w := w) size [] := by simp [Memory.wf]

end Sys2Proof.Machine
end

