-- ==== Sys2Proof/Laws/State.lean ====
section
/-! SUPPORT. One lemma per field per update of the state, so that no proof unfolds a record update. -/

namespace Sys2Proof.Machine

variable {P : Params}

/-! ### `respond` -/

@[simp] theorem State.respond_cursor (rc : Rcode) (rdata : Byte) (s : State P) : (State.respond rc rdata s).cursor = s.cursor := rfl
@[simp] theorem State.respond_encFault (rc : Rcode) (rdata : Byte) (s : State P) : (State.respond rc rdata s).encFault = s.encFault := rfl
@[simp] theorem State.respond_decFault (rc : Rcode) (rdata : Byte) (s : State P) : (State.respond rc rdata s).decFault = s.decFault := rfl
@[simp] theorem State.respond_sUnk (rc : Rcode) (rdata : Byte) (s : State P) : (State.respond rc rdata s).sUnk = s.sUnk := rfl
@[simp] theorem State.respond_sMal (rc : Rcode) (rdata : Byte) (s : State P) : (State.respond rc rdata s).sMal = s.sMal := rfl
@[simp] theorem State.respond_sIll (rc : Rcode) (rdata : Byte) (s : State P) : (State.respond rc rdata s).sIll = s.sIll := rfl
@[simp] theorem State.respond_encOut (rc : Rcode) (rdata : Byte) (s : State P) : (State.respond rc rdata s).encOut = s.encOut := rfl
@[simp] theorem State.respond_decOut (rc : Rcode) (rdata : Byte) (s : State P) : (State.respond rc rdata s).decOut = s.decOut := rfl
@[simp] theorem State.respond_resp (rc : Rcode) (rdata : Byte) (s : State P) : (State.respond rc rdata s).resp = s.resp ++ [{ rcode := rc, rdata := rdata }] := rfl
@[simp] theorem State.respond_image (rc : Rcode) (rdata : Byte) (s : State P) : (State.respond rc rdata s).image = s.image := rfl
@[simp] theorem State.respond_cmds (rc : Rcode) (rdata : Byte) (s : State P) : (State.respond rc rdata s).cmds = s.cmds := rfl
@[simp] theorem State.respond_rst (rc : Rcode) (rdata : Byte) (s : State P) : (State.respond rc rdata s).rst = s.rst := rfl

/-! ### `emitEnc` -/

@[simp] theorem State.emitEnc_cursor (items : List EncItem) (s : State P) : (State.emitEnc items s).cursor = s.cursor := rfl
@[simp] theorem State.emitEnc_encFault (items : List EncItem) (s : State P) : (State.emitEnc items s).encFault = s.encFault := rfl
@[simp] theorem State.emitEnc_decFault (items : List EncItem) (s : State P) : (State.emitEnc items s).decFault = s.decFault := rfl
@[simp] theorem State.emitEnc_sUnk (items : List EncItem) (s : State P) : (State.emitEnc items s).sUnk = s.sUnk := rfl
@[simp] theorem State.emitEnc_sMal (items : List EncItem) (s : State P) : (State.emitEnc items s).sMal = s.sMal := rfl
@[simp] theorem State.emitEnc_sIll (items : List EncItem) (s : State P) : (State.emitEnc items s).sIll = s.sIll := rfl
@[simp] theorem State.emitEnc_encOut (items : List EncItem) (s : State P) : (State.emitEnc items s).encOut = s.encOut ++ items := rfl
@[simp] theorem State.emitEnc_decOut (items : List EncItem) (s : State P) : (State.emitEnc items s).decOut = s.decOut := rfl
@[simp] theorem State.emitEnc_resp (items : List EncItem) (s : State P) : (State.emitEnc items s).resp = s.resp := rfl
@[simp] theorem State.emitEnc_image (items : List EncItem) (s : State P) : (State.emitEnc items s).image = s.image := rfl
@[simp] theorem State.emitEnc_cmds (items : List EncItem) (s : State P) : (State.emitEnc items s).cmds = s.cmds := rfl
@[simp] theorem State.emitEnc_rst (items : List EncItem) (s : State P) : (State.emitEnc items s).rst = s.rst := rfl

/-! ### `emitDec` -/

@[simp] theorem State.emitDec_cursor (item : DecItem P) (s : State P) : (State.emitDec item s).cursor = s.cursor := rfl
@[simp] theorem State.emitDec_encFault (item : DecItem P) (s : State P) : (State.emitDec item s).encFault = s.encFault := rfl
@[simp] theorem State.emitDec_decFault (item : DecItem P) (s : State P) : (State.emitDec item s).decFault = s.decFault := rfl
@[simp] theorem State.emitDec_sUnk (item : DecItem P) (s : State P) : (State.emitDec item s).sUnk = s.sUnk := rfl
@[simp] theorem State.emitDec_sMal (item : DecItem P) (s : State P) : (State.emitDec item s).sMal = s.sMal := rfl
@[simp] theorem State.emitDec_sIll (item : DecItem P) (s : State P) : (State.emitDec item s).sIll = s.sIll := rfl
@[simp] theorem State.emitDec_encOut (item : DecItem P) (s : State P) : (State.emitDec item s).encOut = s.encOut := rfl
@[simp] theorem State.emitDec_decOut (item : DecItem P) (s : State P) : (State.emitDec item s).decOut = s.decOut ++ [item] := rfl
@[simp] theorem State.emitDec_resp (item : DecItem P) (s : State P) : (State.emitDec item s).resp = s.resp := rfl
@[simp] theorem State.emitDec_image (item : DecItem P) (s : State P) : (State.emitDec item s).image = s.image := rfl
@[simp] theorem State.emitDec_cmds (item : DecItem P) (s : State P) : (State.emitDec item s).cmds = s.cmds := rfl
@[simp] theorem State.emitDec_rst (item : DecItem P) (s : State P) : (State.emitDec item s).rst = s.rst := rfl

/-! ### `moveCursor` -/

@[simp] theorem State.moveCursor_cursor (i : NodeIndex P) (s : State P) : (State.moveCursor i s).cursor = i := rfl
@[simp] theorem State.moveCursor_encFault (i : NodeIndex P) (s : State P) : (State.moveCursor i s).encFault = s.encFault := rfl
@[simp] theorem State.moveCursor_decFault (i : NodeIndex P) (s : State P) : (State.moveCursor i s).decFault = s.decFault := rfl
@[simp] theorem State.moveCursor_sUnk (i : NodeIndex P) (s : State P) : (State.moveCursor i s).sUnk = s.sUnk := rfl
@[simp] theorem State.moveCursor_sMal (i : NodeIndex P) (s : State P) : (State.moveCursor i s).sMal = s.sMal := rfl
@[simp] theorem State.moveCursor_sIll (i : NodeIndex P) (s : State P) : (State.moveCursor i s).sIll = s.sIll := rfl
@[simp] theorem State.moveCursor_encOut (i : NodeIndex P) (s : State P) : (State.moveCursor i s).encOut = s.encOut := rfl
@[simp] theorem State.moveCursor_decOut (i : NodeIndex P) (s : State P) : (State.moveCursor i s).decOut = s.decOut := rfl
@[simp] theorem State.moveCursor_resp (i : NodeIndex P) (s : State P) : (State.moveCursor i s).resp = s.resp := rfl
@[simp] theorem State.moveCursor_image (i : NodeIndex P) (s : State P) : (State.moveCursor i s).image = s.image := rfl
@[simp] theorem State.moveCursor_cmds (i : NodeIndex P) (s : State P) : (State.moveCursor i s).cmds = s.cmds := rfl
@[simp] theorem State.moveCursor_rst (i : NodeIndex P) (s : State P) : (State.moveCursor i s).rst = s.rst := rfl

/-! ### `clearSticky` -/

@[simp] theorem State.clearSticky_cursor (s : State P) : (State.clearSticky s).cursor = s.cursor := rfl
@[simp] theorem State.clearSticky_encFault (s : State P) : (State.clearSticky s).encFault = s.encFault := rfl
@[simp] theorem State.clearSticky_decFault (s : State P) : (State.clearSticky s).decFault = s.decFault := rfl
@[simp] theorem State.clearSticky_sUnk (s : State P) : (State.clearSticky s).sUnk = false := rfl
@[simp] theorem State.clearSticky_sMal (s : State P) : (State.clearSticky s).sMal = false := rfl
@[simp] theorem State.clearSticky_sIll (s : State P) : (State.clearSticky s).sIll = false := rfl
@[simp] theorem State.clearSticky_encOut (s : State P) : (State.clearSticky s).encOut = s.encOut := rfl
@[simp] theorem State.clearSticky_decOut (s : State P) : (State.clearSticky s).decOut = s.decOut := rfl
@[simp] theorem State.clearSticky_resp (s : State P) : (State.clearSticky s).resp = s.resp := rfl
@[simp] theorem State.clearSticky_image (s : State P) : (State.clearSticky s).image = s.image := rfl
@[simp] theorem State.clearSticky_cmds (s : State P) : (State.clearSticky s).cmds = s.cmds := rfl
@[simp] theorem State.clearSticky_rst (s : State P) : (State.clearSticky s).rst = s.rst := rfl

/-! ### `closeEnc` -/

@[simp] theorem State.closeEnc_cursor (st : Rcode) (s : State P) : (State.closeEnc st s).cursor = s.cursor := rfl
@[simp] theorem State.closeEnc_encFault (st : Rcode) (s : State P) : (State.closeEnc st s).encFault = false := rfl
@[simp] theorem State.closeEnc_decFault (st : Rcode) (s : State P) : (State.closeEnc st s).decFault = s.decFault := rfl
@[simp] theorem State.closeEnc_sUnk (st : Rcode) (s : State P) : (State.closeEnc st s).sUnk = s.sUnk := rfl
@[simp] theorem State.closeEnc_sMal (st : Rcode) (s : State P) : (State.closeEnc st s).sMal = s.sMal := rfl
@[simp] theorem State.closeEnc_sIll (st : Rcode) (s : State P) : (State.closeEnc st s).sIll = s.sIll := rfl
@[simp] theorem State.closeEnc_encOut (st : Rcode) (s : State P) : (State.closeEnc st s).encOut = s.encOut ++ [.endFrame st] := rfl
@[simp] theorem State.closeEnc_decOut (st : Rcode) (s : State P) : (State.closeEnc st s).decOut = s.decOut := rfl
@[simp] theorem State.closeEnc_resp (st : Rcode) (s : State P) : (State.closeEnc st s).resp = s.resp ++ [{ rcode := st, rdata := 0 }] := rfl
@[simp] theorem State.closeEnc_image (st : Rcode) (s : State P) : (State.closeEnc st s).image = s.image := rfl
@[simp] theorem State.closeEnc_cmds (st : Rcode) (s : State P) : (State.closeEnc st s).cmds = s.cmds := rfl
@[simp] theorem State.closeEnc_rst (st : Rcode) (s : State P) : (State.closeEnc st s).rst = s.rst := rfl

/-! ### `closeDec` -/

@[simp] theorem State.closeDec_cursor (st : Rcode) (s : State P) : (State.closeDec st s).cursor = s.image.root := rfl
@[simp] theorem State.closeDec_encFault (st : Rcode) (s : State P) : (State.closeDec st s).encFault = s.encFault := rfl
@[simp] theorem State.closeDec_decFault (st : Rcode) (s : State P) : (State.closeDec st s).decFault = false := rfl
@[simp] theorem State.closeDec_sUnk (st : Rcode) (s : State P) : (State.closeDec st s).sUnk = s.sUnk := rfl
@[simp] theorem State.closeDec_sMal (st : Rcode) (s : State P) : (State.closeDec st s).sMal = s.sMal := rfl
@[simp] theorem State.closeDec_sIll (st : Rcode) (s : State P) : (State.closeDec st s).sIll = s.sIll := rfl
@[simp] theorem State.closeDec_encOut (st : Rcode) (s : State P) : (State.closeDec st s).encOut = s.encOut := rfl
@[simp] theorem State.closeDec_decOut (st : Rcode) (s : State P) : (State.closeDec st s).decOut = s.decOut ++ [.endFrame st] := rfl
@[simp] theorem State.closeDec_resp (st : Rcode) (s : State P) : (State.closeDec st s).resp = s.resp ++ [{ rcode := st, rdata := 0 }] := rfl
@[simp] theorem State.closeDec_image (st : Rcode) (s : State P) : (State.closeDec st s).image = s.image := rfl
@[simp] theorem State.closeDec_cmds (st : Rcode) (s : State P) : (State.closeDec st s).cmds = s.cmds := rfl
@[simp] theorem State.closeDec_rst (st : Rcode) (s : State P) : (State.closeDec st s).rst = s.rst := rfl

/-! ### `giveCommand` -/

@[simp] theorem State.giveCommand_cursor (w : CmdWord P) (s : State P) : (State.giveCommand w s).cursor = s.cursor := rfl
@[simp] theorem State.giveCommand_encFault (w : CmdWord P) (s : State P) : (State.giveCommand w s).encFault = s.encFault := rfl
@[simp] theorem State.giveCommand_decFault (w : CmdWord P) (s : State P) : (State.giveCommand w s).decFault = s.decFault := rfl
@[simp] theorem State.giveCommand_sUnk (w : CmdWord P) (s : State P) : (State.giveCommand w s).sUnk = s.sUnk := rfl
@[simp] theorem State.giveCommand_sMal (w : CmdWord P) (s : State P) : (State.giveCommand w s).sMal = s.sMal := rfl
@[simp] theorem State.giveCommand_sIll (w : CmdWord P) (s : State P) : (State.giveCommand w s).sIll = s.sIll := rfl
@[simp] theorem State.giveCommand_encOut (w : CmdWord P) (s : State P) : (State.giveCommand w s).encOut = s.encOut := rfl
@[simp] theorem State.giveCommand_decOut (w : CmdWord P) (s : State P) : (State.giveCommand w s).decOut = s.decOut := rfl
@[simp] theorem State.giveCommand_resp (w : CmdWord P) (s : State P) : (State.giveCommand w s).resp = s.resp := rfl
@[simp] theorem State.giveCommand_image (w : CmdWord P) (s : State P) : (State.giveCommand w s).image = s.image := rfl
@[simp] theorem State.giveCommand_cmds (w : CmdWord P) (s : State P) : (State.giveCommand w s).cmds = s.cmds ++ [w] := rfl
@[simp] theorem State.giveCommand_rst (w : CmdWord P) (s : State P) : (State.giveCommand w s).rst = s.rst := rfl

/-! ### `offerFirst` -/

@[simp] theorem State.offerFirst_cursor (w : CmdWord P) (s : State P) : (State.offerFirst w s).cursor = s.cursor := rfl
@[simp] theorem State.offerFirst_encFault (w : CmdWord P) (s : State P) : (State.offerFirst w s).encFault = s.encFault := rfl
@[simp] theorem State.offerFirst_decFault (w : CmdWord P) (s : State P) : (State.offerFirst w s).decFault = s.decFault := rfl
@[simp] theorem State.offerFirst_sUnk (w : CmdWord P) (s : State P) : (State.offerFirst w s).sUnk = s.sUnk := rfl
@[simp] theorem State.offerFirst_sMal (w : CmdWord P) (s : State P) : (State.offerFirst w s).sMal = s.sMal := rfl
@[simp] theorem State.offerFirst_sIll (w : CmdWord P) (s : State P) : (State.offerFirst w s).sIll = s.sIll := rfl
@[simp] theorem State.offerFirst_encOut (w : CmdWord P) (s : State P) : (State.offerFirst w s).encOut = s.encOut := rfl
@[simp] theorem State.offerFirst_decOut (w : CmdWord P) (s : State P) : (State.offerFirst w s).decOut = s.decOut := rfl
@[simp] theorem State.offerFirst_resp (w : CmdWord P) (s : State P) : (State.offerFirst w s).resp = s.resp := rfl
@[simp] theorem State.offerFirst_image (w : CmdWord P) (s : State P) : (State.offerFirst w s).image = s.image := rfl
@[simp] theorem State.offerFirst_cmds (w : CmdWord P) (s : State P) : (State.offerFirst w s).cmds = w :: s.cmds := rfl
@[simp] theorem State.offerFirst_rst (w : CmdWord P) (s : State P) : (State.offerFirst w s).rst = false := rfl

/-! ### `assertReset` -/

@[simp] theorem State.assertReset_cursor (s : State P) : (State.assertReset s).cursor = s.cursor := rfl
@[simp] theorem State.assertReset_encFault (s : State P) : (State.assertReset s).encFault = s.encFault := rfl
@[simp] theorem State.assertReset_decFault (s : State P) : (State.assertReset s).decFault = s.decFault := rfl
@[simp] theorem State.assertReset_sUnk (s : State P) : (State.assertReset s).sUnk = s.sUnk := rfl
@[simp] theorem State.assertReset_sMal (s : State P) : (State.assertReset s).sMal = s.sMal := rfl
@[simp] theorem State.assertReset_sIll (s : State P) : (State.assertReset s).sIll = s.sIll := rfl
@[simp] theorem State.assertReset_encOut (s : State P) : (State.assertReset s).encOut = s.encOut := rfl
@[simp] theorem State.assertReset_decOut (s : State P) : (State.assertReset s).decOut = s.decOut := rfl
@[simp] theorem State.assertReset_resp (s : State P) : (State.assertReset s).resp = s.resp := rfl
@[simp] theorem State.assertReset_image (s : State P) : (State.assertReset s).image = s.image := rfl
@[simp] theorem State.assertReset_cmds (s : State P) : (State.assertReset s).cmds = s.cmds := rfl
@[simp] theorem State.assertReset_rst (s : State P) : (State.assertReset s).rst = true := rfl

/-! ### `raise` -/

@[simp] theorem State.raise_encOut (c : Condition) (s : State P) : (s.raise c).encOut = s.encOut := by cases c <;> rfl
@[simp] theorem State.raise_decOut (c : Condition) (s : State P) : (s.raise c).decOut = s.decOut := by cases c <;> rfl
@[simp] theorem State.raise_image (c : Condition) (s : State P) : (s.raise c).image = s.image := by cases c <;> rfl
@[simp] theorem State.raise_cmds (c : Condition) (s : State P) : (s.raise c).cmds = s.cmds := by cases c <;> rfl
@[simp] theorem State.raise_rst (c : Condition) (s : State P) : (s.raise c).rst = s.rst := by cases c <;> rfl
@[simp] theorem State.raise_unknownSymbol_cursor (s : State P) : (s.raise .unknownSymbol).cursor = s.cursor := rfl
@[simp] theorem State.raise_unknownSymbol_encFault (s : State P) : (s.raise .unknownSymbol).encFault = true := rfl
@[simp] theorem State.raise_unknownSymbol_decFault (s : State P) : (s.raise .unknownSymbol).decFault = s.decFault := rfl
@[simp] theorem State.raise_unknownSymbol_sUnk (s : State P) : (s.raise .unknownSymbol).sUnk = true := rfl
@[simp] theorem State.raise_unknownSymbol_sMal (s : State P) : (s.raise .unknownSymbol).sMal = s.sMal := rfl
@[simp] theorem State.raise_unknownSymbol_sIll (s : State P) : (s.raise .unknownSymbol).sIll = s.sIll := rfl
@[simp] theorem State.raise_unknownSymbol_resp (s : State P) : (s.raise .unknownSymbol).resp = s.resp ++ [{ rcode := .unknownSymbol, rdata := 0 }] := rfl
@[simp] theorem State.raise_absentChild_cursor (s : State P) : (s.raise .absentChild).cursor = s.image.root := rfl
@[simp] theorem State.raise_absentChild_encFault (s : State P) : (s.raise .absentChild).encFault = s.encFault := rfl
@[simp] theorem State.raise_absentChild_decFault (s : State P) : (s.raise .absentChild).decFault = true := rfl
@[simp] theorem State.raise_absentChild_sUnk (s : State P) : (s.raise .absentChild).sUnk = s.sUnk := rfl
@[simp] theorem State.raise_absentChild_sMal (s : State P) : (s.raise .absentChild).sMal = true := rfl
@[simp] theorem State.raise_absentChild_sIll (s : State P) : (s.raise .absentChild).sIll = s.sIll := rfl
@[simp] theorem State.raise_absentChild_resp (s : State P) : (s.raise .absentChild).resp = s.resp ++ [{ rcode := .malformedBitstream, rdata := 0 }] := rfl
@[simp] theorem State.raise_truncatedCode_cursor (s : State P) : (s.raise .truncatedCode).cursor = s.cursor := rfl
@[simp] theorem State.raise_truncatedCode_encFault (s : State P) : (s.raise .truncatedCode).encFault = s.encFault := rfl
@[simp] theorem State.raise_truncatedCode_decFault (s : State P) : (s.raise .truncatedCode).decFault = s.decFault := rfl
@[simp] theorem State.raise_truncatedCode_sUnk (s : State P) : (s.raise .truncatedCode).sUnk = s.sUnk := rfl
@[simp] theorem State.raise_truncatedCode_sMal (s : State P) : (s.raise .truncatedCode).sMal = true := rfl
@[simp] theorem State.raise_truncatedCode_sIll (s : State P) : (s.raise .truncatedCode).sIll = s.sIll := rfl
@[simp] theorem State.raise_truncatedCode_resp (s : State P) : (s.raise .truncatedCode).resp = s.resp := rfl
@[simp] theorem State.raise_illegalCommand_cursor (s : State P) : (s.raise .illegalCommand).cursor = s.cursor := rfl
@[simp] theorem State.raise_illegalCommand_encFault (s : State P) : (s.raise .illegalCommand).encFault = s.encFault := rfl
@[simp] theorem State.raise_illegalCommand_decFault (s : State P) : (s.raise .illegalCommand).decFault = s.decFault := rfl
@[simp] theorem State.raise_illegalCommand_sUnk (s : State P) : (s.raise .illegalCommand).sUnk = s.sUnk := rfl
@[simp] theorem State.raise_illegalCommand_sMal (s : State P) : (s.raise .illegalCommand).sMal = s.sMal := rfl
@[simp] theorem State.raise_illegalCommand_sIll (s : State P) : (s.raise .illegalCommand).sIll = true := rfl
@[simp] theorem State.raise_illegalCommand_resp (s : State P) : (s.raise .illegalCommand).resp = s.resp ++ [{ rcode := .illegalCmd, rdata := 0 }] := rfl

/-! ### `arriveAt` -/

@[simp] theorem State.arriveAt_cursor (i : NodeIndex P) (s : State P) :
    (s.arriveAt i).cursor = (if s.image.isLeafAt i then s.image.root else i) := by
  unfold State.arriveAt; split <;> simp
@[simp] theorem State.arriveAt_encFault (i : NodeIndex P) (s : State P) :
    (s.arriveAt i).encFault = s.encFault := by
  unfold State.arriveAt; split <;> simp
@[simp] theorem State.arriveAt_decFault (i : NodeIndex P) (s : State P) :
    (s.arriveAt i).decFault = s.decFault := by
  unfold State.arriveAt; split <;> simp
@[simp] theorem State.arriveAt_sUnk (i : NodeIndex P) (s : State P) :
    (s.arriveAt i).sUnk = s.sUnk := by
  unfold State.arriveAt; split <;> simp
@[simp] theorem State.arriveAt_sMal (i : NodeIndex P) (s : State P) :
    (s.arriveAt i).sMal = s.sMal := by
  unfold State.arriveAt; split <;> simp
@[simp] theorem State.arriveAt_sIll (i : NodeIndex P) (s : State P) :
    (s.arriveAt i).sIll = s.sIll := by
  unfold State.arriveAt; split <;> simp
@[simp] theorem State.arriveAt_encOut (i : NodeIndex P) (s : State P) :
    (s.arriveAt i).encOut = s.encOut := by
  unfold State.arriveAt; split <;> simp
@[simp] theorem State.arriveAt_decOut (i : NodeIndex P) (s : State P) :
    (s.arriveAt i).decOut = s.decOut ++ (if s.image.isLeafAt i then [.data (s.image.nodeRead i).symbol] else []) := by
  unfold State.arriveAt; split <;> simp
@[simp] theorem State.arriveAt_resp (i : NodeIndex P) (s : State P) :
    (s.arriveAt i).resp = s.resp := by
  unfold State.arriveAt; split <;> simp
@[simp] theorem State.arriveAt_image (i : NodeIndex P) (s : State P) :
    (s.arriveAt i).image = s.image := by
  unfold State.arriveAt; split <;> simp
@[simp] theorem State.arriveAt_cmds (i : NodeIndex P) (s : State P) :
    (s.arriveAt i).cmds = s.cmds := by
  unfold State.arriveAt; split <;> simp
@[simp] theorem State.arriveAt_rst (i : NodeIndex P) (s : State P) :
    (s.arriveAt i).rst = s.rst := by
  unfold State.arriveAt; split <;> simp

/-! ### `resetWith` -/

@[simp] theorem State.resetWith_cursor (img : Image P) : (State.resetWith img).cursor = img.root := rfl
@[simp] theorem State.resetWith_encFault (img : Image P) : (State.resetWith img).encFault = false := rfl
@[simp] theorem State.resetWith_decFault (img : Image P) : (State.resetWith img).decFault = false := rfl
@[simp] theorem State.resetWith_sUnk (img : Image P) : (State.resetWith img).sUnk = false := rfl
@[simp] theorem State.resetWith_sMal (img : Image P) : (State.resetWith img).sMal = false := rfl
@[simp] theorem State.resetWith_sIll (img : Image P) : (State.resetWith img).sIll = false := rfl
@[simp] theorem State.resetWith_encOut (img : Image P) : (State.resetWith img).encOut = [] := rfl
@[simp] theorem State.resetWith_decOut (img : Image P) : (State.resetWith img).decOut = [] := rfl
@[simp] theorem State.resetWith_resp (img : Image P) : (State.resetWith img).resp = [] := rfl
@[simp] theorem State.resetWith_image (img : Image P) : (State.resetWith img).image = img := rfl
@[simp] theorem State.resetWith_cmds (img : Image P) : (State.resetWith img).cmds = [] := rfl
@[simp] theorem State.resetWith_rst (img : Image P) : (State.resetWith img).rst = false := rfl

end Sys2Proof.Machine
end

