-- ==== Sys2Proof/Laws/Ops.lean ====
section
/-! SUPPORT. What each meaning, and a step, can do: one inversion lemma each, cited instead of unfolding. -/

namespace Sys2Proof.Machine

variable {P : Params}

/-- The three ways `ENC_SYM` completes (R112). -/
theorem execEncSym_next {sym : Symbol P} {s t : State P} (h : execEncSym sym s = .next t) :
    (s.encFault = true ∧ t = s.respond .unknownSymbol 0) ∨
    (s.encFault = false ∧ (s.image.codeRead sym).valid = false ∧ t = s.raise .unknownSymbol) ∨
    (s.encFault = false ∧ (s.image.codeRead sym).valid = true ∧ (s.image.codeRead sym).lenOk = true ∧
      t = (s.emitEnc ((s.image.codeRead sym).code.map .data)).respond .ok 0) := by
  simp only [execEncSym] at h
  split at h
  · next hf => cases h; exact .inl ⟨hf, rfl⟩
  · next hf =>
    split at h
    · next hv => cases h; exact .inr (.inl ⟨by simpa using hf, by simpa using hv, rfl⟩)
    · next hv =>
      split at h
      · cases h
      · next hl =>
        cases h
        exact .inr (.inr ⟨by simpa using hf, by simpa using hv, by simpa using hl, rfl⟩)

/-- The four ways `DEC_BIT` completes (R132). -/
theorem execDecBit_next {b : Bool} {s t : State P} (h : execDecBit b s = .next t) :
    (s.decFault = true ∧ t = s.respond .malformedBitstream 0) ∨
    (s.decFault = false ∧ s.image.rootIsLeaf = true ∧
      t = (s.emitDec (.data (s.image.nodeRead s.image.root).symbol)).respond .ok 0) ∨
    (s.decFault = false ∧ s.image.rootIsLeaf = false ∧ s.image.child s.cursor b = none ∧
      t = s.raise .absentChild) ∨
    (s.decFault = false ∧ s.image.rootIsLeaf = false ∧ ∃ j, s.image.child s.cursor b = some j ∧
      t = (s.arriveAt j).respond .ok 0) := by
  simp only [execDecBit] at h
  split at h
  · next hf => cases h; exact .inl ⟨hf, rfl⟩
  · next hf =>
    have hf : s.decFault = false := by simpa using hf
    split at h
    · next hr => cases h; exact .inr (.inl ⟨hf, hr, rfl⟩)
    · next hr =>
      have hr : s.image.rootIsLeaf = false := by simpa using hr
      split at h
      · next hc => cases h; exact .inr (.inr (.inl ⟨hf, hr, hc, rfl⟩))
      · next j hc => cases h; exact .inr (.inr (.inr ⟨hf, hr, j, hc, rfl⟩))

/-- The three ways `DEC_END` completes (R136). -/
theorem execDecEnd_next {s t : State P} (h : execDecEnd s = .next t) :
    (s.decFault = true ∧ t = s.closeDec .malformedBitstream) ∨
    (s.decFault = false ∧ s.decMid = true ∧ t = (s.raise .truncatedCode).closeDec .malformedBitstream) ∨
    (s.decFault = false ∧ s.decMid = false ∧ t = s.closeDec .ok) := by
  simp only [execDecEnd] at h
  split at h
  · next hf => cases h; exact .inl ⟨hf, rfl⟩
  · next hf =>
    have hf : s.decFault = false := by simpa using hf
    split at h
    · next hm => cases h; exact .inr (.inl ⟨hf, hm, rfl⟩)
    · next hm => cases h; exact .inr (.inr ⟨hf, by simpa using hm, rfl⟩)

/-- `DEC_MID` is whether the cursor is away from the root (R28). -/
theorem State.decMid_eq_false {s : State P} : s.decMid = false ↔ s.cursor = s.image.root := by
  simp [State.decMid]

theorem State.decMid_eq_true {s : State P} : s.decMid = true ↔ s.cursor ≠ s.image.root := by
  simp [State.decMid]

/-- Everything a command can do, as an elimination: what holds of each of the fifteen ways a command completes holds of
every command that gives a next state. -/
theorem execIn_cases {Q : Instr P → State P → State P → Prop} {i : Instr P} {s t : State P} (h : execIn i s = .next t)
    (encSymFailed : ∀ sym, s.encFault = true → Q (.encSym sym) s (s.respond .unknownSymbol 0))
    (encSymAbsent : ∀ sym, s.encFault = false → (s.image.codeRead sym).valid = false →
      Q (.encSym sym) s (s.raise .unknownSymbol))
    (encSymSent : ∀ sym, s.encFault = false → (s.image.codeRead sym).valid = true →
      (s.image.codeRead sym).lenOk = true →
      Q (.encSym sym) s ((s.emitEnc ((s.image.codeRead sym).code.map .data)).respond .ok 0))
    (encEnd : Q .encEnd s (s.closeEnc (if s.encFault then .unknownSymbol else .ok)))
    (decBitFailed : ∀ b, s.decFault = true → Q (.decBit b) s (s.respond .malformedBitstream 0))
    (decBitSingle : ∀ b, s.decFault = false → s.image.rootIsLeaf = true →
      Q (.decBit b) s ((s.emitDec (.data (s.image.nodeRead s.image.root).symbol)).respond .ok 0))
    (decBitAbsent : ∀ b, s.decFault = false → s.image.rootIsLeaf = false → s.image.child s.cursor b = none →
      Q (.decBit b) s (s.raise .absentChild))
    (decBitMoved : ∀ b j, s.decFault = false → s.image.rootIsLeaf = false → s.image.child s.cursor b = some j →
      Q (.decBit b) s ((s.arriveAt j).respond .ok 0))
    (decEndFailed : s.decFault = true → Q .decEnd s (s.closeDec .malformedBitstream))
    (decEndTruncated : s.decFault = false → s.cursor ≠ s.image.root →
      Q .decEnd s ((s.raise .truncatedCode).closeDec .malformedBitstream))
    (decEndOk : s.decFault = false → s.cursor = s.image.root → Q .decEnd s (s.closeDec .ok))
    (rdStatus : Q .rdStatus s (s.respond .ok s.status))
    (clrStatus : Q .clrStatus s (s.clearSticky.respond .ok 0))
    (illegalOp6 : ∀ opd, Q (.illegalOp6 opd) s (s.raise .illegalCommand))
    (illegalOp7 : ∀ opd, Q (.illegalOp7 opd) s (s.raise .illegalCommand)) : Q i s t := by
  cases i with
  | encSym sym =>
    rcases execEncSym_next h with ⟨a, rfl⟩ | ⟨a, b, rfl⟩ | ⟨a, b, c, rfl⟩
    · exact encSymFailed _ a
    · exact encSymAbsent _ a b
    · exact encSymSent _ a b c
  | encEnd => cases h; exact encEnd
  | decBit b =>
    rcases execDecBit_next h with ⟨a, rfl⟩ | ⟨a, b, rfl⟩ | ⟨a, b, c, rfl⟩ | ⟨a, b, j, c, rfl⟩
    · exact decBitFailed _ a
    · exact decBitSingle _ a b
    · exact decBitAbsent _ a b c
    · exact decBitMoved _ j a b c
  | decEnd =>
    rcases execDecEnd_next h with ⟨a, rfl⟩ | ⟨a, b, rfl⟩ | ⟨a, b, rfl⟩
    · exact decEndFailed a
    · exact decEndTruncated a (State.decMid_eq_true.1 b)
    · exact decEndOk a (State.decMid_eq_false.1 b)
  | rdStatus => cases h; exact rdStatus
  | clrStatus => cases h; exact clrStatus
  | illegalOp6 opd => cases h; exact illegalOp6 _
  | illegalOp7 opd => cases h; exact illegalOp7 _

/-- What the engine takes: nothing, or the oldest command. -/
theorem State.fetch_eq_some {s t : State P} {w : CmdWord P} :
    s.fetch = some (w, t) ↔ s.rst = false ∧ ∃ ws, s.cmds = w :: ws ∧ t = { s with cmds := ws } := by
  unfold State.fetch
  cases hr : s.rst with
  | true => simp
  | false =>
    cases hc : s.cmds with
    | nil => simp
    | cons v ws =>
      simp only [Bool.false_eq_true, if_false, Option.some.injEq, Prod.mk.injEq, List.cons.injEq, true_and]
      constructor
      · rintro ⟨rfl, rfl⟩; exact ⟨ws, ⟨rfl, rfl⟩, rfl⟩
      · rintro ⟨ws', ⟨rfl, rfl⟩, rfl⟩; exact ⟨rfl, rfl⟩

/-- What a step that gives a next state did: nothing, one command, or one illegal word outside the table. -/
theorem stepWith_next {run : Instr P → State P → Host.Outcome (State P) Fault Refusal} {s t : State P}
    (h : stepWith run s = .next t) :
    (s.fetch = none ∧ t = s) ∨
    (∃ w i u, s.fetch = some (w, u) ∧ decode w = .ok i ∧ run i u = .next t) ∨
    (∃ w e u, s.fetch = some (w, u) ∧ decode w = .error e ∧ t = u.raise .illegalCommand) := by
  unfold stepWith at h
  split at h
  · next hf => cases h; exact .inl ⟨hf, rfl⟩
  · next w u hf =>
    split at h
    · next i hd => exact .inr (.inl ⟨w, i, u, hf, hd, h⟩)
    · next e hd => cases h; exact .inr (.inr ⟨w, e, u, hf, hd, rfl⟩)

/-! ### The default parameters -/

/-- `exec` runs a command as `execIn` does at the default parameters: rewritten with it, an `exec` has `execIn_cases`. -/
theorem exec_eq_execIn (i : Instr) (s : State) : exec i s = execIn i s := by cases i <;> rfl

/-- `step` is `stepIn` at the default parameters. -/
theorem step_eq_stepIn (s : State) : step s = stepIn s :=
  congrArg (stepWith · s) (funext fun i => funext fun t => exec_eq_execIn i t)

/-- What a step of the machine that gives a next state did. -/
theorem step_next {s t : State} (h : step s = .next t) :
    (s.fetch = none ∧ t = s) ∨
    (∃ w i u, s.fetch = some (w, u) ∧ decode w = .ok i ∧ exec i u = .next t) ∨
    (∃ w e u, s.fetch = some (w, u) ∧ decode w = .error e ∧ t = u.raise .illegalCommand) := stepWith_next h

end Sys2Proof.Machine
end

