-- ==== Sys2Proof/Laws/PerInstr.lean ====
section
/-! SUPPORT. What holds of the command word of every instruction, instruction by instruction: its two fields are the
opcode and the operand of R81 and R82, so no field is lost in the word. -/

namespace Sys2Proof.Laws.WordFields

open Sys2Proof.Machine

/-- The fields of the command word of `i` are the opcode and the operand of `i` (R80, R81). -/
def Statement (i : Instr) : Prop := opcodeOf (encode i) = i.opcode ∧ operandOf (encode i) = i.operand

/-- The two fields of a command word are read back as they were put in, for all parameters. -/
theorem fields_of_cmdWord {P : Params} (op : BitVec 3) (opd : Symbol P) :
    opcodeOf (cmdWord op opd) = op ∧ operandOf (cmdWord op opd) = opd := by
  constructor
  · apply BitVec.eq_of_getLsbD_eq
    intro k hk
    simp [opcodeOf, cmdWord, BitVec.getLsbD_append, hk]
  · apply BitVec.eq_of_getLsbD_eq
    intro k hk
    simp [operandOf, cmdWord, BitVec.getLsbD_append, hk]

theorem encSym (sym : Symbol) : Statement (.encSym sym) := fields_of_cmdWord _ _
theorem encEnd : Statement .encEnd := fields_of_cmdWord _ _
theorem decBit (b : Bool) : Statement (.decBit b) := fields_of_cmdWord _ _
theorem decEnd : Statement .decEnd := fields_of_cmdWord _ _
theorem rdStatus : Statement .rdStatus := fields_of_cmdWord _ _
theorem clrStatus : Statement .clrStatus := fields_of_cmdWord _ _
theorem illegalOp6 (opd : Symbol) : Statement (.illegalOp6 opd) := fields_of_cmdWord _ _
theorem illegalOp7 (opd : Symbol) : Statement (.illegalOp7 opd) := fields_of_cmdWord _ _

end Sys2Proof.Laws.WordFields
end

