-- ==== Sys2Proof/Machine/CommandText.lean ====
section
/-! DEFINITION. The lines of a command text and the command words each stands for (30_encoding.md R92, R94). Not
hardware: the notation of the spec's examples, as a syntax tree and not as characters of a file. -/

namespace Sys2Proof.Machine

variable {P : Params}

/-- One line of a command text, without its comment (R92). -/
inductive TextLine (P : Params := Config.params) where
  /-- A mnemonic with its operand. -/
  | command (i : Instr P)
  /-- `.word <n>`: any command word. -/
  | word (w : CmdWord P)
  /-- `ENCODE "<chars>"`. -/
  | encodeText (chars : List Char)
  /-- `DECODE "<bits>"`. -/
  | decodeText (bits : BitString)
  deriving DecidableEq, Repr

/-- The symbol a character stands for in the examples: its ASCII code as an 8-bit symbol (R94). Where the symbols have
another width, or the character is outside ASCII, it is the character's code point modulo `2^SYM_W` (DESIGN CHOICE,
assumption 15). -/
def symbolOfChar (c : Char) : Symbol P := BitVec.ofNat P.symW c.toNat

/-- The command words of a line; the two pseudo-commands are one `Encode` and one `Decode` call (R92). -/
def TextLine.words : TextLine P → List (CmdWord P)
  | .command i => [encode i]
  | .word w => [w]
  | .encodeText cs => (encodeCommands (cs.map symbolOfChar)).map encode
  | .decodeText bs => (decodeCommands bs).map encode

/-- The command words of a text, in order (R92). -/
def wordsOfText (lines : List (TextLine P)) : List (CmdWord P) := lines.flatMap TextLine.words

end Sys2Proof.Machine
end

