-- ==== Sys2Proof/Tests/Slice0.lean ====
section
/-! SUPPORT. Small tests. Every expected value is from spec/95_test_vectors.md (images, V1 to V7) or from the rule named. -/

namespace Sys2Proof.Tests

open Sys2Proof.Machine

/-! ## Images of 95_test_vectors.md section 1 -/

def imageA : Image :=
  { code := [(0x61, 0x203), (0x62, 0x003)], tree := [(0, 0x6100000), (1, 0x6200000), (2, 0x403)], root := 2 }

def imageB : Image := { code := [(0x61, 0x003)], tree := [(0, 0x6100000)], root := 0 }

def imageC : Image :=
  { code := [(0x61, 0x9), (0x62, 0x1009), (0x63, 0x807), (0x64, 0x405), (0x65, 0x203)]
    tree := [(0, 0x6100000), (1, 0x6200000), (2, 0x6300000), (3, 0x6400000), (4, 0x6500000), (5, 0xC01),
      (6, 0x140B), (7, 0x1C0D), (8, 0x240F)]
    root := 8 }

def imageD : Image :=
  { code := [(0x61, 0x005), (0x62, 0x405), (0x63, 0x205), (0x64, 0x605)]
    tree := [(0, 0x6100000), (1, 0x6200000), (2, 0x6300000), (3, 0x6400000), (4, 0xC01), (5, 0x1C05), (6, 0x2C09)]
    root := 6 }

def imageE : Image :=
  { code := [(0x61, 0x3), (0x62, 0x607), (0x63, 0xE09), (0x64, 0x1E09), (0x72, 0x205)]
    tree := [(0, 0x6100000), (1, 0x6200000), (2, 0x7200000), (3, 0x6300000), (4, 0x6400000), (5, 0x2407),
      (6, 0x2C03), (7, 0x3405), (8, 0x3C01)]
    root := 8 }

def imageT : Image :=
  { code := [(0x61, 0x205), (0x62, 0x003), (0x63, 0x605)]
    tree := [(0, 0x6100000), (1, 0x6200000), (2, 0x6300000), (3, 0x1401), (4, 0x1C03)], root := 4 }

def imageF : Image := { code := [(0x78, 0x003)], tree := [(0, 0x3), (1, 0x7800000)], root := 0 }

def imageG : Image := { imageA with code := [(0x61, 0x003), (0x62, 0x203)] }

def imageH : Image :=
  { code := [(0x61, 0x603), (0x62, 0x003)]
    tree := [(0, 0x610000A), (1, 0x6200000), (2, 0xFF00403), (7, 0xFFFFFFF)], root := 2 }

/-- A valid entry of length 0: it fails (S1) (U1). -/
def imageBadLen : Image := { imageA with code := [(0x61, 0x001)] }

/-- A root whose only child is the root itself: a cycle, against (T1). -/
def imageCycle : Image := { code := [], tree := [(0, 0x001)], root := 0 }

/-- Image A, built. -/
def builtA : BuiltImage := { image := imageA, canonical := by decide, lenInRange := by decide +kernel }

/-- Two leaves with the symbol of `'a'`, against (T2). -/
def imageTwice : Image := { imageA with tree := [(0, 0x6100000), (1, 0x6100000), (2, 0x403)] }

/-- `'a'` is "0" and `'b'` is "00", against (K2). -/
def imagePrefix : Image := { imageA with code := [(0x61, 0x003), (0x62, 0x005)] }

/-- The five predicates of R41 as the checks of them. -/
def checks (img : Image) : List Bool :=
  [decide img.wf, img.checkStruct, img.checkTree, img.checkTreeStrict, img.checkCode, img.checkConsistent]

/-! ## Well-formedness: each check passes where section 1 says it holds and refuses an ill-formed term -/

theorem test_params_ok : Config.params.wellFormed = true := by decide
theorem test_params_symW_refused : Params.wellFormed { symW := 0, idxW := 1, maxCodeLen := 1 } = false := by decide
theorem test_params_idxW_refused : Params.wellFormed { symW := 1, idxW := 0, maxCodeLen := 1 } = false := by decide
theorem test_params_codeLen_refused : Params.wellFormed { symW := 1, idxW := 1, maxCodeLen := 0 } = false := by decide
/-- R6 to R9: the defaults. -/
theorem test_widths : (Config.symW, Config.idxW, Config.maxCodeLen, Config.clenW) = (8, 9, 255, 8) ∧
    (Config.cmdW, Config.nodeW, Config.codeW, Config.respW) = (11, 28, 264, 10) := by decide
theorem test_images_well_formed : ∀ img ∈ [imageA, imageB, imageC, imageD, imageE, imageT],
    checks img = [true, true, true, true, true, true] := by decide +kernel
/-- Image F fails `WF_TREE_STRICT` alone. -/
theorem test_one_child_refused : checks imageF = [true, true, true, false, true, true] := by decide +kernel
/-- Image G fails `CONSISTENT` alone. -/
theorem test_mismatch_refused : checks imageG = [true, true, true, true, true, false] := by decide +kernel
/-- Image H fails `WF_STRUCT` and meets (S1). -/
theorem test_ignored_bits_refused : imageH.checkStruct = false ∧ imageH.checkLen = true ∧
    imageH.checkTreeStrict = true := by decide +kernel
theorem test_zero_length_refused : imageBadLen.checkLen = false := by decide +kernel
/-- `WF_STRUCT` asks nothing of the shape of the tree, so a cycle meets it and fails `WF_TREE`. -/
theorem test_cycle_refused : imageCycle.checkTree = false ∧ imageCycle.checkStruct = true := by decide +kernel
/-- R41, U1: the checks run when an image is built, and each refusal has its name. -/
theorem test_build_refused : imageBadLen.build [] = .error .lenOutOfRange ∧
    imageCycle.build [.struct] = .ok { image := imageCycle, canonical := by decide, lenInRange := by decide +kernel } ∧
    imageCycle.build [.struct, .tree] = .error (.fails .tree) ∧ imageH.build [.struct] = .error (.fails .struct) ∧
    imageF.build [.tree, .treeStrict] = .error (.fails .treeStrict) ∧
    imagePrefix.build [.code] = .error (.fails .code) ∧ imageG.build [.consistent] = .error (.fails .consistent) ∧
    ({ imageA with code := [(0x61, 0)] } : Image).build [] = .error .notCanonical := by decide +kernel
theorem test_build_ok : imageA.build [.struct, .tree, .treeStrict, .code, .consistent] = .ok builtA := by decide +kernel
theorem test_duplicate_symbol_refused : imageTwice.checkTree = false := by decide
theorem test_prefix_refused : imagePrefix.checkCode = false := by decide +kernel
theorem test_blank_cell_refused : ¬ Memory.wf (w := 8) 4 [(1, 0)] := by decide
theorem test_unsorted_refused : ¬ Memory.wf (w := 8) 4 [(2, 1), (1, 1)] := by decide
theorem test_address_outside_refused : ¬ Memory.wf (w := 8) 4 [(4, 1)] := by decide

/-! ## Command words, bit by bit (R104, V1.1, V1.2) -/

theorem test_decode_enc_sym : decode (0b01100001000 : CmdWord) = .ok (.encSym 0x61) := by decide
theorem test_decode_enc_sym_top : decode (0b11111111000 : CmdWord) = .ok (.encSym 0xFF) := by decide
theorem test_decode_enc_end : decode (0b00000000001 : CmdWord) = .ok .encEnd := by decide
theorem test_decode_dec_bit_0 : decode (0b00000000010 : CmdWord) = .ok (.decBit false) := by decide
theorem test_decode_dec_bit_1 : decode (0b00000001010 : CmdWord) = .ok (.decBit true) := by decide
theorem test_decode_dec_end : decode (0b00000000011 : CmdWord) = .ok .decEnd := by decide
theorem test_decode_rd_status : decode (0b00000000100 : CmdWord) = .ok .rdStatus := by decide
theorem test_decode_clr_status : decode (0b00000000101 : CmdWord) = .ok .clrStatus := by decide
theorem test_decode_op6 : decode (0b01100001110 : CmdWord) = .ok (.illegalOp6 0x61) := by decide
theorem test_decode_op7 : decode (0b11111111111 : CmdWord) = .ok (.illegalOp7 0xFF) := by decide
/-- V1.2: stray operand bits. -/
theorem test_decode_stray : ([0x009, 0x012, 0x40A, 0x00B, 0x00C, 0x00D, 0x7FD] : List CmdWord).map decode =
    [.error (.strayOperand 1 1), .error (.strayOperand 2 2), .error (.strayOperand 2 0x81), .error (.strayOperand 3 1),
     .error (.strayOperand 4 1), .error (.strayOperand 5 1), .error (.strayOperand 5 0xFF)] := by decide
/-- V1.3: of the 2048 command words 1786 are illegal. -/
theorem test_illegal_count :
    ((List.range 2048).filter fun n => isIllegal (BitVec.ofNat _ n : CmdWord)).length = 1786 := by decide +kernel
theorem test_encode_enc_sym : (encode (.encSym 0x61) : CmdWord) = 0x308 := by decide
theorem test_encode_dec_bit : (encode (.decBit true) : CmdWord) = 0x00A := by decide
theorem test_encode_op7 : (encode (.illegalOp7 0xFF) : CmdWord) = 0x7FF := by decide
theorem test_table_word : decodeTableWord 16 0x308 = some (.encSym 0x61) ∧ decodeTableWord 16 0x800 = none := by decide

/-! ## ROM words, responses and port words (V2.1, V2.2, R87, R88, R90) -/

theorem test_code_word : (CodeEntry.unpack 0xE09 : CodeEntry) = { valid := true, len := 4, bits := 7 } ∧
    (CodeEntry.unpack 0xE09 : CodeEntry).code = [true, true, true, false] := by decide +kernel
theorem test_code_pack : ([[false], [true], [false, true], [true, false], [false, false, false, true]].map fun p =>
    (CodeEntry.ofCode p : CodeEntry).pack) = [0x003, 0x203, 0x405, 0x205, 0x1009] := by decide +kernel
theorem test_node_word : (Node.unpack 0x240F : Node) = { lv := true, left := 7, rv := true, right := 4, symbol := 0 } ∧
    (Node.unpack 0x6100000 : Node) = { lv := false, left := 0, rv := false, right := 0, symbol := 0x61 } := by decide
theorem test_node_pack : ({ lv := true, left := 511, rv := true, right := 511, symbol := 0 } : Node).pack = 0x00FFFFF ∧
    ({ lv := false, left := 0, rv := true, right := 1, symbol := 0 } : Node).pack = 0xC00 := by decide
theorem test_response_word : Response.word { rcode := .ok, rdata := 0x12 } = 0x048 ∧
    Response.word { rcode := .illegalCmd, rdata := 0 } = 0x003 := by decide
theorem test_port_words : EncItem.portWord (.endFrame .unknownSymbol) = (1, 1) ∧ EncItem.portWord (.data true) = (0, 1) ∧
    DecItem.portWord (.data 0x61 : DecItem) = (0, 0x61) ∧ DecItem.portWord (.endFrame .malformedBitstream : DecItem) = (1, 2) := by decide

/-! ## Single commands (sections 3.3 to 3.6) -/

/-- The fields of an outcome a test looks at: the new state, or none. -/
def after (o : Host.Outcome State Fault Refusal) : Option State :=
  match o with
  | .next s => some s
  | .fault _ => none
  | .refused _ => none

/-- A state of an image with the given cursor and fault bits. -/
def at_ (img : Image) (cursor : NodeIndex) (ef df : Bool) : State :=
  { State.resetWith img with cursor := cursor, encFault := ef, decFault := df }

/-- V3.26 -/
theorem test_enc_sym_bit_order : (after (exec (.encSym 0x62) (State.resetWith imageC))).map (·.encOut) =
    some [.data false, .data false, .data false, .data true] := by decide +kernel
/-- V3.21 -/
theorem test_enc_sym_unknown : (after (exec (.encSym 0x63) (State.resetWith imageA))).map
    (fun s => (s.encFault, s.sUnk, s.encOut, s.resp)) =
    some (true, true, [], [{ rcode := .unknownSymbol, rdata := 0 }]) := by decide +kernel
/-- U1 -/
theorem test_enc_sym_zero_length : after (exec (.encSym 0x61) (State.resetWith imageBadLen)) = none := by decide +kernel
/-- V3.24 -/
theorem test_enc_end_failed : (after (exec .encEnd (at_ imageA 2 true false))).map
    (fun s => (s.encFault, s.encOut)) = some (false, [.endFrame .unknownSymbol]) := by decide
/-- V4.23 -/
theorem test_dec_bit_leaf : (after (exec (.decBit true) (at_ imageC 5 false false))).map
    (fun s => (s.cursor, s.decOut)) = some (8, [.data 0x62]) := by decide
/-- V4.25 -/
theorem test_dec_bit_absent : (after (exec (.decBit true) (State.resetWith imageF))).map
    (fun s => (s.cursor, s.decFault, s.sMal, s.status)) = some (0, true, true, 0x12) := by decide
/-- V4.24 -/
theorem test_dec_end_truncated : (after (exec .decEnd (at_ imageC 5 false false))).map
    (fun s => (s.cursor, s.decFault, s.sMal, s.decOut)) =
    some (8, false, true, [.endFrame .malformedBitstream]) := by decide
/-- V4.29 -/
theorem test_dec_end_empty : (after (exec .decEnd (State.resetWith imageA))).map (fun s => (s.decOut, s.sMal)) =
    some ([.endFrame .ok], false) := by decide
/-- V5.9 -/
theorem test_rd_status : (after (exec .rdStatus
    { at_ imageC 5 true false with sUnk := true, sMal := true, sIll := true })).map
    (fun s => s.resp.map Response.word) = some [0x0BC] := by decide
/-- V5.10 then `CLR_STATUS`. -/
theorem test_clr_status : (after (exec .clrStatus
    { at_ imageC 8 true true with sUnk := true, sMal := true, sIll := true })).map State.status =
    some 0x18 := by decide
/-- V6.1 -/
theorem test_illegal_op6 : (after (exec (.illegalOp6 0) (State.resetWith imageA))).map
    (fun s => (s.sIll, s.resp.map Response.word)) = some (true, [0x003]) := by decide
/-- V6.5 -/
theorem test_illegal_op7 : (after (exec (.illegalOp7 0xFF) { State.resetWith imageA with sIll := true })).map
    (fun s => (s.status, s.encOut, s.decOut)) = some (4, [], []) := by decide
/-- V6.2: the word `0x012` does not consume a bit. -/
theorem test_stray_word : (after (step ((at_ imageC 6 false false).withFetchWord 16 0x012))).map
    (fun s => (s.cursor, s.sIll, s.decOut, s.cmds)) = some (6, true, [], []) := by decide
/-- R260: no command is accepted while `rst` is asserted. -/
theorem test_reset_held : after (step ({ State.reset with cmds := [1] }.assertReset)) =
    some ({ State.reset with cmds := [1] }.assertReset) := by decide
/-- The first step after reset runs the word that is given (assumption 5). -/
theorem test_first_step : (after (step (State.reset.withFetchWord 16 0x00A))).map (·.decOut) = some [.data 0] := by decide
/-- R264, U2. -/
theorem test_place_image : after (State.reset.placeImage builtA) = none ∧
    (after (State.reset.assertReset.placeImage builtA)).map (fun s => s.releaseReset.cursor) = some 2 := by decide

/-! ## Frame functions (E1, V3.4, V4.4, V4.15) and the offline reference (V7) -/

theorem test_encode_frame : imageE.encodeFrame (List.map (BitVec.ofNat _) [0x61, 0x62, 0x72, 0x61, 0x63]) =
    .ok [false, true, true, false, true, false, false, true, true, true, false] := by decide +kernel
theorem test_decode_frame : imageA.decodeFrame [true, true, true, false] = .ok [0x61, 0x61, 0x61, 0x62] ∧
    imageF.decodeFrame [false, true, false] = .error .malformedBitstream ∧
    imageB.decodeFrame [false, true, false] = .ok [0x61, 0x61, 0x61] := by decide
/-- R270: the data of a failed frame are void. -/
theorem test_void_frame : encResults [.data true, .endFrame .unknownSymbol, .data false, .endFrame .ok] =
    [.error .unknownSymbol, .ok [false]] := by decide

/-- The words of program P1, and of `.word 0x012` (P7). -/
theorem test_text_words : (wordsOfText [.encodeText "aaab".toList, .decodeText [true, true, true, false],
      .command .rdStatus, .word 0x012] : List CmdWord) =
    [0x308, 0x308, 0x308, 0x310, 0x001, 0x00A, 0x00A, 0x00A, 0x002, 0x003, 0x004, 0x012] := by decide

/-- V7.1: the heap after each operation. -/
theorem test_heap : let lt := fun (x y : Nat) => decide (x < y)
    let q := [5, 3, 3, 1].foldl (Heap.add lt) (Heap.empty 4)
    q.items = [1, 3, 3, 5] ∧ (q.add lt 9).items = [1, 3, 3, 5] ∧ (q.remove lt).items = [3, 5, 3] ∧
      ((q.remove lt).remove lt).items = [3, 5] := by decide
theorem test_heap_sort : heapSort (fun (x y : Nat) => decide (x < y)) [5, 1, 4, 1, 3] = [1, 1, 3, 4, 5] := by decide
theorem test_heap_front_empty : (Heap.empty (α := Nat) 3).front = .error .emptyQueue := by decide
/-- The image an image maker gives, without its proofs. -/
def made (o : Except MakeError BuiltImage) : Option Image := o.toOption.map BuiltImage.image

/-- The image of a table of counts, or none when it is no frequency map. -/
def madeOfCounts (l : List (Symbol × Nat)) : Option Image := FrequencyMap.ofList l >>= fun fm => made (imageOfCounts fm)

/-- V7.2, R214: the source's scenario gives image A. -/
theorem test_image_A : made (imageOfInput [0x61, 0x61, 0x61, 0x62]) = some imageA := by decide +kernel
/-- V7.3, V7.4, V7.5, V7.6, V7.8. -/
theorem test_images_built :
    madeOfCounts [(0x61, 1), (0x62, 2), (0x63, 4), (0x64, 8), (0x65, 16)] = some imageC ∧
    madeOfCounts [(0x61, 5), (0x62, 6), (0x63, 7), (0x64, 8)] = some imageD ∧
    made (imageOfInput (List.map (BitVec.ofNat _) [0x61, 0x62, 0x72, 0x61, 0x63, 0x61, 0x64, 0x61, 0x62, 0x72, 0x61]))
      = some imageE ∧
    madeOfCounts [(0x61, 1), (0x62, 1), (0x63, 1)] = some imageT ∧
    madeOfCounts [(0x61, 4)] = some imageB := by decide +kernel
/-- V7.7: four equal counts. -/
theorem test_four_ties : (madeOfCounts [(0x61, 1), (0x62, 1), (0x63, 1), (0x64, 1)]).map Image.generate =
    some [(0x61, [false, false]), (0x64, [false, true]), (0x63, [true, false]), (0x62, [true, true])] := by
  decide +kernel
/-- R187: a count of 0 and a key that comes twice are refused. -/
theorem test_frequency_map_refused : FrequencyMap.ofList ([(0x61, 0)] : List (Symbol × Nat)) = none ∧
    FrequencyMap.ofList ([(0x61, 1), (0x61, 2)] : List (Symbol × Nat)) = none := by decide
/-- R203. -/
theorem test_empty_alphabet : buildTree (analyzeFrequencies ([] : List Symbol)) = .error .emptyAlphabet := by decide
/-- R184: image F of section 1 is the tree of one left child. -/
def treeF : RomTree := .leftOnly 0 (.leaf 1 0x78)
theorem test_one_child_written : made (treeF.make [.struct, .tree, .code, .consistent]) = some imageF ∧
    treeF.make [.treeStrict] = .error (.image (.fails .treeStrict)) := by decide +kernel
/-- R184: numbers that are not distinct, or not in range, are refused. -/
theorem test_numbering_refused : (.both 2 (.leaf 0 0x61) (.leaf 0 0x62) : RomTree).make [] = .error .numbering ∧
    (.leaf 512 0x61 : RomTree).make [] = .error .numbering := by decide +kernel
/-- R166: a tree two of whose leaves carry one symbol is refused. -/
theorem test_shared_symbol_refused : (.both 2 (.leaf 0 0x61) (.leaf 1 0x61) : RomTree).make [] = .error .sharedSymbol := by
  decide +kernel

/-! ## Other parameters (R6 to R8) -/

/-- Parameters with a symbol of 2 bits, an index of 4 and codes of at most 2 bits, of which `CLEN_W` is 2. -/
def small : Params := { symW := 2, idxW := 4, maxCodeLen := 2 }

theorem test_small_widths : small.wellFormed = true ∧ (small.clenW, small.cmdW, small.nodeW, small.codeW) = (2, 5, 12, 5) := by
  decide
theorem test_small_decode : decode (0b11000 : CmdWord small) = .ok (.encSym 3) ∧
    decode (0b01010 : CmdWord small) = .ok (.decBit true) ∧
    decode (0b10010 : CmdWord small) = .error (.strayOperand 2 2) := by decide
/-- Three symbols make an image; four of counts 1, 2, 4, 8 have a code of 3 bits, which no entry holds (R174). -/
theorem test_small_image :
    (imageOfInput ([0, 1, 2] : List (Symbol small))).toOption.isSome = true ∧
    ((FrequencyMap.ofList ([(0, 1), (1, 2), (2, 4), (3, 8)] : List (Symbol small × Nat))).map fun fm =>
      imageOfCounts fm) = some (.error .codeTooLong) := by decide +kernel
/-- R174: a leaf at depth 3 has a code that no entry holds. The tree is refused, and an entry of length 3 does not make it
consistent. -/
def treeDeep : RomTree small := .leftOnly 0 (.leftOnly 1 (.leftOnly 2 (.leaf 3 1)))
theorem test_code_too_long : treeDeep.make [] = .error .codeTooLong ∧
    { treeDeep.image with code := [(1, 0x7)] }.codeOf 1 = some [false, false, false] ∧
    treeDeep.image.generate = [(1, [false, false, false])] ∧
    { treeDeep.image with code := [(1, 0x7)] }.checkConsistent = false := by decide +kernel
/-- An entry of length 3, which the length field holds and `MAX_CODE_LEN` does not allow (U1). -/
def imageSmallLong : Image small := { code := [(0, 0x7), (1, 0xB)], tree := [], root := 0 }
theorem test_small_step :
    (match stepIn ((State.resetWith imageSmallLong).offerFirst (encode (.encSym 1))) with
      | .next t => t.encOut
      | .fault _ => []
      | .refused _ => []) = [.data true] := by decide +kernel

/-! ## Witnesses: concrete states and operands that meet the hypotheses of the statements -/

/-- The only bit strings that lead anywhere in the tree of image A. -/
theorem walk_A (p : BitString) (j : NodeIndex) (h : imageA.walk imageA.root p = some j) :
    (p = [] ∧ j = 2) ∨ (p = [false] ∧ j = 1) ∨ (p = [true] ∧ j = 0) := by
  have l : imageA.child imageA.root false = some 1 := by decide
  have r : imageA.child imageA.root true = some 0 := by decide
  have n : ∀ b, imageA.child 0 b = none ∧ imageA.child 1 b = none := by decide
  match p with
  | [] => simpa [Image.walk, imageA] using h.symm
  | [false] => simpa [Image.walk, l] using h.symm
  | [true] => simpa [Image.walk, r] using h.symm
  | false :: b :: _ => simp only [Image.walk, l, (n b).2, reduceCtorEq] at h
  | true :: b :: _ => simp only [Image.walk, r, (n b).1, reduceCtorEq] at h

theorem reach_A (j : NodeIndex) (h : imageA.Reach j) : j = 2 ∨ j = 1 ∨ j = 0 := by
  obtain ⟨p, hp⟩ := h
  rcases walk_A p j hp with ⟨-, h⟩ | ⟨-, h⟩ | ⟨-, h⟩ <;> simp [h]

theorem witness_strict_A : imageA.WfTreeStrict where
  wfTree :=
    { uniquePaths := by
        intro p q j hp hq
        rcases walk_A p j hp with ⟨rfl, h⟩ | ⟨rfl, h⟩ | ⟨rfl, h⟩ <;>
          rcases walk_A q j hq with ⟨rfl, k⟩ | ⟨rfl, k⟩ | ⟨rfl, k⟩ <;>
          first | rfl | (rw [h] at k; revert k; decide)
      distinctSymbols := by
        intro i j hi hj
        rcases reach_A i hi with rfl | rfl | rfl <;> rcases reach_A j hj with rfl | rfl | rfl <;> decide }
  twoChildren := by
    intro i hi
    rcases reach_A i hi with rfl | rfl | rfl <;> decide

theorem witness_len_A : imageA.LenInRange := by unfold Image.LenInRange; decide +kernel

theorem codes_A (s : Symbol) (p : BitString) : imageA.codeOf s = some p ↔ imageA.Generates s p := by
  have h : ∀ s, imageA.codeOf s =
      if s = 0x61 then some [true] else if s = 0x62 then some [false] else none := by decide +kernel
  simp only [h, Image.Generates, show imageA.rootIsLeaf = false by decide, Bool.false_eq_true, if_false]
  constructor
  · intro e
    split at e
    · cases e; exact ⟨0, by decide, by decide, by subst s; decide⟩
    · split at e
      · cases e; exact ⟨1, by decide, by decide, by subst s; decide⟩
      · cases e
  · rintro ⟨j, hw, hl, rfl⟩
    rcases walk_A p j hw with ⟨rfl, rfl⟩ | ⟨rfl, rfl⟩ | ⟨rfl, rfl⟩ <;> revert hl <;> decide

/-- In an image with (S1) a code of the table has at most `MAX_CODE_LEN` bits. -/
theorem codes_fit {img : Image} (hl : img.LenInRange) (h : ∀ s p, img.codeOf s = some p ↔ img.Generates s p) (s : Symbol)
    (p : BitString) (hg : img.Generates s p) : p.length ≤ Config.maxCodeLen := by
  have hs := hl s
  obtain ⟨hv, rfl⟩ : (img.codeRead s).valid = true ∧ (img.codeRead s).code = p := by
    simpa [Image.codeOf] using (h s p).2 hg
  simp only [CodeEntry.lenOk, hv, Bool.not_true, Bool.false_or, Bool.and_eq_true, decide_eq_true_eq] at hs
  rw [CodeEntry.code, List.length_map, List.length_range]
  exact hs.2

theorem witness_consistent_A : imageA.Consistent := ⟨codes_A, codes_fit witness_len_A codes_A⟩

theorem witness_leaves_A : ∀ x ∈ ([0x61, 0x61, 0x62] : List Symbol), imageA.LeafSymbol x := by
  intro x hx
  fin_cases hx
  · exact ⟨0, ⟨[true], by decide⟩, by decide, by decide⟩
  · exact ⟨0, ⟨[true], by decide⟩, by decide, by decide⟩
  · exact ⟨1, ⟨[false], by decide⟩, by decide, by decide⟩

/-- The tree of image B is one leaf. -/
theorem walk_B (p : BitString) (j : NodeIndex) (h : imageB.walk imageB.root p = some j) : p = [] ∧ j = 0 := by
  have n : ∀ b, imageB.child imageB.root b = none := by decide
  match p with
  | [] => simpa [Image.walk, imageB] using h.symm
  | b :: _ => simp [Image.walk, n b] at h

theorem witness_tree_B : imageB.WfTree ∧ imageB.rootIsLeaf = true where
  left :=
    { uniquePaths := fun p q j hp hq => (walk_B p j hp).1.trans (walk_B q j hq).1.symm
      distinctSymbols := by
        rintro i j ⟨p, hp⟩ ⟨q, hq⟩ - - -
        exact (walk_B p i hp).2.trans (walk_B q j hq).2.symm }
  right := by decide

theorem codes_B (s : Symbol) (p : BitString) : imageB.codeOf s = some p ↔ imageB.Generates s p := by
  have h : ∀ s, imageB.codeOf s = if s = 0x61 then some [false] else none := by decide +kernel
  simp only [h, Image.Generates, show imageB.rootIsLeaf = true by decide, if_true,
    show (imageB.nodeRead imageB.root).symbol = 0x61 by decide]
  constructor
  · intro e
    split at e
    · exact ⟨‹_›, (Option.some.inj e).symm⟩
    · cases e
  · rintro ⟨rfl, rfl⟩; rfl

theorem witness_len_B : imageB.LenInRange := by unfold Image.LenInRange; decide +kernel

theorem witness_consistent_B : imageB.Consistent ∧ imageB.LenInRange ∧ imageB.LeafSymbol 0x61 :=
  ⟨⟨codes_B, codes_fit witness_len_B codes_B⟩, witness_len_B, 0, ⟨[], rfl⟩, by decide, by decide⟩

/-- Image C with the cursor at its inner node 6, in the middle of a code. -/
theorem witness_inv : (at_ imageC 6 false false).Inv where
  cursorPlace := .inr ⟨⟨[false, false], by decide⟩, by decide⟩
  faultAtRoot := by decide
  leafAtRoot := by decide
  imageWf := by decide
  encEnds := by simp [at_, State.resetWith]
  decEnds := by simp [at_, State.resetWith]
  respForm := by simp [at_, State.resetWith]

theorem witness_same_meaning : imageA.SameMeaning imageH where
  root := by decide
  nodes := by
    intro i hi
    rcases reach_A i hi with rfl | rfl | rfl <;> decide
  entries := by decide +kernel

/-- Image A with its leaf 0 moved to index 5. -/
def imageMoved : Image :=
  { imageA with tree := [(1, 0x6200000), (2, 0x2C03), (5, 0x6100000)] }

theorem witness_renumbered : imageA.Renumbered (fun i => if i = 0 then 5 else i) imageMoved where
  injective := by
    intro i j hi hj
    rcases reach_A i hi with rfl | rfl | rfl <;> rcases reach_A j hj with rfl | rfl | rfl <;> decide
  root := by decide
  nodes := by
    intro i hi
    rcases reach_A i hi with rfl | rfl | rfl <;> decide
  code := rfl

/-- A state in which every flag is set and both frames have failed, with an item and a response sent. -/
def busy : State :=
  { at_ imageA 2 true true with
    sUnk := true, sMal := true, sIll := true, encOut := [.data true], decOut := [.data 0x61]
    resp := [{ rcode := .ok, rdata := 0 }] }

/-- One instruction of each constructor, with operands at both ends of their ranges. -/
def everyCommand : List Instr :=
  [.encSym 0x61, .encSym 0, .encSym 0xFF, .encEnd, .decBit false, .decBit true, .decEnd, .rdStatus, .clrStatus,
    .illegalOp6 0, .illegalOp6 0xFF, .illegalOp7 0, .illegalOp7 0xFF]

/-- `exec` has a next state for every constructor; also as the first word of a step, with `rst` 0. -/
theorem witness_next : ∀ i ∈ everyCommand, ∀ s ∈ [State.resetWith imageA, at_ imageC 5 false false, busy],
    (after (exec i s)).isSome = true ∧ (after (step (s.given [i, .rdStatus]))).isSome = true := by decide +kernel

/-- The step and port statements: reset held with a command given, no command given, a word placed. -/
theorem witness_step : (busy.given [.encEnd]).assertReset.rst = true ∧ busy.rst = false ∧ busy.cmds = [] ∧
    (busy.given [.encEnd]).cmds = [0x001] ∧ decode (0x001 : CmdWord) = .ok .encEnd ∧ (busy.given [.encEnd]).rst = false ∧
    decodeTableWord 16 0x7FF = some (.illegalOp7 0xFF) ∧ decodeTableWord 16 0x000 = some (.encSym 0) := by decide

/-- Each clause of the decode statements, at both ends of its operand: `(w mod 8, w / 8)`. -/
theorem witness_word_fields :
    (([0x000, 0x7F8, 0x001, 0x002, 0x00A, 0x003, 0x004, 0x005] : List CmdWord).map fun w =>
      (w.toNat % 8, w.toNat / 8)) = [(0, 0), (0, 255), (1, 0), (2, 0), (2, 1), (3, 0), (4, 0), (5, 0)] ∧
    (([0x006, 0x7FF, 0x009, 0x7F9, 0x00B, 0x00C, 0x7FD, 0x012, 0x7FA] : List CmdWord).map fun w =>
      (w.toNat % 8, w.toNat / 8)) =
      [(6, 0), (7, 255), (1, 1), (1, 255), (3, 1), (4, 1), (5, 255), (2, 2), (2, 255)] := by decide

/-- A word the decoder rejects by name, with its operand at the two ends. -/
theorem witness_stray : decode (0x009 : CmdWord) = .error (.strayOperand 1 1) ∧ decode (0x7FD : CmdWord) = .error (.strayOperand 5 0xFF) := by
  decide

/-- An entry of the greatest length. -/
def imageLong : Image := { imageA with code := [(0x61, 0x1FF)] }

/-- `ENC_SYM`: a failed frame, an absent entry, the shortest and the longest entry. -/
theorem witness_enc_sym : busy.encFault = true ∧ (imageA.codeRead 0x63).valid = false ∧
    (imageA.codeRead 0x61).valid = true ∧ (imageA.codeRead 0x61).len.toNat = 1 ∧
    (imageLong.codeRead 0x61).valid = true ∧ (imageLong.codeRead 0x61).len.toNat = 255 ∧
    (imageLong.code.read 0x61).getLsbD 0 = true ∧ (imageLong.code.read 0x61).toNat / 2 % 256 = 255 ∧
    (State.resetWith imageLong).encFault = false := by decide +kernel

theorem witness_enc_sym_stop :
    exec (.encSym 0x61) (State.resetWith imageBadLen) = .refused .codeEntryUnspecified := by
  have h : ∃ x, x = 0x61 ∧ (imageBadLen.codeRead x).valid = true ∧ (imageBadLen.codeRead x).lenOk = false :=
    ⟨0x61, by decide +kernel⟩
  obtain ⟨x, hx, hv, hl⟩ := h
  rw [← hx]
  simp [exec, execEncSym, State.resetWith, hv, hl]

/-- `DEC_BIT`: a failed frame, a leaf as the root, an absent child, a leaf as the child, an inner node as the child. -/
theorem witness_dec_bit : busy.decFault = true ∧ imageB.rootIsLeaf = true ∧ (State.resetWith imageB).decFault = false ∧
    imageF.rootIsLeaf = false ∧ imageF.child imageF.root true = none ∧
    imageA.rootIsLeaf = false ∧ imageA.child imageA.root true = some 0 ∧ imageA.isLeafAt 0 = true ∧
    imageC.rootIsLeaf = false ∧ imageC.child imageC.root false = some 7 ∧ imageC.isLeafAt 7 = false := by decide

/-- `DEC_END`: a failed frame, a cursor away from the root, and one at it; the flag set by each cause. -/
theorem witness_dec_end : busy.decFault = true ∧ (at_ imageC 5 false false).cursor ≠ imageC.root ∧
    (State.resetWith imageA).cursor = imageA.root ∧
    (after (exec .decEnd (at_ imageC 5 false false))).map (·.sMal) = some true ∧
    (after (exec (.decBit true) (State.resetWith imageF))).map (·.sMal) = some true ∧
    (State.resetWith imageF).sMal = false ∧ (at_ imageC 5 false false).sMal = false := by decide

/-- The sticky flags: each clause's first word. -/
theorem witness_first_word : (busy.given [.decEnd]).cmds.head? = some (encode .decEnd) ∧ busy.decFault = true ∧
    (busy.given [.encEnd]).cmds.head? = some (encode .encEnd) ∧
    (busy.given [.clrStatus]).cmds.head? = some (encode .clrStatus) ∧
    (busy.given [.encEnd]).cmds.head? ≠ some (encode .clrStatus) ∧ (encode .rdStatus : CmdWord) ≠ encode .clrStatus := by decide

/-- The commands of a complete encoder and a complete decoder frame, interleaved. -/
def interleaved : State :=
  (State.resetWith imageA).given [.encSym 0x61, .decBit true, .rdStatus, .encEnd, .illegalOp6 7, .decEnd]

theorem witness_interleaved : (after (runAll interleaved)).isSome = true ∧ interleaved.rst = false ∧
    interleaved.encFault = false ∧ interleaved.decFault = false ∧ interleaved.cursor = imageA.root ∧
    (interleaved.cmds.filter isEncoderWord).getLast? = some (encode .encEnd) ∧
    (interleaved.cmds.filter isDecoderWord).getLast? = some (encode .decEnd) := by decide +kernel

/-- Two states that agree on the encoder half alone, and two that agree on the decoder half alone. -/
theorem witness_halves :
    (busy.encFault = (at_ imageA 0 true false).encFault ∧ busy.image.code = imageA.code) ∧
    (busy.decFault = (at_ imageA 2 false true).decFault ∧ busy.cursor = (at_ imageA 2 false true).cursor ∧
      imageG.tree = imageA.tree ∧ imageG.root = imageA.root ∧ imageG.code ≠ imageA.code) := by decide +kernel

/-- The invariant at reset of image A, for the statements about images. -/
theorem witness_inv_A : (State.resetWith imageA).Inv where
  cursorPlace := .inl rfl
  faultAtRoot := by decide
  leafAtRoot := by decide
  imageWf := by decide
  encEnds := by simp [State.resetWith]
  decEnds := by simp [State.resetWith]
  respForm := by simp [State.resetWith]

/-- Frames that succeed and frames that fail. -/
theorem witness_frames : imageA.encodeFrame [0x61, 0x62] = .ok [true, false] ∧
    imageA.encodeFrame [0x61, 0x63, 0x62] = .error .unknownSymbol ∧ imageA.encodeFrame [] = .ok [] ∧
    imageA.decodeFrame [true, false] = .ok [0x61, 0x62] ∧ imageC.decodeFrame [true, false] = .error .malformedBitstream ∧
    imageF.decodeFrame [true] = .error .malformedBitstream ∧ imageB.decodeFrame [true] = .ok [0x61] ∧
    imageB.encodeFrame [0x61, 0x61] = .ok [false, false] := by decide +kernel

theorem witness_closed : EncClosed [] ∧ EncClosed [.data true, .endFrame .ok] ∧ DecClosed ([] : List DecItem) ∧
    DecClosed ([.data 0x61, .endFrame .malformedBitstream] : List DecItem) :=
  ⟨.inl rfl, .inr ⟨[.data true], .ok, rfl⟩, .inl rfl, .inr ⟨[.data 0x61], .malformedBitstream, rfl⟩⟩

/-- An image in canonical form whose generated codes fit an entry, and a built tree. -/
theorem witness_offline : imageA.wf ∧ (∀ e ∈ imageA.generate, e.2.length ≤ Config.maxCodeLen) ∧
    (buildTree (analyzeFrequencies ([0x61, 0x61, 0x62] : List Symbol))).toOption =
      some (.internal 2 3 (.leaf 1 0x62 1) (.leaf 0 0x61 2)) := by decide +kernel

/-- Frequency maps with no entry, with one and with two, whose numbers fit; and an image made of the last. -/
theorem witness_frequency_maps : (FrequencyMap.empty : FrequencyMap).entries = [] ∧
    (analyzeFrequencies ([0x61] : List Symbol)).entries = [(0x61, 1)] ∧
    (analyzeFrequencies ([0x61, 0x61, 0x62] : List Symbol)).entries = [(0x61, 2), (0x62, 1)] ∧
    2 * 2 - 1 ≤ 2 ^ Config.idxW ∧
    (imageOfCounts (analyzeFrequencies ([0x61, 0x61, 0x62] : List Symbol))).toOption.isSome = true := by decide +kernel

/-- Trees to be written: a leaf at the last index, a node with one child on each side, a node with two. -/
theorem witness_rom_trees :
    ∀ t ∈ ([.leaf 511 0x61, treeF, .rightOnly 3 (.leaf 511 0xFF), .both 2 (.leaf 1 0x62) (.leaf 0 0x61)] : List RomTree),
      t.Numbered ∧ t.symbols.Nodup ∧ (∀ e ∈ t.image.generate, e.2.length ≤ Config.maxCodeLen) := by decide +kernel

/-- Placing an image: under reset and out of it. -/
theorem witness_place : State.reset.assertReset.rst = true ∧ State.reset.rst = false ∧ builtA.image = imageA :=
  ⟨rfl, rfl, rfl⟩

/-- Parameters other than the defaults, in the bounds; a command word with each opcode; `ENC_SYM` of a length of 0, and of
one above `MAX_CODE_LEN`. -/
theorem witness_small : small.wellFormed = true ∧
    (([0x00, 0x01, 0x02, 0x0A, 0x03, 0x04, 0x05, 0x06] : List (CmdWord small)).map fun w => (decode w).toOption.isSome) =
      [true, true, true, true, true, true, true, true] ∧
    (imageSmallLong.codeRead 0).valid = true ∧ (imageSmallLong.codeRead 0).len.toNat = 3 ∧
    (imageSmallLong.codeRead 1).len.toNat = 1 ∧ (State.resetWith imageSmallLong).encFault = false ∧
    (State.resetWith imageSmallLong).rst = false := by decide +kernel

/-- The only bit strings that lead anywhere in the chain of depth 3. -/
theorem walk_deep (p : BitString) (j : NodeIndex small) (h : treeDeep.image.walk treeDeep.image.root p = some j) :
    (p = [] ∧ j = 0) ∨ (p = [false] ∧ j = 1) ∨ (p = [false, false] ∧ j = 2) ∨ (p = [false, false, false] ∧ j = 3) := by
  have c : treeDeep.image.root = 0 ∧ treeDeep.image.child 0 false = some 1 ∧ treeDeep.image.child 1 false = some 2 ∧
      treeDeep.image.child 2 false = some 3 ∧ treeDeep.image.child 0 true = none ∧ treeDeep.image.child 1 true = none ∧
      treeDeep.image.child 2 true = none ∧ ∀ b, treeDeep.image.child 3 b = none := by decide +kernel
  obtain ⟨c0, c1, c2, c3, n0, n1, n2, n3⟩ := c
  rw [c0] at h
  simp only [BitVec.ofNat_eq_ofNat] at *
  match p with
  | [] => simpa [Image.walk] using h.symm
  | [false] => simpa [Image.walk, c1] using h.symm
  | [false, false] => simpa [Image.walk, c1, c2] using h.symm
  | [false, false, false] => simpa [Image.walk, c1, c2, c3] using h.symm
  | true :: _ => simp [Image.walk, n0] at h
  | false :: true :: _ => simp [Image.walk, c1, n1] at h
  | false :: false :: true :: _ => simp [Image.walk, c1, c2, n2] at h
  | false :: false :: false :: b :: _ => simp [Image.walk, c1, c2, c3, n3 b] at h

/-- A tree with `WF_TREE` one of whose codes fits no entry. -/
theorem witness_code_too_long :
    treeDeep.image.WfTree ∧ ∃ e ∈ treeDeep.image.generate, small.maxCodeLen < e.2.length where
  left :=
    { uniquePaths := by
        intro p q j hp hq
        rcases walk_deep p j hp with ⟨rfl, rfl⟩ | ⟨rfl, rfl⟩ | ⟨rfl, rfl⟩ | ⟨rfl, rfl⟩ <;>
          rcases walk_deep q _ hq with ⟨rfl, k⟩ | ⟨rfl, k⟩ | ⟨rfl, k⟩ | ⟨rfl, k⟩ <;>
          first | rfl | exact absurd k (by decide)
      distinctSymbols := by
        rintro i j ⟨p, hp⟩ ⟨q, hq⟩
        rcases walk_deep p i hp with ⟨-, rfl⟩ | ⟨-, rfl⟩ | ⟨-, rfl⟩ | ⟨-, rfl⟩ <;>
          rcases walk_deep q j hq with ⟨-, rfl⟩ | ⟨-, rfl⟩ | ⟨-, rfl⟩ | ⟨-, rfl⟩ <;> decide +kernel }
  right := by decide +kernel

/-- An ordering, and heaps over it that are empty, full and neither. -/
theorem witness_heap : (∀ a b : Nat, decide (a < b) = true → decide (b < a) = false) ∧
    (∀ a b c : Nat, decide (b < a) = false → decide (c < b) = false → decide (c < a) = false) ∧
    Heap.Ordered (fun a b : Nat => decide (a < b)) [1, 3, 3, 5] ∧ Heap.Ordered (fun a b : Nat => decide (a < b)) [] := by
  refine ⟨by simp; omega, by simp; omega, fun i h k => ?_, fun i h k => absurd k (by simp; omega)⟩
  simp at k
  interval_cases i <;> decide

end Sys2Proof.Tests
end

section
/-! What a command does, one equation for each case of its rule, and what every command leaves unchanged. -/

namespace Sys2Proof.Machine

variable {P : Params} {s t : State P}

/-! ### One equation for each case of a command (R112, R114, R132, R136) -/

theorem execEncSym_of_encFault (sym : Symbol P) (hf : s.encFault = true) :
    execEncSym sym s = .next (s.respond .unknownSymbol 0) := by
  simp [execEncSym, hf]

theorem execEncSym_of_absent {sym : Symbol P} (hf : s.encFault = false) (hv : (s.image.codeRead sym).valid = false) :
    execEncSym sym s = .next (s.raise .unknownSymbol) := by
  simp [execEncSym, hf, hv]

theorem execEncSym_of_badLen {sym : Symbol P} (hf : s.encFault = false) (hv : (s.image.codeRead sym).valid = true)
    (hl : (s.image.codeRead sym).lenOk = false) : execEncSym sym s = .refused .codeEntryUnspecified := by
  simp [execEncSym, hf, hv, hl]

theorem execEncSym_of_lenOk {sym : Symbol P} (hf : s.encFault = false) (hv : (s.image.codeRead sym).valid = true)
    (hl : (s.image.codeRead sym).lenOk = true) :
    execEncSym sym s = .next ((s.emitEnc ((s.image.codeRead sym).code.map .data)).respond .ok 0) := by
  simp [execEncSym, hf, hv, hl]

theorem execDecBit_of_decFault (b : Bool) (hf : s.decFault = true) :
    execDecBit b s = .next (s.respond .malformedBitstream 0) := by
  simp [execDecBit, hf]

theorem execDecBit_of_rootIsLeaf (b : Bool) (hf : s.decFault = false) (hr : s.image.rootIsLeaf = true) :
    execDecBit b s = .next ((s.emitDec (.data (s.image.nodeRead s.image.root).symbol)).respond .ok 0) := by
  simp [execDecBit, hf, hr]

theorem execDecBit_of_child_none {b : Bool} (hf : s.decFault = false) (hr : s.image.rootIsLeaf = false)
    (hc : s.image.child s.cursor b = none) : execDecBit b s = .next (s.raise .absentChild) := by
  simp [execDecBit, hf, hr, hc]

theorem execDecBit_of_child_some {b : Bool} {j : NodeIndex P} (hf : s.decFault = false)
    (hr : s.image.rootIsLeaf = false) (hc : s.image.child s.cursor b = some j) :
    execDecBit b s = .next ((s.arriveAt j).respond .ok 0) := by
  simp [execDecBit, hf, hr, hc]

theorem execDecEnd_of_decFault (hf : s.decFault = true) : execDecEnd s = .next (s.closeDec .malformedBitstream) := by
  simp [execDecEnd, hf]

theorem execDecEnd_of_decMid (hf : s.decFault = false) (hm : s.decMid = true) :
    execDecEnd s = .next ((s.raise .truncatedCode).closeDec .malformedBitstream) := by
  simp [execDecEnd, hf, hm]

theorem execDecEnd_of_atRoot (hf : s.decFault = false) (hm : s.decMid = false) :
    execDecEnd s = .next (s.closeDec .ok) := by
  simp [execDecEnd, hf, hm]

/-! ### The commands of each half -/

theorem Instr.encoder_iff {i : Instr P} :
    (i.opcode = 0 ∨ i.opcode = 1) ↔ (∃ sym, i = .encSym sym) ∨ i = .encEnd := by
  cases i <;> simp [Instr.opcode]

theorem Instr.decoder_iff {i : Instr P} :
    (i.opcode = 2 ∨ i.opcode = 3) ↔ (∃ b, i = .decBit b) ∨ i = .decEnd := by
  cases i <;> simp [Instr.opcode]

/-- What the encoder half holds, and the image it reads (R27). -/
def State.encHalf (s : State P) : Bool × List EncItem × Image P := (s.encFault, s.encOut, s.image)

/-- What the decoder half holds, and the image it reads (R27). -/
def State.decHalf (s : State P) : NodeIndex P × Bool × List (DecItem P) × Image P :=
  (s.cursor, s.decFault, s.decOut, s.image)

theorem State.encHalf_eq_iff :
    t.encHalf = s.encHalf ↔ t.encFault = s.encFault ∧ t.encOut = s.encOut ∧ t.image = s.image := by
  simp [State.encHalf]

theorem State.decHalf_eq_iff : t.decHalf = s.decHalf ↔
    t.cursor = s.cursor ∧ t.decFault = s.decFault ∧ t.decOut = s.decOut ∧ t.image = s.image := by
  simp [State.decHalf]

/-! ### Frames -/

/-- No command changes the image, the words still to be given or the reset input (R57, R58). -/
theorem execIn_ports {i : Instr P} (h : execIn i s = .next t) :
    t.image = s.image ∧ t.cmds = s.cmds ∧ t.rst = s.rst := by
  apply execIn_cases (Q := fun _ s t => t.image = s.image ∧ t.cmds = s.cmds ∧ t.rst = s.rst) h <;> simp

theorem sameImage_of_execIn {i : Instr P} (h : execIn i s = .next t) : SameImage s t := by
  obtain ⟨himage, hcmds, hrst⟩ := execIn_ports h
  simp [SameImage, himage, hcmds, hrst]

/-- Only the encoder commands touch the encoder half (R27). -/
theorem execIn_keeps_encHalf {i : Instr P} (hi : ¬ (i.opcode = 0 ∨ i.opcode = 1)) (h : execIn i s = .next t) :
    t.encHalf = s.encHalf := by
  revert hi
  apply execIn_cases (Q := fun i s t => ¬ (i.opcode = 0 ∨ i.opcode = 1) → t.encHalf = s.encHalf) h <;>
    simp [Instr.opcode, State.encHalf]

/-- Only the decoder commands touch the decoder half (R27). -/
theorem execIn_keeps_decHalf {i : Instr P} (hi : ¬ (i.opcode = 2 ∨ i.opcode = 3)) (h : execIn i s = .next t) :
    t.decHalf = s.decHalf := by
  revert hi
  apply execIn_cases (Q := fun i s t => ¬ (i.opcode = 2 ∨ i.opcode = 3) → t.decHalf = s.decHalf) h <;>
    simp [Instr.opcode, State.decHalf]

/-- What an encoder command leaves unchanged. -/
theorem execIn_encoder_frame {i : Instr P} (hi : i.opcode = 0 ∨ i.opcode = 1) (h : execIn i s = .next t) :
    SameDecoder s t ∧ t.sIll = s.sIll ∧ (i = .encEnd → t.sUnk = s.sUnk) := by
  obtain ⟨sym, rfl⟩ | rfl := Instr.encoder_iff.1 hi
  · obtain ⟨-, rfl⟩ | ⟨-, -, rfl⟩ | ⟨-, -, -, rfl⟩ := execEncSym_next h <;> simp [SameDecoder]
  · cases h
    simp [SameDecoder]

/-- What a decoder command leaves unchanged. -/
theorem execIn_decoder_frame {i : Instr P} (hi : i.opcode = 2 ∨ i.opcode = 3) (h : execIn i s = .next t) :
    SameEncoder s t ∧ t.sIll = s.sIll := by
  obtain ⟨b, rfl⟩ | rfl := Instr.decoder_iff.1 hi
  · obtain ⟨-, rfl⟩ | ⟨-, -, rfl⟩ | ⟨-, -, -, rfl⟩ | ⟨-, -, j, -, rfl⟩ := execDecBit_next h <;>
      simp [SameEncoder]
  · obtain ⟨-, rfl⟩ | ⟨-, -, rfl⟩ | ⟨-, -, rfl⟩ := execDecEnd_next h <;> simp [SameEncoder]

/-- Settles O24: no word of the image, no part of the decoder half and no other flag is an encoder
command's to change. -/
theorem encoderCommandsFrame : Obligations.EncoderCommandsFrame := by
  intro i s t hi h
  rw [exec_eq_execIn] at h
  obtain ⟨hdec, hill, hunk⟩ := execIn_encoder_frame hi h
  exact ⟨hdec, hill, sameImage_of_execIn h, hunk⟩

/-- Settles O25: no word of the image, no part of the encoder half and no other flag is a decoder
command's to change. -/
theorem decoderCommandsFrame : Obligations.DecoderCommandsFrame := by
  intro i s t hi h
  rw [exec_eq_execIn] at h
  obtain ⟨henc, hill⟩ := execIn_decoder_frame hi h
  exact ⟨henc, hill, sameImage_of_execIn h⟩

end Sys2Proof.Machine
end

section
/-! A step by its word: the engine runs one word, whatever the word is. -/

namespace Sys2Proof

open Sys2Proof.Machine

variable {P : Params}

/-! ### Words and commands (R80 to R84) -/

/-- A word is its two fields (R80). -/
theorem cmdWord_opcodeOf_operandOf (w : CmdWord P) : cmdWord (opcodeOf w) (operandOf w) = w := by
  apply BitVec.eq_of_getLsbD_eq
  intro k hk
  simp only [cmdWord, opcodeOf, operandOf, BitVec.getLsbD_append, BitVec.getLsbD_extractLsb']
  by_cases h3 : k < 3
  · simp [h3]
  · have : k - 3 < P.symW := by simp only [Params.cmdW] at hk; omega
    simp [h3, this, Nat.add_sub_cancel' (Nat.le_of_not_lt h3)]

theorem zeroOperand_iff {opd : Symbol P} : zeroOperand opd = true ↔ opd = 0 := by simp [zeroOperand]

/-- An operand that `DEC_BIT` allows is the bit it stands for (R82). -/
theorem eq_of_bitOperand {opd : Symbol P} {b : Bool} (h : bitOperand opd = some b) : opd = if b then 1 else 0 := by
  unfold bitOperand at h
  split at h
  · next hs =>
    have hb : opd.getLsbD 0 = b := Option.some.inj h
    apply BitVec.eq_of_getLsbD_eq
    intro k hk
    cases k with
    | zero => rw [hb]; cases b <;> simp [hk]
    | succ k =>
      have hk0 : opd.getLsbD (1 + k) = false := by
        rw [← BitVec.getLsbD_ushiftRight, hs]
        simp
      cases b <;> simp [Nat.add_comm k 1, hk0]
  · cases h

/-- The bit of a `DEC_BIT` is read back from its operand, where a symbol has a bit for it (R6, R82). -/
theorem bitOperand_of_bit (hP : 1 ≤ P.symW) (b : Bool) : bitOperand (if b then 1 else 0 : Symbol P) = some b := by
  have hpos : 0 < P.symW := hP
  have hs : (1 : Symbol P) >>> 1 = 0 := by
    apply BitVec.eq_of_toNat_eq
    have h1 : 1 % 2 ^ P.symW = 1 := Nat.mod_eq_of_lt (Nat.one_lt_two_pow (by omega))
    simp [h1]
  cases b with
  | false => simp [bitOperand]
  | true => simp only [bitOperand, if_true, if_pos hs]; simp [hpos]

/-- The word of the command that a word decodes to is that word: no bit is dropped (R83). -/
theorem encode_of_decode {w : CmdWord P} {i : Instr P} (h : decode w = .ok i) : encode i = w := by
  obtain ⟨hop, hopd⟩ : i.opcode = opcodeOf w ∧ i.operand = operandOf w := by
    simp only [decode] at h
    split_ifs at h with h0 h1 z1 h2 h3 z3 h4 z4 h5 z5 h6
    · cases h; exact ⟨h0.symm, rfl⟩
    · cases h; exact ⟨h1.symm, (zeroOperand_iff.1 z1).symm⟩
    · split at h
      · next b hb => cases h; exact ⟨h2.symm, (eq_of_bitOperand hb).symm⟩
      · cases h
    · cases h; exact ⟨h3.symm, (zeroOperand_iff.1 z3).symm⟩
    · cases h; exact ⟨h4.symm, (zeroOperand_iff.1 z4).symm⟩
    · cases h; exact ⟨h5.symm, (zeroOperand_iff.1 z5).symm⟩
    · cases h; exact ⟨h6.symm, rfl⟩
    · cases h; exact ⟨by simp only [Instr.opcode]; bv_omega, rfl⟩
  rw [encode, hop, hopd, cmdWord_opcodeOf_operandOf]

/-- Decoding inverts encoding, where a symbol has a bit for the operand of `DEC_BIT` (R6, R83). -/
theorem decode_encode (hP : 1 ≤ P.symW) (i : Instr P) : decode (encode i) = .ok i := by
  obtain ⟨hop, hopd⟩ := Laws.WordFields.fields_of_cmdWord i.opcode i.operand
  simp only [decode, encode, hop, hopd]
  cases i with
  | decBit b => simp only [Instr.opcode, Instr.operand, bitOperand_of_bit hP]; rfl
  | _ => simp [Instr.opcode, Instr.operand, zeroOperand]

end Sys2Proof
end

section
/-! One word at a time: what a step does with the word it takes, and a run as one word after another. -/

namespace Sys2Proof.Machine

variable {P : Params}

/-- Run one command word, legal or not: what a step does with the word it has taken (R60, R83, R156). -/
def execWord (w : CmdWord P) (s : State P) : Host.Outcome (State P) Fault Refusal :=
  match decode w with
  | .ok i => execIn i s
  | .error e => execRejected e s

section word

variable {w : CmdWord P} {i : Instr P} {s t : State P}

theorem execWord_of_ok (hd : decode w = .ok i) : execWord w s = execIn i s := by simp [execWord, hd]

theorem execWord_of_error {e : DecodeError P} (hd : decode w = .error e) :
    execWord w s = .next (s.raise .illegalCommand) := by
  simp [execWord, hd, execRejected]

/-- What holds of every command that completes, and of raising IllegalCommand, holds of every word that completes. -/
theorem execWord_cases {Q : State P → State P → Prop} (h : execWord w s = .next t)
    (command : ∀ i, decode w = .ok i → execIn i s = .next t → Q s t)
    (rejected : ∀ e, decode w = .error e → Q s (s.raise .illegalCommand)) : Q s t := by
  cases hd : decode w with
  | ok i => exact command i hd (by rwa [execWord_of_ok hd] at h)
  | error e =>
    rw [execWord_of_error hd] at h
    cases h
    exact rejected e hd

theorem execWord_ports (h : execWord w s = .next t) : t.image = s.image ∧ t.cmds = s.cmds ∧ t.rst = s.rst :=
  execWord_cases (Q := fun s t => t.image = s.image ∧ t.cmds = s.cmds ∧ t.rst = s.rst) h
    (fun _ _ hi => execIn_ports hi) fun _ _ => by simp

/-- The encoder words are those of the encoder commands. -/
theorem isEncoderWord_iff : isEncoderWord w = true ↔ ∃ i, decode w = .ok i ∧ (i.opcode = 0 ∨ i.opcode = 1) := by
  unfold isEncoderWord
  cases decode w with
  | error e => simp
  | ok i => cases i <;> simp [Instr.opcode]

/-- The decoder words are those of the decoder commands. -/
theorem isDecoderWord_iff : isDecoderWord w = true ↔ ∃ i, decode w = .ok i ∧ (i.opcode = 2 ∨ i.opcode = 3) := by
  unfold isDecoderWord
  cases decode w with
  | error e => simp
  | ok i => cases i <;> simp [Instr.opcode]

/-- A word that is no encoder word leaves the encoder half as it is, legal or not (R27). -/
theorem execWord_keeps_encHalf (hw : isEncoderWord w = false) (h : execWord w s = .next t) : t.encHalf = s.encHalf := by
  refine execWord_cases (Q := fun s t => t.encHalf = s.encHalf) h (fun i hd hi => ?_) fun _ _ => by simp [State.encHalf]
  refine execIn_keeps_encHalf (fun hop => ?_) hi
  exact absurd (isEncoderWord_iff.2 ⟨i, hd, hop⟩) (by simp [hw])

/-- A word that is no decoder word leaves the decoder half as it is, legal or not (R27). -/
theorem execWord_keeps_decHalf (hw : isDecoderWord w = false) (h : execWord w s = .next t) : t.decHalf = s.decHalf := by
  refine execWord_cases (Q := fun s t => t.decHalf = s.decHalf) h (fun i hd hi => ?_) fun _ _ => by simp [State.decHalf]
  refine execIn_keeps_decHalf (fun hop => ?_) hi
  exact absurd (isDecoderWord_iff.2 ⟨i, hd, hop⟩) (by simp [hw])

end word

/-! ### Steps and runs at the default parameters -/

section run

variable {s t : State} {w : CmdWord} {ws : List CmdWord}

/-- The engine takes nothing while `rst` is asserted or when no word is given (R260). -/
theorem State.fetch_eq_none : s.fetch = none ↔ s.rst = true ∨ s.cmds = [] := by
  unfold State.fetch
  cases s.rst <;> cases s.cmds <;> simp

/-- A step with a word to take runs that word. -/
theorem step_of_cmds (hr : s.rst = false) (hc : s.cmds = w :: ws) : step s = execWord w { s with cmds := ws } := by
  have hf : s.fetch = some (w, { s with cmds := ws }) := State.fetch_eq_some.2 ⟨hr, ws, hc, rfl⟩
  rw [step_eq_stepIn, stepIn, stepWith, hf]
  rfl

/-- A step does nothing, or runs the oldest word. -/
theorem step_cases (h : step s = .next t) :
    ((s.rst = true ∨ s.cmds = []) ∧ t = s) ∨
    (s.rst = false ∧ ∃ w ws, s.cmds = w :: ws ∧ execWord w { s with cmds := ws } = .next t) := by
  rcases step_next h with ⟨hf, rfl⟩ | ⟨w, i, u, hf, hd, hi⟩ | ⟨w, e, u, hf, hd, rfl⟩
  · exact .inl ⟨State.fetch_eq_none.1 hf, rfl⟩
  · obtain ⟨hr, ws, hc, rfl⟩ := State.fetch_eq_some.1 hf
    exact .inr ⟨hr, w, ws, hc, by rwa [execWord_of_ok hd, ← exec_eq_execIn]⟩
  · obtain ⟨hr, ws, hc, rfl⟩ := State.fetch_eq_some.1 hf
    exact .inr ⟨hr, w, ws, hc, execWord_of_error hd⟩

theorem runAll_of_nil (hc : s.cmds = []) : runAll s = .next s := by simp [runAll, hc, runFor]

/-- Running every word is running the oldest and then the rest. -/
theorem runAll_of_cmds {u : State} (hr : s.rst = false) (hc : s.cmds = w :: ws)
    (h : execWord w { s with cmds := ws } = .next u) : runAll s = runAll u := by
  obtain ⟨-, hcu, -⟩ := execWord_ports h
  simp [runAll, hc, hcu, runFor, step_of_cmds hr hc, h]

/-- A run to the end ran its oldest word to the end. -/
theorem execWord_of_runAll (hr : s.rst = false) (hc : s.cmds = w :: ws) (h : runAll s = .next t) :
    ∃ u, execWord w { s with cmds := ws } = .next u ∧ u.cmds = ws ∧ u.rst = false ∧ runAll u = .next t := by
  cases hu : execWord w { s with cmds := ws } with
  | next u =>
    obtain ⟨-, hcu, hru⟩ := execWord_ports hu
    exact ⟨u, rfl, hcu, hru.trans hr, by rwa [runAll_of_cmds hr hc hu] at h⟩
  | fault r => simp [runAll, hc, runFor, step_of_cmds hr hc, hu] at h
  | refused r => simp [runAll, hc, runFor, step_of_cmds hr hc, hu] at h

end run

end Sys2Proof.Machine
end

section
/-! The invariant of R36, R88, R90 and R28: each operation of the state keeps it, so every step does. -/

namespace Sys2Proof.Machine

variable {P : Params}

/-! ### Where a bit string leads (R30) -/

section walk

variable {img : Image P} {i j : NodeIndex P}

@[simp] theorem Image.walk_nil : img.walk i [] = some i := rfl

theorem Image.walk_cons (b : Bool) (p : BitString) : img.walk i (b :: p) = (img.child i b).bind (img.walk · p) := by
  simp only [Image.walk]
  cases img.child i b <;> rfl

theorem Image.walk_append (p q : BitString) : img.walk i (p ++ q) = (img.walk i p).bind (img.walk · q) := by
  induction p generalizing i with
  | nil => rfl
  | cons b p ih =>
    rw [List.cons_append, Image.walk_cons, Image.walk_cons]
    cases img.child i b with
    | none => rfl
    | some k => exact ih

/-- One more bit leads to the child of where a bit string leads. -/
theorem Image.walk_concat {p : BitString} (hp : img.walk i p = some j) (b : Bool) :
    img.walk i (p ++ [b]) = img.child j b := by
  rw [Image.walk_append, hp]
  simp [Image.walk_cons]

theorem Image.reach_root : img.Reach img.root := ⟨[], rfl⟩

theorem Image.Reach.child (hi : img.Reach i) {b : Bool} (hc : img.child i b = some j) : img.Reach j := by
  obtain ⟨p, hp⟩ := hi
  exact ⟨p ++ [b], (Image.walk_concat hp b).trans hc⟩

end walk

/-! ### Responses -/

/-- The response of every command but `RD_STATUS` (R87). -/
theorem Response.wellFormed_zero (rc : Rcode) : Response.WellFormed { rcode := rc, rdata := 0 } := by
  simp [Response.WellFormed]

/-- `STATUS` has the form of R28, and R36's, where a failed frame has the cursor at the root. -/
theorem State.status_wellFormed {s : State P} (hf : s.decFault = true → s.cursor = s.image.root) (rc : Rcode) :
    Response.WellFormed { rcode := rc, rdata := s.status } := by
  have hd : s.decFault = true → s.decMid = false := fun h => State.decMid_eq_false.2 (hf h)
  revert hd
  simp only [Response.WellFormed, State.status]
  generalize s.decMid = m, s.decFault = f, s.encFault = e, s.sIll = i, s.sMal = l, s.sUnk = k
  revert m f e i l k
  decide

/-! ### The operations of the state -/

namespace State.Inv

variable {s : State P}

theorem respond (h : s.Inv) {rc : Rcode} {rdata : Byte} (hr : Response.WellFormed { rcode := rc, rdata := rdata }) :
    (s.respond rc rdata).Inv :=
  { h with
    respForm := fun r hm => by
      rcases List.mem_append.1 hm with hm | hm
      · exact h.respForm r hm
      · rw [List.mem_singleton.1 hm]
        exact hr }

theorem respond_zero (h : s.Inv) (rc : Rcode) : (s.respond rc 0).Inv := h.respond (Response.wellFormed_zero rc)

theorem emitEnc (h : s.Inv) {items : List EncItem}
    (hi : ∀ st, EncItem.endFrame st ∈ items → st = .ok ∨ st = .unknownSymbol) : (s.emitEnc items).Inv :=
  { h with encEnds := fun st hm => (List.mem_append.1 hm).elim (h.encEnds st) (hi st) }

theorem emitDec (h : s.Inv) {item : DecItem P}
    (hi : ∀ st, DecItem.endFrame st = item → st = .ok ∨ st = .malformedBitstream) : (s.emitDec item).Inv :=
  { h with
    decEnds := fun st hm => (List.mem_append.1 hm).elim (h.decEnds st) fun hm => hi st (List.mem_singleton.1 hm) }

/-- At the root the three clauses about the cursor hold of themselves. -/
theorem moveCursor_root (h : s.Inv) : (s.moveCursor s.image.root).Inv :=
  { h with cursorPlace := .inl rfl, faultAtRoot := fun _ => rfl, leafAtRoot := fun _ => rfl }

theorem arriveAt (h : s.Inv) {j : NodeIndex P} (hj : s.image.Reach j) (hf : s.decFault = false)
    (hr : s.image.rootIsLeaf = false) : (s.arriveAt j).Inv := by
  unfold State.arriveAt
  split
  · exact (h.emitDec (item := .data (s.image.nodeRead j).symbol) (by simp)).moveCursor_root
  · next hl =>
    exact { h with
      cursorPlace := .inr ⟨hj, by simpa using hl⟩
      faultAtRoot := fun hf' => absurd hf' (by simp [hf])
      leafAtRoot := fun hr' => absurd hr' (by simp [hr]) }

theorem clearSticky (h : s.Inv) : s.clearSticky.Inv := { h with }

theorem raise (h : s.Inv) (c : Condition) : (s.raise c).Inv := by
  cases c with
  | unknownSymbol => exact State.Inv.respond_zero (s := { s with encFault := true, sUnk := true }) { h with } _
  | absentChild =>
    exact State.Inv.respond_zero (s := { s with decFault := true, sMal := true, cursor := s.image.root })
      { h with cursorPlace := .inl rfl, faultAtRoot := fun _ => rfl, leafAtRoot := fun _ => rfl } _
  | truncatedCode => exact { h with }
  | illegalCommand => exact State.Inv.respond_zero (s := { s with sIll := true }) { h with } _

theorem closeEnc (h : s.Inv) {st : Rcode} (hst : st = .ok ∨ st = .unknownSymbol) : (s.closeEnc st).Inv :=
  State.Inv.respond_zero (s := { s.emitEnc [.endFrame st] with encFault := false })
    { h.emitEnc (items := [.endFrame st]) (by simpa using hst) with } st

theorem closeDec (h : s.Inv) {st : Rcode} (hst : st = .ok ∨ st = .malformedBitstream) : (s.closeDec st).Inv :=
  State.Inv.respond_zero (s := { s.emitDec (.endFrame st) with decFault := false, cursor := s.image.root })
    { h.emitDec (item := .endFrame st) (by simpa using hst) with
      cursorPlace := .inl rfl, faultAtRoot := fun _ => rfl, leafAtRoot := fun _ => rfl } st

/-- The cursor of a state with the invariant is at a reached node. -/
theorem reach_cursor (h : s.Inv) : s.image.Reach s.cursor := by
  rcases h.cursorPlace with hc | ⟨hc, -⟩
  · rw [hc]
    exact Image.reach_root
  · exact hc

/-- Every command keeps the invariant. -/
theorem of_execIn {i : Instr P} {t : State P} (h : s.Inv) (hi : execIn i s = .next t) : t.Inv := by
  revert h
  apply execIn_cases (Q := fun _ s t => s.Inv → t.Inv) hi
  case encSymFailed => exact fun _ _ h => h.respond_zero _
  case encSymAbsent => exact fun _ _ _ h => h.raise _
  case encSymSent => exact fun _ _ _ _ h => (h.emitEnc (by simp)).respond_zero _
  case encEnd => exact fun h => h.closeEnc (by cases s.encFault <;> simp)
  case decBitFailed => exact fun _ _ h => h.respond_zero _
  case decBitSingle => exact fun _ _ _ h => (h.emitDec (by simp)).respond_zero _
  case decBitAbsent => exact fun _ _ _ _ h => h.raise _
  case decBitMoved => exact fun _ _ hf hr hc h => (h.arriveAt (h.reach_cursor.child hc) hf hr).respond_zero _
  case decEndFailed => exact fun _ h => h.closeDec (.inr rfl)
  case decEndTruncated => exact fun _ _ h => (h.raise _).closeDec (.inr rfl)
  case decEndOk => exact fun _ _ h => h.closeDec (.inl rfl)
  case rdStatus => exact fun h => h.respond (State.status_wellFormed h.faultAtRoot _)
  case clrStatus => exact fun h => h.clearSticky.respond_zero _
  case illegalOp6 => exact fun _ h => h.raise _
  case illegalOp7 => exact fun _ h => h.raise _

theorem of_execWord {w : CmdWord P} {t : State P} (h : s.Inv) (hw : execWord w s = .next t) : t.Inv := by
  revert h
  exact execWord_cases (Q := fun s t => s.Inv → t.Inv) hw (fun _ _ hi h => h.of_execIn hi) fun _ _ h => h.raise _

theorem resetWith {img : Image P} (hw : img.wf) : (State.resetWith img).Inv where
  cursorPlace := .inl rfl
  faultAtRoot := fun _ => rfl
  leafAtRoot := fun _ => rfl
  imageWf := hw
  encEnds := by simp
  decEnds := by simp
  respForm := by simp

end State.Inv

/-- Settles O28, by one lemma for each operation of the state. -/
theorem stepKeepsTheInvariant : Obligations.StepKeepsTheInvariant := by
  intro s t h hs
  obtain ⟨-, rfl⟩ | ⟨-, w, ws, -, hw⟩ := step_cases hs
  · exact h
  · exact State.Inv.of_execWord (s := { s with cmds := ws }) { h with } hw

/-- Settles O29: the blank image is in canonical form. -/
theorem invariantHoldsAtReset : Obligations.InvariantHoldsAtReset :=
  ⟨State.Inv.resetWith BuiltImage.blank.canonical, fun _ hw => State.Inv.resetWith hw⟩

/-- Settles O1. -/
theorem resetLeavesTheSpecValues : Obligations.ResetLeavesTheSpecValues := by
  intro P img
  simp

end Sys2Proof.Machine
end

section
/-! The flags, the fault bits, the cursor and the histories: what each command does to them. -/

namespace Sys2Proof.Machine

variable {P : Params} {i : Instr P} {s t : State P}

/-! ### The sticky flags (R26) -/

/-- Every sticky flag that is set in the first state is set in the second. -/
def StickyKept (s t : State P) : Prop :=
  (s.sUnk = true → t.sUnk = true) ∧ (s.sMal = true → t.sMal = true) ∧ (s.sIll = true → t.sIll = true)

theorem stickyKept_raise (c : Condition) : StickyKept s (s.raise c) := by
  cases c <;> simp +contextual [StickyKept]

theorem execIn_stickyKept (hi : i ≠ .clrStatus) (h : execIn i s = .next t) : StickyKept s t := by
  revert hi
  apply execIn_cases (Q := fun i s t => i ≠ .clrStatus → StickyKept s t) h
  case encSymAbsent | decBitAbsent | illegalOp6 | illegalOp7 => intros; exact stickyKept_raise _
  case clrStatus => exact fun hne => absurd rfl hne
  all_goals intros; simp [StickyKept]

theorem execWord_stickyKept {w : CmdWord P} (hw : w ≠ encode .clrStatus) (h : execWord w s = .next t) :
    StickyKept s t :=
  execWord_cases (Q := StickyKept) h
    (fun _ hd hi => execIn_stickyKept (fun he => hw (by rw [← encode_of_decode hd, he])) hi)
    fun _ _ => stickyKept_raise _

/-- The word of a command runs that command, at the default parameters. -/
theorem execWord_encode (i : Instr) (s : State) : execWord (encode i) s = execIn i s :=
  execWord_of_ok (decode_encode (by decide) i)

/-- A `DEC_END` of a failed frame sets no flag (R26, R136). -/
theorem execDecEnd_sMal (hf : s.decFault = true) (h : execDecEnd s = .next t) : t.sMal = s.sMal := by
  rw [execDecEnd_of_decFault hf] at h
  cases h
  simp

/-- Settles O30. -/
theorem onlyClrStatusClearsStickyFlags : Obligations.OnlyClrStatusClearsStickyFlags := by
  intro s t h
  obtain ⟨hidle, rfl⟩ | ⟨-, w, ws, hc, hw⟩ := step_cases h
  · refine ⟨fun _ => ⟨id, id, id⟩, fun hr hh => ?_, fun _ => rfl, fun _ _ => rfl⟩
    rcases hidle with hr' | hc <;> simp_all
  · simp only [hc, List.head?_cons, Option.some.injEq, ne_eq]
    refine ⟨fun hne => execWord_stickyKept (s := { s with cmds := ws }) hne hw, ?_, ?_, ?_⟩
    · rintro - rfl
      rw [execWord_encode] at hw
      cases hw
      simp
    · rintro rfl
      rw [execWord_encode] at hw
      cases hw
      simp
    · rintro rfl hf
      rw [execWord_encode] at hw
      exact execDecEnd_sMal (s := { s with cmds := ws }) hf hw

/-! ### The histories (R29) -/

/-- Each history of the first state is a beginning of the second's. -/
def HistoriesExtend (s t : State P) : Prop := s.encOut <+: t.encOut ∧ s.decOut <+: t.decOut ∧ s.resp <+: t.resp

theorem historiesExtend_raise (c : Condition) : HistoriesExtend s (s.raise c) := by
  cases c <;> simp [HistoriesExtend]

theorem execIn_historiesExtend (h : execIn i s = .next t) : HistoriesExtend s t := by
  apply execIn_cases (Q := fun _ s t => HistoriesExtend s t) h
  case encSymAbsent | decBitAbsent | illegalOp6 | illegalOp7 => intros; exact historiesExtend_raise _
  all_goals intros; simp [HistoriesExtend]

theorem execWord_historiesExtend {w : CmdWord P} (h : execWord w s = .next t) : HistoriesExtend s t :=
  execWord_cases (Q := HistoriesExtend) h (fun _ _ hi => execIn_historiesExtend hi) fun _ _ => historiesExtend_raise _

/-- Settles O33. -/
theorem historiesOnlyGrow : Obligations.HistoriesOnlyGrow := by
  intro s t h
  obtain ⟨-, rfl⟩ | ⟨-, w, ws, -, hw⟩ := step_cases h
  · exact ⟨List.prefix_rfl, List.prefix_rfl, List.prefix_rfl⟩
  · exact execWord_historiesExtend (s := { s with cmds := ws }) hw

/-! ### The fault bits and the cursor (R22, R23, R24) -/

/-- `ENC_SYM` sets `enc_fault` at an absent entry and never clears it; once it is set no data is sent (R23). -/
theorem execEncSym_encFault {sym : Symbol P} (h : execEncSym sym s = .next t) :
    (t.encFault = true ↔ s.encFault = true ∨ (s.image.codeRead sym).valid = false) ∧
    (s.encFault = true → t.encOut = s.encOut) := by
  obtain ⟨hf, rfl⟩ | ⟨hf, hv, rfl⟩ | ⟨hf, hv, -, rfl⟩ := execEncSym_next h <;> simp [*]

/-- `DEC_BIT` sets `dec_fault` at an absent child and never clears it; once it is set the decoder is still (R24). -/
theorem execDecBit_decFault {b : Bool} (h : execDecBit b s = .next t) :
    (t.decFault = true ↔ s.decFault = true ∨ (s.image.rootIsLeaf = false ∧ s.image.child s.cursor b = none)) ∧
    (s.decFault = true → t.decOut = s.decOut ∧ t.cursor = s.cursor) := by
  obtain ⟨hf, rfl⟩ | ⟨hf, hr, rfl⟩ | ⟨hf, hr, hc, rfl⟩ | ⟨hf, hr, j, hc, rfl⟩ := execDecBit_next h <;>
    simp [*]

/-- `DEC_BIT` leaves the cursor, takes it to the root or to the child it reads (R22). -/
theorem execDecBit_cursor {b : Bool} (h : execDecBit b s = .next t) :
    t.cursor = s.cursor ∨ t.cursor = s.image.root ∨ s.image.child s.cursor b = some t.cursor := by
  obtain ⟨-, rfl⟩ | ⟨-, -, rfl⟩ | ⟨-, -, -, rfl⟩ | ⟨-, -, j, hc, rfl⟩ := execDecBit_next h
  · simp
  · simp
  · simp
  · by_cases hl : s.image.isLeafAt j = true <;> simp [hl, hc]

/-- `DEC_END` ends with the decoder at the root and no failed frame (R136). -/
theorem execDecEnd_quiet (h : execDecEnd s = .next t) : t.cursor = s.image.root ∧ t.decFault = false := by
  obtain ⟨-, rfl⟩ | ⟨-, -, rfl⟩ | ⟨-, -, rfl⟩ := execDecEnd_next h <;> simp

/-- Settles O34. -/
theorem encFaultLastsToTheFrameEnd : Obligations.EncFaultLastsToTheFrameEnd := by
  intro i s t h
  rw [exec_eq_execIn] at h
  by_cases hi : i.opcode = 0 ∨ i.opcode = 1
  · obtain ⟨sym, rfl⟩ | rfl := Instr.encoder_iff.1 hi
    · obtain ⟨hiff, hout⟩ := execEncSym_encFault h
      simpa [hiff] using hout
    · cases h
      simp
  · obtain ⟨hf, hout, -⟩ := State.encHalf_eq_iff.1 (execIn_keeps_encHalf hi h)
    simp only [Instr.encoder_iff, not_or, not_exists] at hi
    simp [hf, hout, hi]

/-- Settles O35. -/
theorem decFaultLastsToTheFrameEnd : Obligations.DecFaultLastsToTheFrameEnd := by
  intro i s t h
  rw [exec_eq_execIn] at h
  by_cases hi : i.opcode = 2 ∨ i.opcode = 3
  · obtain ⟨b, rfl⟩ | rfl := Instr.decoder_iff.1 hi
    · obtain ⟨hiff, hstill⟩ := execDecBit_decFault h
      simpa [hiff] using hstill
    · simp [(execDecEnd_quiet h).2]
  · obtain ⟨hcur, hf, hout, -⟩ := State.decHalf_eq_iff.1 (execIn_keeps_decHalf hi h)
    simp only [Instr.decoder_iff, not_or, not_exists] at hi
    simp [hcur, hf, hout, hi]

/-- Settles O36. -/
theorem cursorTakesRootOrAChild : Obligations.CursorTakesRootOrAChild := by
  intro i s t h
  rw [exec_eq_execIn] at h
  by_cases hi : i.opcode = 2 ∨ i.opcode = 3
  · obtain ⟨b, rfl⟩ | rfl := Instr.decoder_iff.1 hi
    · simpa [Instr.opcode] using execDecBit_cursor h
    · simp [Instr.opcode, (execDecEnd_quiet h).1]
  · obtain ⟨hcur, -⟩ := State.decHalf_eq_iff.1 (execIn_keeps_decHalf hi h)
    simp only [not_or] at hi
    refine ⟨.inl hcur, fun _ _ => hcur, ?_⟩
    rintro rfl
    exact absurd rfl hi.2

end Sys2Proof.Machine
end

section
/-! The two halves (R27): each reads only its own state and its own spaces, so what the other half does in between
changes nothing for it. -/

namespace Sys2Proof.Machine

variable {P : Params}

/-! ### What each half reads -/

section reads

variable {s s' t : State P} {i : Instr P}

/-- In states that agree on what the encoder reads, an encoder command does the same (R27, R110). -/
theorem execIn_encoder_congr (hi : i.opcode = 0 ∨ i.opcode = 1) (hf : s'.encFault = s.encFault)
    (hcode : s'.image.code = s.image.code) (h : execIn i s = .next t) :
    ∃ t' r items, execIn i s' = .next t' ∧ t.encOut = s.encOut ++ items ∧ t'.encOut = s'.encOut ++ items ∧
      t.resp = s.resp ++ [r] ∧ t'.resp = s'.resp ++ [r] ∧ t'.encFault = t.encFault := by
  obtain ⟨sym, rfl⟩ | rfl := Instr.encoder_iff.1 hi
  · have hread : s'.image.codeRead sym = s.image.codeRead sym := by simp [Image.codeRead, hcode]
    obtain ⟨h1, rfl⟩ | ⟨h1, hv, rfl⟩ | ⟨h1, hv, hl, rfl⟩ := execEncSym_next h
    · exact ⟨_, _, [], execEncSym_of_encFault sym (hf.trans h1), by simp, by simp, rfl, rfl, by simp [hf]⟩
    · exact ⟨_, _, [], execEncSym_of_absent (hf.trans h1) (by rw [hread, hv]), by simp, by simp, rfl, rfl, rfl⟩
    · exact ⟨_, _, _, execEncSym_of_lenOk (hf.trans h1) (by rw [hread, hv]) (by rw [hread, hl]), rfl,
        by simp [hread], rfl, rfl, by simp [hf]⟩
  · cases h
    exact ⟨_, _, _, rfl, rfl, by simp [hf], rfl, by simp [hf], rfl⟩

/-- In states that agree on what the decoder reads, a decoder command does the same (R27, R130). -/
theorem execIn_decoder_congr (hi : i.opcode = 2 ∨ i.opcode = 3) (hf : s'.decFault = s.decFault)
    (hcur : s'.cursor = s.cursor) (htree : s'.image.tree = s.image.tree) (hroot : s'.image.root = s.image.root)
    (h : execIn i s = .next t) :
    ∃ t' r items, execIn i s' = .next t' ∧ t.decOut = s.decOut ++ items ∧ t'.decOut = s'.decOut ++ items ∧
      t.resp = s.resp ++ [r] ∧ t'.resp = s'.resp ++ [r] ∧ t'.decFault = t.decFault ∧ t'.cursor = t.cursor := by
  have hnode (k) : s'.image.nodeRead k = s.image.nodeRead k := by simp [Image.nodeRead, htree]
  have hleaf (k) : s'.image.isLeafAt k = s.image.isLeafAt k := by simp [Image.isLeafAt, hnode]
  have hrl : s'.image.rootIsLeaf = s.image.rootIsLeaf := by simp [Image.rootIsLeaf, hleaf, hroot]
  have hchild (b) : s'.image.child s'.cursor b = s.image.child s.cursor b := by simp [Image.child, hnode, hcur]
  have hmid : s'.decMid = s.decMid := by simp [State.decMid, hcur, hroot]
  obtain ⟨b, rfl⟩ | rfl := Instr.decoder_iff.1 hi
  · obtain ⟨h1, rfl⟩ | ⟨h1, hr, rfl⟩ | ⟨h1, hr, hc, rfl⟩ | ⟨h1, hr, j, hc, rfl⟩ := execDecBit_next h
    · exact ⟨_, _, [], execDecBit_of_decFault b (hf.trans h1), by simp, by simp, rfl, rfl, by simp [hf],
        by simp [hcur]⟩
    · exact ⟨_, _, _, execDecBit_of_rootIsLeaf b (hf.trans h1) (hrl.trans hr), rfl, by simp [hnode, hroot], rfl, rfl,
        by simp [hf], by simp [hcur]⟩
    · exact ⟨_, _, [], execDecBit_of_child_none (hf.trans h1) (hrl.trans hr) ((hchild b).trans hc), by simp, by simp,
        rfl, rfl, rfl, by simp [hroot]⟩
    · exact ⟨_, _, _, execDecBit_of_child_some (hf.trans h1) (hrl.trans hr) ((hchild b).trans hc),
        State.arriveAt_decOut j s, by simp [hleaf, hnode], by simp; rfl, by simp, by simp [hf],
        by simp [hleaf, hroot]⟩
  · obtain ⟨h1, rfl⟩ | ⟨h1, hm, rfl⟩ | ⟨h1, hm, rfl⟩ := execDecEnd_next h
    · exact ⟨_, _, _, execDecEnd_of_decFault (hf.trans h1), rfl, rfl, rfl, rfl, rfl, by simp [hroot]⟩
    · exact ⟨_, _, _, execDecEnd_of_decMid (hf.trans h1) (hmid.trans hm), rfl, rfl, rfl, rfl, rfl, by simp [hroot]⟩
    · exact ⟨_, _, _, execDecEnd_of_atRoot (hf.trans h1) (hmid.trans hm), rfl, rfl, rfl, rfl, rfl, by simp [hroot]⟩

end reads

/-- Settles O40. -/
theorem encoderReadsOnlyItsHalf : Obligations.EncoderReadsOnlyItsHalf := by
  intro i s s' t hi hf hcode h
  rw [exec_eq_execIn] at h
  simpa only [exec_eq_execIn] using execIn_encoder_congr hi hf hcode h

/-- Settles O41. -/
theorem decoderReadsOnlyItsHalf : Obligations.DecoderReadsOnlyItsHalf := by
  intro i s s' t hi hf hcur htree hroot h
  rw [exec_eq_execIn] at h
  simpa only [exec_eq_execIn] using execIn_decoder_congr hi hf hcur htree hroot h

/-! ### Each half's own words alone (R27) -/

section alone

variable {w : CmdWord P} {s s' t : State P}

theorem execWord_encHalf_congr (hw : isEncoderWord w = true) (hs : s'.encHalf = s.encHalf)
    (h : execWord w s = .next t) : ∃ t', execWord w s' = .next t' ∧ t'.encHalf = t.encHalf := by
  obtain ⟨i, hd, hi⟩ := isEncoderWord_iff.1 hw
  obtain ⟨hf, hout, himage⟩ := State.encHalf_eq_iff.1 hs
  rw [execWord_of_ok hd] at h
  obtain ⟨t', -, items, h', ht, ht', -, -, hf'⟩ := execIn_encoder_congr hi hf (by rw [himage]) h
  refine ⟨t', by rwa [execWord_of_ok hd], State.encHalf_eq_iff.2 ⟨hf', by rw [ht, ht', hout], ?_⟩⟩
  rw [(execIn_ports h').1, (execIn_ports h).1, himage]

theorem execWord_decHalf_congr (hw : isDecoderWord w = true) (hs : s'.decHalf = s.decHalf)
    (h : execWord w s = .next t) : ∃ t', execWord w s' = .next t' ∧ t'.decHalf = t.decHalf := by
  obtain ⟨i, hd, hi⟩ := isDecoderWord_iff.1 hw
  obtain ⟨hcur, hf, hout, himage⟩ := State.decHalf_eq_iff.1 hs
  rw [execWord_of_ok hd] at h
  obtain ⟨t', -, items, h', ht, ht', -, -, hf', hcur'⟩ :=
    execIn_decoder_congr hi hf hcur (by rw [himage]) (by rw [himage]) h
  refine ⟨t', by rwa [execWord_of_ok hd], State.decHalf_eq_iff.2 ⟨hcur', hf', by rw [ht, ht', hout], ?_⟩⟩
  rw [(execIn_ports h').1, (execIn_ports h).1, himage]

end alone

section run

variable {α : Type} {sel : CmdWord → Bool} {half : State → α}
  (hcmds : ∀ (s : State) (ws : List CmdWord), half { s with cmds := ws } = half s)
  (hkeep : ∀ {w s t}, sel w = false → execWord w s = .next t → half t = half s)
  (hcongr : ∀ {w s s' t}, sel w = true → half s' = half s → execWord w s = .next t →
    ∃ t', execWord w s' = .next t' ∧ half t' = half t)

include hcmds hkeep hcongr in
/-- A part of the state that the selected words alone read and change comes out of a run as it does when the other words
are left out. -/
theorem runAll_filter {s s' t : State} (hr : s.rst = false) (hr' : s'.rst = false)
    (hc : s'.cmds = s.cmds.filter sel) (hs : half s' = half s) (h : runAll s = .next t) :
    ∃ u, runAll s' = .next u ∧ half u = half t := by
  obtain ⟨ws, hws⟩ : ∃ ws, s.cmds = ws := ⟨_, rfl⟩
  induction ws generalizing s s' with
  | nil =>
    rw [runAll_of_nil hws] at h
    cases h
    exact ⟨s', runAll_of_nil (by rw [hc, hws, List.filter_nil]), hs⟩
  | cons w ws ih =>
    obtain ⟨v, hv, hvc, hvr, hrun⟩ := execWord_of_runAll hr hws h
    cases hw : sel w with
    | false =>
      refine ih hvr hr' ?_ ?_ hrun hvc
      · rw [hc, hws, hvc, List.filter_cons_of_neg (by simp [hw])]
      · exact hs.trans ((hkeep hw hv).trans (hcmds s ws)).symm
    | true =>
      have hws' : s'.cmds = w :: ws.filter sel := by rw [hc, hws, List.filter_cons_of_pos hw]
      obtain ⟨v', hv', hhalf⟩ :=
        hcongr (s' := { s' with cmds := ws.filter sel }) hw ((hcmds s' _).trans (hs.trans (hcmds s ws).symm)) hv
      obtain ⟨-, hvc', hvr'⟩ := execWord_ports hv'
      rw [runAll_of_cmds hr' hws' hv']
      exact ih hvr (hvr'.trans hr') (by rw [hvc', hvc]) hhalf hrun hvc

end run

/-- Settles O39: the words of one half leave the other as it is, and do the same whatever the other holds. -/
theorem interleavingDoesNotMatter : Obligations.InterleavingDoesNotMatter := by
  intro s t hr h
  constructor
  · obtain ⟨u, hu, hhalf⟩ := runAll_filter (half := State.encHalf) (fun _ _ => rfl) execWord_keeps_encHalf
      execWord_encHalf_congr hr (s' := { s with cmds := s.cmds.filter isEncoderWord }) hr rfl rfl h
    obtain ⟨hf, hout, -⟩ := State.encHalf_eq_iff.1 hhalf
    exact ⟨u, hu, hout, hf⟩
  · obtain ⟨u, hu, hhalf⟩ := runAll_filter (half := State.decHalf) (fun _ _ => rfl) execWord_keeps_decHalf
      execWord_decHalf_congr hr (s' := { s with cmds := s.cmds.filter isDecoderWord }) hr rfl rfl h
    obtain ⟨hcur, hf, hout, -⟩ := State.decHalf_eq_iff.1 hhalf
    exact ⟨u, hu, hout, hf, hcur⟩

/-! ### Closed frames end quiescent (R37) -/

section closed

variable {sel : CmdWord → Bool} {last : CmdWord} {quiet : State → Prop}
  (hcmds : ∀ (s : State) (ws : List CmdWord), quiet s → quiet { s with cmds := ws })
  (hkeep : ∀ {w s t}, sel w = false → execWord w s = .next t → quiet s → quiet t)
  (hlast : ∀ {s t}, execWord last s = .next t → quiet t)

include hcmds hkeep hlast in
/-- What only the selected words change, and the word `last` makes hold, holds at the end of a run whose last selected
word is `last`, or that has no selected word and starts with it. -/
theorem quiet_of_runAll {s t : State} (hr : s.rst = false) (h : runAll s = .next t)
    (hl : ∀ w, (s.cmds.filter sel).getLast? = some w → w = last) (hs : s.cmds.filter sel = [] → quiet s) :
    quiet t := by
  obtain ⟨ws, hws⟩ : ∃ ws, s.cmds = ws := ⟨_, rfl⟩
  induction ws generalizing s with
  | nil =>
    rw [runAll_of_nil hws] at h
    cases h
    exact hs (by rw [hws, List.filter_nil])
  | cons w ws ih =>
    obtain ⟨v, hv, hvc, hvr, hrun⟩ := execWord_of_runAll hr hws h
    cases hw : sel w with
    | false =>
      have hf : s.cmds.filter sel = v.cmds.filter sel := by rw [hws, hvc, List.filter_cons_of_neg (by simp [hw])]
      exact ih hvr hrun (by rwa [← hf]) (fun he => hkeep hw hv (hcmds s ws (hs (hf.trans he)))) hvc
    | true =>
      have hf : s.cmds.filter sel = w :: v.cmds.filter sel := by rw [hws, hvc, List.filter_cons_of_pos hw]
      refine ih hvr hrun (fun x hx => hl x ?_) (fun he => ?_) hvc
      · rw [hf, List.getLast?_cons, hx]
        rfl
      · obtain rfl : w = last := hl w (by rw [hf, he]; rfl)
        exact hlast hv

end closed

/-- Settles O38: each END command leaves its own half quiescent, and only the half's own words change it. -/
theorem cleanEndIsQuiescent : Obligations.CleanEndIsQuiescent := by
  rintro s t ⟨hef, hdf, hcur⟩ hr henc hdec h
  have hencQuiet : t.encFault = false := by
    refine quiet_of_runAll (quiet := fun s => s.encFault = false) (fun _ _ => id) (fun hw hv hq => ?_)
      (fun hv => ?_) hr h henc fun _ => hef
    · rw [(State.encHalf_eq_iff.1 (execWord_keeps_encHalf hw hv)).1, hq]
    · rw [execWord_encode] at hv
      cases hv
      rfl
  obtain ⟨hdecQuiet, hroot⟩ : t.decFault = false ∧ t.cursor = t.image.root := by
    refine quiet_of_runAll (quiet := fun s => s.decFault = false ∧ s.cursor = s.image.root) (fun _ _ => id)
      (fun hw hv hq => ?_) (fun hv => ?_) hr h hdec fun _ => ⟨hdf, hcur⟩
    · obtain ⟨hcur', hf', -, himage⟩ := State.decHalf_eq_iff.1 (execWord_keeps_decHalf hw hv)
      rwa [hcur', hf', himage]
    · rw [execWord_encode] at hv
      obtain ⟨hroot, hf⟩ := execDecEnd_quiet hv
      exact ⟨hf, by rw [hroot, (execIn_ports hv).1]⟩
  exact ⟨hencQuiet, hdecQuiet, hroot⟩

end Sys2Proof.Machine
end

section
/-! What of an image matters (R32, R100): two images with the same meaning give every command the same outcome. -/

namespace Sys2Proof.Machine

variable {P : Params}

/-! ### What two images with the same meaning agree on -/

namespace Image.SameMeaning

variable {a b : Image P} (h : a.SameMeaning b)
include h

theorem child {i : NodeIndex P} (hi : a.Reach i) (bit : Bool) : b.child i bit = a.child i bit := by
  obtain ⟨hlv, hrv, hleft, hright, -⟩ := h.nodes i hi
  cases bit with
  | false => cases hv : (a.nodeRead i).lv <;> simp_all [Image.child, Node.child]
  | true => cases hv : (a.nodeRead i).rv <;> simp_all [Image.child, Node.child]

theorem isLeafAt {i : NodeIndex P} (hi : a.Reach i) : b.isLeafAt i = a.isLeafAt i := by
  obtain ⟨hlv, hrv, -⟩ := h.nodes i hi
  simp [Image.isLeafAt, Node.isLeaf, hlv, hrv]

theorem symbol {i : NodeIndex P} (hi : a.Reach i) (hl : a.isLeafAt i = true) :
    (b.nodeRead i).symbol = (a.nodeRead i).symbol := by
  obtain ⟨-, -, -, -, hsym⟩ := h.nodes i hi
  exact (hsym hl).symm

theorem rootIsLeaf : b.rootIsLeaf = a.rootIsLeaf := by
  rw [Image.rootIsLeaf, ← h.root]
  exact h.isLeafAt Image.reach_root

theorem valid (sym : Symbol P) : (b.codeRead sym).valid = (a.codeRead sym).valid := (h.entries sym).1.symm

theorem len {sym : Symbol P} (hv : (a.codeRead sym).valid = true) : (b.codeRead sym).len = (a.codeRead sym).len :=
  ((h.entries sym).2 hv).1.symm

theorem lenOk {sym : Symbol P} (hv : (a.codeRead sym).valid = true) :
    (b.codeRead sym).lenOk = (a.codeRead sym).lenOk := by
  simp [CodeEntry.lenOk, h.valid, h.len hv]

theorem code {sym : Symbol P} (hv : (a.codeRead sym).valid = true) : (b.codeRead sym).code = (a.codeRead sym).code := by
  obtain ⟨-, hbits⟩ := (h.entries sym).2 hv
  rw [CodeEntry.code, CodeEntry.code, h.len hv]
  exact List.map_congr_left fun k hk => (hbits k (List.mem_range.1 hk)).symm

end Image.SameMeaning

/-! ### The outcome of a command over the second image -/

/-- The state with another image in place. -/
def State.withImage (b : Image P) (s : State P) : State P := { s with image := b }

section outcome

variable {b : Image P} {s : State P}

@[simp] theorem State.withImage_cursor : (s.withImage b).cursor = s.cursor := rfl
@[simp] theorem State.withImage_encFault : (s.withImage b).encFault = s.encFault := rfl
@[simp] theorem State.withImage_decFault : (s.withImage b).decFault = s.decFault := rfl
@[simp] theorem State.withImage_image : (s.withImage b).image = b := rfl

variable (h : s.image.SameMeaning b)
include h

theorem State.decMid_withImage : (s.withImage b).decMid = s.decMid := by
  simp [State.decMid, h.root]

theorem State.status_withImage : (s.withImage b).status = s.status := by
  simp only [State.status, State.decMid_withImage h]
  rfl

theorem State.raise_withImage (c : Condition) : (s.withImage b).raise c = (s.raise c).withImage b := by
  cases c with
  | absentChild => simp [State.raise, State.respond, State.withImage, h.root]
  | _ => rfl

theorem State.closeDec_withImage (st : Rcode) : (s.withImage b).closeDec st = (s.closeDec st).withImage b := by
  simp [State.closeDec, State.respond, State.emitDec, State.withImage, h.root]

theorem State.arriveAt_withImage {j : NodeIndex P} (hj : s.image.Reach j) :
    (s.withImage b).arriveAt j = (s.arriveAt j).withImage b := by
  unfold State.arriveAt
  rw [State.withImage_image, h.isLeafAt hj]
  split
  · next hl =>
    rw [h.symbol hj hl, ← h.root]
    rfl
  · rfl

/-- The outcome of `ENC_SYM` over the image `b` is its outcome over the image in place, with `b` in its stead. -/
theorem execEncSym_withImage (sym : Symbol P) :
    execEncSym sym (s.withImage b) = mapNext (State.withImage b) (execEncSym sym s) := by
  cases hf : s.encFault with
  | true =>
    rw [execEncSym_of_encFault sym hf, execEncSym_of_encFault sym (by simp [hf])]
    rfl
  | false =>
    have hf' : (s.withImage b).encFault = false := hf
    cases hv : (s.image.codeRead sym).valid with
    | false =>
      rw [execEncSym_of_absent hf hv, execEncSym_of_absent hf' ((h.valid sym).trans hv)]
      rfl
    | true =>
      have hv' := (h.valid sym).trans hv
      cases hl : (s.image.codeRead sym).lenOk with
      | false =>
        rw [execEncSym_of_badLen hf hv hl, execEncSym_of_badLen hf' hv' ((h.lenOk hv).trans hl)]
        rfl
      | true =>
        rw [execEncSym_of_lenOk hf hv hl, execEncSym_of_lenOk hf' hv' ((h.lenOk hv).trans hl), State.withImage_image,
          h.code hv]
        rfl

/-- The same of `DEC_BIT`, from a reached node. -/
theorem execDecBit_withImage (hcur : s.image.Reach s.cursor) (bit : Bool) :
    execDecBit bit (s.withImage b) = mapNext (State.withImage b) (execDecBit bit s) := by
  cases hf : s.decFault with
  | true =>
    rw [execDecBit_of_decFault bit hf, execDecBit_of_decFault bit (by simp [hf])]
    rfl
  | false =>
    have hf' : (s.withImage b).decFault = false := hf
    cases hr : s.image.rootIsLeaf with
    | true =>
      rw [execDecBit_of_rootIsLeaf bit hf hr, execDecBit_of_rootIsLeaf bit hf' (h.rootIsLeaf.trans hr),
        State.withImage_image, ← h.root, h.symbol Image.reach_root hr]
      rfl
    | false =>
      have hr' := h.rootIsLeaf.trans hr
      cases hc : s.image.child s.cursor bit with
      | none =>
        rw [execDecBit_of_child_none hf hr hc, execDecBit_of_child_none hf' hr' ((h.child hcur bit).trans hc),
          State.raise_withImage h]
        rfl
      | some j =>
        rw [execDecBit_of_child_some hf hr hc, execDecBit_of_child_some hf' hr' ((h.child hcur bit).trans hc),
          State.arriveAt_withImage h (hcur.child hc)]
        rfl

/-- The same of `DEC_END`. -/
theorem execDecEnd_withImage : execDecEnd (s.withImage b) = mapNext (State.withImage b) (execDecEnd s) := by
  cases hf : s.decFault with
  | true =>
    rw [execDecEnd_of_decFault hf, execDecEnd_of_decFault (by simp [hf]), State.closeDec_withImage h]
    rfl
  | false =>
    have hf' : (s.withImage b).decFault = false := hf
    cases hm : s.decMid with
    | true =>
      rw [execDecEnd_of_decMid hf hm, execDecEnd_of_decMid hf' ((State.decMid_withImage h).trans hm),
        State.raise_withImage h, State.closeDec_withImage (by rwa [State.raise_image])]
      rfl
    | false =>
      rw [execDecEnd_of_atRoot hf hm, execDecEnd_of_atRoot hf' ((State.decMid_withImage h).trans hm),
        State.closeDec_withImage h]
      rfl

/-- The same of every command, where the cursor is at a reached node, as the invariant says. -/
theorem execIn_withImage (hcur : s.image.Reach s.cursor) (i : Instr P) :
    execIn i (s.withImage b) = mapNext (State.withImage b) (execIn i s) := by
  cases i with
  | encSym sym => exact execEncSym_withImage h sym
  | decBit bit => exact execDecBit_withImage h hcur bit
  | decEnd => exact execDecEnd_withImage h
  | rdStatus =>
    simp only [execIn, execRdStatus, State.status_withImage h]
    rfl
  | encEnd | clrStatus | illegalOp6 opd | illegalOp7 opd => rfl

end outcome

/-- Settles O42: the outcomes over the two images are the same, the image in the state apart. -/
theorem ignoredBitsDoNotMatter : Obligations.IgnoredBitsDoNotMatter := by
  rintro _ b i s hab rfl hinv
  rw [exec_eq_execIn, exec_eq_execIn]
  exact execIn_withImage hab hinv.reach_cursor i

end Sys2Proof.Machine
end

section
/-! The two searches of the image checks (R41): `reached` finds the nodes of a tree in which each has one path, and fails
on any other; `reachable` finds the nodes of any image. -/

namespace Sys2Proof.Machine

variable {P : Params} {img : Image P}

/-! ### Children and counts -/

theorem Image.mem_children {i j : NodeIndex P} : j ∈ img.children i ↔ ∃ b, img.child i b = some j := by
  simp [Image.children, Option.mem_toList]

theorem Image.length_children_le (i : NodeIndex P) : (img.children i).length ≤ 2 := by
  simp only [Image.children, List.length_append]
  cases img.child i false <;> cases img.child i true <;> simp

theorem nodup_length_le {n : Nat} {l : List (BitVec n)} (h : l.Nodup) : l.length ≤ 2 ^ n := by
  have hle := List.Nodup.length_le_card h
  rwa [← FinEnum.card_eq_fintypeCard, FinEnum.card_bitVec] at hle

/-- What holds of the root and of the children of every node it holds of, holds of every reached node. -/
theorem Image.Reach.of_closed {S : NodeIndex P → Prop} (hroot : S img.root)
    (hclosed : ∀ i, S i → ∀ j ∈ img.children i, S j) {j : NodeIndex P} (hj : img.Reach j) : S j := by
  obtain ⟨p, hp⟩ := hj
  revert hp hroot
  generalize img.root = i
  intro hi hp
  induction p generalizing i with
  | nil => cases hp; exact hi
  | cons b p ih =>
    rw [Image.walk_cons, Option.bind_eq_some_iff] at hp
    obtain ⟨k, hk, hp⟩ := hp
    exact ih k (hclosed i hi k (Image.mem_children.2 ⟨b, hk⟩)) hp

/-! ### `reachable` -/

/-- With fuel for the nodes still to come, `closure` holds every node it starts from and the children of every node it
holds. -/
theorem Image.closure_closed {fuel : Nat} {todo seen : List (NodeIndex P)}
    (hfuel : todo.length + 2 * (2 ^ P.idxW - seen.length) ≤ fuel) (hnodup : seen.Nodup)
    (hclosed : ∀ i ∈ seen, ∀ j ∈ img.children i, j ∈ todo ∨ j ∈ seen) :
    (∀ i, i ∈ todo ∨ i ∈ seen → i ∈ img.closure fuel todo seen) ∧
    ∀ i ∈ img.closure fuel todo seen, ∀ j ∈ img.children i, j ∈ img.closure fuel todo seen := by
  induction fuel generalizing todo seen with
  | zero =>
    obtain rfl : todo = [] := List.length_eq_zero_iff.1 (by omega)
    simpa [Image.closure] using hclosed
  | succ fuel ih =>
    cases todo with
    | nil => simpa [Image.closure] using hclosed
    | cons i todo =>
      simp only [List.length_cons] at hfuel
      simp only [Image.closure]
      split
      · next hi =>
        obtain ⟨hstart, hstep⟩ := ih (todo := todo) (seen := seen) (by omega) hnodup (by grind)
        exact ⟨fun j hj => hstart j (by grind), hstep⟩
      · next hi =>
        have hnodup' : (i :: seen).Nodup := List.nodup_cons.2 ⟨hi, hnodup⟩
        have hcard := nodup_length_le hnodup'
        have hlen := img.length_children_le i
        rw [List.length_cons] at hcard
        obtain ⟨hstart, hstep⟩ := ih (todo := img.children i ++ todo) (seen := i :: seen)
          (by simp only [List.length_append, List.length_cons]; omega) hnodup' (by grind)
        exact ⟨fun j hj => hstart j (by grind), hstep⟩

theorem Image.reach_of_mem_closure {fuel : Nat} {todo seen : List (NodeIndex P)} (ht : ∀ i ∈ todo, img.Reach i)
    (hs : ∀ i ∈ seen, img.Reach i) {i : NodeIndex P} (hi : i ∈ img.closure fuel todo seen) : img.Reach i := by
  induction fuel generalizing todo seen with
  | zero => exact hs i hi
  | succ fuel ih =>
    cases todo with
    | nil => exact hs i hi
    | cons k todo =>
      obtain ⟨hk, ht⟩ := List.forall_mem_cons.1 ht
      simp only [Image.closure] at hi
      split at hi
      · exact ih ht hs hi
      · refine ih (fun j hj => ?_) (List.forall_mem_cons.2 ⟨hk, hs⟩) hi
        rcases List.mem_append.1 hj with hj | hj
        · obtain ⟨b, hb⟩ := Image.mem_children.1 hj
          exact hk.child hb
        · exact ht j hj

/-- `reachable` is `Reach`, for every image (R30). -/
theorem Image.mem_reachable {i : NodeIndex P} : i ∈ img.reachable ↔ img.Reach i := by
  obtain ⟨hstart, hstep⟩ := Image.closure_closed (img := img) (fuel := 2 ^ (P.idxW + 1) + 1) (todo := [img.root])
    (seen := []) (by simp; omega) List.nodup_nil (by simp)
  constructor
  · exact Image.reach_of_mem_closure (by simpa using Image.reach_root) (by simp)
  · exact fun hi => hi.of_closed (hstart _ (by simp)) hstep

/-! ### `reached` -/

/-- The children of the node `i` that are present, each with its path, where `p` is the path of `i`. -/
def Image.childPaths (img : Image P) (p : BitString) (i : NodeIndex P) : List (BitString × NodeIndex P) :=
  (img.child i false).toList.map (p ++ [false], ·) ++ (img.child i true).toList.map (p ++ [true], ·)

theorem Image.map_snd_childPaths (p : BitString) (i : NodeIndex P) :
    (img.childPaths p i).map Prod.snd = img.children i := by
  simp [Image.childPaths, Image.children, Function.comp_def]

theorem Image.mem_childPaths {p q : BitString} {i j : NodeIndex P} :
    (q, j) ∈ img.childPaths p i ↔ ∃ b, img.child i b = some j ∧ q = p ++ [b] := by
  simp [Image.childPaths, Option.mem_toList, eq_comm]

theorem Image.nodup_fst_childPaths (p : BitString) (i : NodeIndex P) : ((img.childPaths p i).map Prod.fst).Nodup := by
  unfold Image.childPaths
  cases img.child i false <;> cases img.child i true <;> simp

/-- Where a search of the tree stands, each node that is still to be visited or has been visited with the path that led
to it: no path has come up twice, and the children of the visited nodes have come up. -/
structure Image.Search (img : Image P) (todo seen : List (BitString × NodeIndex P)) : Prop where
  root : ([], img.root) ∈ todo ++ seen
  leads : ∀ e ∈ todo ++ seen, img.walk img.root e.1 = some e.2
  children : ∀ e ∈ seen, ∀ b j, img.child e.2 b = some j → (e.1 ++ [b], j) ∈ todo ++ seen
  paths : ((todo ++ seen).map Prod.fst).Nodup
  parents : ∀ e ∈ todo ++ seen, ∀ p b, e.1 = p ++ [b] → p ∈ seen.map Prod.fst

namespace Image.Search

theorem start : img.Search [([], img.root)] [] where
  root := by simp
  leads := by simp
  children := by simp
  paths := by simp
  parents := by simp

/-- Visiting one node keeps what holds of a search. -/
theorem visitOne {p : BitString} {i : NodeIndex P} {todo seen : List (BitString × NodeIndex P)}
    (h : img.Search ((p, i) :: todo) seen) : img.Search (img.childPaths p i ++ todo) ((p, i) :: seen) := by
  have hperm : (img.childPaths p i ++ todo ++ (p, i) :: seen).Perm
      (img.childPaths p i ++ ((p, i) :: todo ++ seen)) := by
    rw [List.append_assoc]
    exact List.perm_middle.append_left _
  have hmem (e) : e ∈ img.childPaths p i ++ todo ++ (p, i) :: seen ↔
      e ∈ img.childPaths p i ∨ e ∈ (p, i) :: todo ++ seen := by rw [hperm.mem_iff, List.mem_append]
  have hp : p ∉ seen.map Prod.fst := by
    have := h.paths
    grind
  constructor
  · exact (hmem _).2 (.inr h.root)
  · rintro ⟨q, j⟩ he
    rcases (hmem _).1 he with he | he
    · obtain ⟨b, hb, rfl⟩ := Image.mem_childPaths.1 he
      exact (Image.walk_concat (h.leads (p, i) (by simp)) b).trans hb
    · exact h.leads _ he
  · intro e he b j hj
    rw [hmem]
    rcases List.mem_cons.1 he with rfl | he
    · exact .inl (Image.mem_childPaths.2 ⟨b, hj, rfl⟩)
    · exact .inr (h.children e he b j hj)
  · rw [(hperm.map Prod.fst).nodup_iff, List.map_append, List.nodup_append']
    refine ⟨Image.nodup_fst_childPaths p i, h.paths, fun q hq hq' => ?_⟩
    obtain ⟨⟨q, j⟩, hj, rfl⟩ := List.mem_map.1 hq
    obtain ⟨b, -, rfl⟩ := Image.mem_childPaths.1 hj
    obtain ⟨e, he, hqe⟩ := List.mem_map.1 hq'
    exact hp (h.parents e he p b hqe)
  · rintro ⟨q, j⟩ he r b rfl
    rcases (hmem _).1 he with he | he
    · obtain ⟨b', -, hq⟩ := Image.mem_childPaths.1 he
      simp [(List.append_inj' hq rfl).1]
    · exact List.mem_cons_of_mem _ (h.parents _ he r b rfl)

/-- A search that is over has come to every node by every path. -/
theorem mem_of_walk {seen : List (BitString × NodeIndex P)} (h : img.Search [] seen) {p : BitString} {j : NodeIndex P}
    (hp : img.walk img.root p = some j) : (p, j) ∈ seen := by
  induction p using List.reverseRecOn generalizing j with
  | nil => cases hp; exact h.root
  | append_singleton p b ih =>
    obtain ⟨k, hk, -⟩ := Option.bind_eq_some_iff.1 ((Image.walk_append p [b]).symm.trans hp)
    rw [Image.walk_concat hk] at hp
    exact h.children _ (ih hk) b j hp

/-- Where each node has one path, the next node to visit has not been visited. -/
theorem fresh (hu : img.UniquePaths) {p : BitString} {i : NodeIndex P} {todo seen : List (BitString × NodeIndex P)}
    (h : img.Search ((p, i) :: todo) seen) : i ∉ seen.map Prod.snd := by
  intro hi
  obtain ⟨⟨q, j⟩, hq, rfl⟩ := List.mem_map.1 hi
  obtain rfl : q = p := hu q p j (h.leads (q, j) (by simp [hq])) (h.leads (p, j) (by simp))
  have hpaths := h.paths
  rw [List.cons_append, List.map_cons, List.nodup_cons] at hpaths
  exact hpaths.1 (List.mem_map.2 ⟨_, List.mem_append_right _ hq, rfl⟩)

/-- A search that succeeds comes to its end with no node visited twice. -/
theorem of_visit {fuel : Nat} {todo seen : List (BitString × NodeIndex P)} {l : List (NodeIndex P)}
    (h : img.Search todo seen) (hn : (seen.map Prod.snd).Nodup)
    (hv : img.visit fuel (todo.map Prod.snd) (seen.map Prod.snd) = some l) :
    ∃ seen', img.Search [] seen' ∧ l = seen'.map Prod.snd ∧ l.Nodup := by
  induction fuel generalizing todo seen with
  | zero =>
    cases todo with
    | nil => cases hv; exact ⟨seen, h, rfl, hn⟩
    | cons e todo => cases hv
  | succ fuel ih =>
    cases todo with
    | nil => cases hv; exact ⟨seen, h, rfl, hn⟩
    | cons e todo =>
      simp only [List.map_cons, Image.visit] at hv
      split at hv
      · cases hv
      · next hi =>
        exact ih h.visitOne (List.nodup_cons.2 ⟨hi, hn⟩) (by simpa [Image.map_snd_childPaths] using hv)

/-- Where each node has one path, and with fuel for every node, a search succeeds. -/
theorem visit_isSome (hu : img.UniquePaths) {fuel : Nat} {todo seen : List (BitString × NodeIndex P)}
    (h : img.Search todo seen) (hn : (seen.map Prod.snd).Nodup) (hfuel : 2 ^ P.idxW ≤ fuel + seen.length) :
    (img.visit fuel (todo.map Prod.snd) (seen.map Prod.snd)).isSome = true := by
  induction fuel generalizing todo seen with
  | zero =>
    cases todo with
    | nil => rfl
    | cons e todo =>
      have hcard := nodup_length_le (List.nodup_cons.2 ⟨h.fresh hu, hn⟩)
      simp only [List.length_cons, List.length_map] at hcard
      omega
  | succ fuel ih =>
    cases todo with
    | nil => rfl
    | cons e todo =>
      have hi := h.fresh hu
      have := ih h.visitOne (List.nodup_cons.2 ⟨hi, hn⟩) (by simp only [List.length_cons]; omega)
      simpa [Image.visit, hi, Image.map_snd_childPaths] using this

end Image.Search

/-- A search of the whole tree that succeeds shows (T1) and lists `Reach` (R30, R31). -/
theorem Image.of_reached {l : List (NodeIndex P)} (h : img.reached = some l) :
    img.UniquePaths ∧ l.Nodup ∧ ∀ j, j ∈ l ↔ img.Reach j := by
  obtain ⟨seen, hs, rfl, hn⟩ := Image.Search.start.of_visit (by simp) h
  have hinj := List.inj_on_of_nodup_map hn
  refine ⟨fun p q j hp hq => ?_, hn, fun j => ⟨fun hj => ?_, fun ⟨p, hp⟩ => ?_⟩⟩
  · exact congrArg Prod.fst (hinj (hs.mem_of_walk hp) (hs.mem_of_walk hq) rfl)
  · obtain ⟨e, he, rfl⟩ := List.mem_map.1 hj
    exact ⟨e.1, hs.leads e (by simpa using he)⟩
  · exact List.mem_map.2 ⟨_, hs.mem_of_walk hp, rfl⟩

theorem Image.exists_reached (hu : img.UniquePaths) : ∃ l, img.reached = some l :=
  Option.isSome_iff_exists.1 (Image.Search.start.visit_isSome hu (by simp) (by simp))

/-! ### The checks of the tree (R31) -/

theorem Image.checkTree_iff : img.checkTree = true ↔ img.WfTree := by
  unfold Image.checkTree
  split
  · next hnone =>
    refine ⟨nofun, fun ⟨hu, _⟩ => ?_⟩
    obtain ⟨l, hl⟩ := Image.exists_reached hu
    rw [hnone] at hl
    cases hl
  · next l hl =>
    obtain ⟨hu, hn, hmem⟩ := Image.of_reached hl
    rw [decide_eq_true_iff, List.nodup_map_iff_inj_on (hn.filter _)]
    simp only [List.mem_filter, hmem]
    constructor
    · exact fun h => ⟨hu, fun i j hi hj hil hjl he => h i ⟨hi, hil⟩ j ⟨hj, hjl⟩ he⟩
    · exact fun h i hi j hj he => h.distinctSymbols i j hi.1 hj.1 hi.2 hj.2 he

theorem Image.checkTreeStrict_iff : img.checkTreeStrict = true ↔ img.WfTreeStrict := by
  unfold Image.checkTreeStrict
  rw [Bool.and_eq_true, Image.checkTree_iff]
  constructor
  · rintro ⟨ht, hs⟩
    obtain ⟨l, hl⟩ := Image.exists_reached ht.uniquePaths
    obtain ⟨-, -, hmem⟩ := Image.of_reached hl
    simp only [hl, List.all_eq_true, hmem] at hs
    exact ⟨ht, fun i hi hleaf => by simpa [hleaf] using hs i hi⟩
  · rintro ⟨ht, hs⟩
    obtain ⟨l, hl⟩ := Image.exists_reached ht.uniquePaths
    obtain ⟨-, -, hmem⟩ := Image.of_reached hl
    simp only [hl, List.all_eq_true, hmem]
    refine ⟨ht, fun i hi => ?_⟩
    cases hleaf : img.isLeafAt i with
    | true => rfl
    | false => simp [hs i hi hleaf]

end Sys2Proof.Machine
end

section
/-! The generated code table lists the leaf paths of a tree in which each node has one path (R168, R170, R172). -/

namespace Sys2Proof.Machine

variable {P : Params} {img : Image P}

theorem Image.child_eq_none_of_isLeafAt {i : NodeIndex P} (hl : img.isLeafAt i = true) (b : Bool) :
    img.child i b = none := by
  simp only [Image.isLeafAt, Node.isLeaf, Bool.and_eq_true, Bool.not_eq_true'] at hl
  simp [Image.child, Node.child, hl]

/-- The traversal of a node that is no leaf is that of its children. -/
theorem Image.mem_generateFrom_inner {fuel : Nat} {i : NodeIndex P} {path : BitString} {e : Symbol P × BitString}
    (hl : img.isLeafAt i = false) : e ∈ img.generateFrom (fuel + 1) i path ↔
      ∃ b k, img.child i b = some k ∧ e ∈ img.generateFrom fuel k (path ++ [b]) := by
  rw [Bool.exists_bool]
  simp only [Image.generateFrom, hl, Bool.false_eq_true, if_false, List.mem_append]
  cases img.child i false <;> cases img.child i true <;> simp

/-- The traversal from a node records the leaves below it that the fuel suffices for, each with its path. -/
theorem Image.mem_generateFrom {fuel : Nat} {i : NodeIndex P} {path q : BitString} {x : Symbol P} :
    (x, q) ∈ img.generateFrom fuel i path ↔ ∃ p j, q = path ++ p ∧ p.length < fuel ∧ img.walk i p = some j ∧
      img.isLeafAt j = true ∧ (img.nodeRead j).symbol = x := by
  induction fuel generalizing i path with
  | zero => simp [Image.generateFrom]
  | succ fuel ih =>
    cases hl : img.isLeafAt i with
    | true =>
      simp only [Image.generateFrom, hl, if_true, List.mem_singleton, Prod.mk.injEq]
      constructor
      · rintro ⟨rfl, rfl⟩
        exact ⟨[], i, by simp, by simp, rfl, hl, rfl⟩
      · rintro ⟨p, j, rfl, -, hw, -, rfl⟩
        cases p with
        | nil => cases hw; simp
        | cons b p => simp [Image.walk_cons, Image.child_eq_none_of_isLeafAt hl] at hw
    | false =>
      rw [Image.mem_generateFrom_inner hl]
      simp only [ih]
      constructor
      · rintro ⟨b, k, hk, p, j, rfl, hp, hw, hj⟩
        exact ⟨b :: p, j, by simp, by simpa using hp, by simp [Image.walk_cons, hk, hw], hj⟩
      · rintro ⟨p, j, rfl, hp, hw, hj⟩
        cases p with
        | nil => cases hw; simp [hl] at hj
        | cons b p =>
          rw [Image.walk_cons, Option.bind_eq_some_iff] at hw
          obtain ⟨k, hk, hw⟩ := hw
          exact ⟨b, k, hk, p, j, by simp, by simpa using hp, hw, hj⟩

/-- Where each node has one path, a path visits no node twice, so it has fewer bits than there are nodes. -/
theorem Image.UniquePaths.length_lt (hu : img.UniquePaths) {p : BitString} {j : NodeIndex P}
    (hp : img.walk img.root p = some j) : p.length < 2 ^ P.idxW := by
  have hprefix (k : Nat) : ∃ i, img.walk img.root (p.take k) = some i := by
    rw [← List.take_append_drop k p, Image.walk_append, Option.bind_eq_some_iff] at hp
    obtain ⟨i, hi, -⟩ := hp
    exact ⟨i, hi⟩
  choose node hnode using hprefix
  have hinj : Function.Injective fun k : Fin (p.length + 1) => node k := by
    intro k m hkm
    have htake := hu _ _ _ (hnode k) ((hnode m).trans (congrArg some hkm.symm))
    have hlen := congrArg List.length htake
    simp only [List.length_take] at hlen
    exact Fin.ext (by omega)
  have hcard := Fintype.card_le_of_injective _ hinj
  rwa [Fintype.card_fin, ← FinEnum.card_eq_fintypeCard, FinEnum.card_bitVec] at hcard

/-- `Generate` of a tree with (T1) is R170's table. -/
theorem Image.mem_generate (hu : img.UniquePaths) {x : Symbol P} {p : BitString} :
    (x, p) ∈ img.generate ↔ img.Generates x p := by
  unfold Image.generate Image.Generates
  split
  · simp
  · rw [Image.mem_generateFrom]
    constructor
    · rintro ⟨q, j, rfl, -, hw, hj⟩
      exact ⟨j, hw, hj⟩
    · rintro ⟨j, hw, hj⟩
      exact ⟨p, j, rfl, hu.length_lt hw, hw, hj⟩

end Sys2Proof.Machine
end

section
/-! The checks of the ROM words and the building of an image (R35, R41, R100, R174). A check looks at the words that are
not blank; a blank word meets what is checked of it. -/

namespace Sys2Proof.Machine

variable {P : Params} {img : Image P}

/-! ### Blank words -/

theorem Memory.read_eq_blank {w : Nat} {m : Memory w} {a : Nat} (h : ∀ c ∈ m, c.1 ≠ a) :
    m.read a = Memory.blank w := by
  induction m with
  | nil => rfl
  | cons c m ih =>
    obtain ⟨hc, hm⟩ := List.forall_mem_cons.1 h
    rw [Memory.read_cons, if_neg hc, ih hm]

/-- In canonical form the word at a cell's address is the cell's. -/
theorem Memory.read_of_mem {w size : Nat} {m : Memory w} (hm : m.wf size) {c : Nat × BitVec w} (hc : c ∈ m) :
    m.read c.1 = c.2 := by
  induction m with
  | nil => cases hc
  | cons d m ih =>
    obtain ⟨hp, hd⟩ := hm
    rw [List.pairwise_cons] at hp
    rcases List.mem_cons.1 hc with rfl | hc
    · rw [Memory.read_cons, if_pos rfl]
    · rw [Memory.read_cons, if_neg (Nat.ne_of_lt (hp.1 c hc))]
      exact ih ⟨hp.2, fun e he => hd e (List.mem_cons_of_mem _ he)⟩ hc

/-- The entry that the blank word holds. -/
def CodeEntry.blank : CodeEntry P := { valid := false, len := 0, bits := 0 }

/-- The node that the blank word holds. -/
def Node.blank : Node P := { lv := false, left := 0, rv := false, right := 0, symbol := 0 }

theorem CodeEntry.unpack_blank : CodeEntry.unpack (Memory.blank P.codeW) = CodeEntry.blank := by
  simp [CodeEntry.unpack, Memory.blank, CodeEntry.blank]

theorem Node.unpack_blank : Node.unpack (Memory.blank P.nodeW) = Node.blank := by
  simp [Node.unpack, Memory.blank, Node.blank]

theorem Image.codeRead_of_notMem {s : Symbol P} (hs : s ∉ img.codeSymbols) : img.codeRead s = CodeEntry.blank := by
  rw [Image.codeRead, Memory.read_eq_blank, CodeEntry.unpack_blank]
  rintro c hc he
  exact hs (List.mem_map.2 ⟨c, hc, by simp [he]⟩)

theorem Image.treeRead_of_notMem {i : NodeIndex P} (hi : i ∉ img.treeIndices) :
    img.tree.read i.toNat = Memory.blank P.nodeW := by
  apply Memory.read_eq_blank
  rintro c hc he
  exact hi (List.mem_map.2 ⟨c, hc, by simp [he]⟩)

/-- The indices with a cell are those with a word other than zero. -/
theorem Image.mem_treeIndices (hw : img.wf) {i : NodeIndex P} :
    i ∈ img.treeIndices ↔ img.tree.read i.toNat ≠ 0 := by
  refine ⟨fun hi => ?_, fun hi => by_contra fun hn => hi (Image.treeRead_of_notMem hn)⟩
  obtain ⟨-, htree⟩ := hw
  obtain ⟨c, hc, rfl⟩ := List.mem_map.1 hi
  obtain ⟨hlt, hne⟩ := htree.2 c hc
  rw [BitVec.toNat_ofNat, Nat.mod_eq_of_lt hlt, Memory.read_of_mem htree hc]
  exact hne

/-- What holds of the blank entry holds of every entry when it holds of those with a cell. -/
theorem Image.forall_codeSymbols {Q : CodeEntry P → Prop} (hQ : Q CodeEntry.blank) :
    (∀ s ∈ img.codeSymbols, Q (img.codeRead s)) ↔ ∀ s, Q (img.codeRead s) := by
  refine ⟨fun h s => ?_, fun h s _ => h s⟩
  by_cases hs : s ∈ img.codeSymbols
  · exact h s hs
  · rwa [Image.codeRead_of_notMem hs]

theorem Image.forall_treeIndices {Q : Node P → Prop} (hQ : Q Node.blank) :
    (∀ i ∈ img.treeIndices, Q (img.nodeRead i)) ↔ ∀ i, Q (img.nodeRead i) := by
  refine ⟨fun h i => ?_, fun h i _ => h i⟩
  by_cases hi : i ∈ img.treeIndices
  · exact h i hi
  · rwa [Image.nodeRead, Image.treeRead_of_notMem hi, Node.unpack_blank]

/-! ### `WF_CODE` (R35) -/

theorem Image.checkLen_iff : img.checkLen = true ↔ img.LenInRange := by
  rw [Image.checkLen, List.all_eq_true]
  exact Image.forall_codeSymbols (Q := fun e => e.lenOk = true) rfl

/-- The codes of the table are what `CodeOf` gives (R34). -/
theorem Image.mem_codes {s : Symbol P} {p : BitString} : (s, p) ∈ img.codes ↔ img.codeOf s = some p := by
  simp only [Image.codes, List.mem_filterMap, Option.map_eq_some_iff, Prod.mk.injEq]
  constructor
  · rintro ⟨_, -, _, h, rfl, rfl⟩
    exact h
  · refine fun h => ⟨s, by_contra fun hs => ?_, p, h, rfl, rfl⟩
    simp [Image.codeOf, Image.codeRead_of_notMem hs, CodeEntry.blank] at h

theorem Image.checkCode_iff : img.checkCode = true ↔ img.WfCode := by
  have hprefix : (img.codes.all fun e => img.codes.all fun f => e.1 == f.1 || !(e.2.isPrefixOf f.2)) = true ↔
      img.PrefixFree := by
    simp only [List.all_eq_true, Prod.forall, Image.mem_codes, Bool.or_eq_true, beq_iff_eq, Bool.not_eq_true',
      ← Bool.not_eq_true, List.isPrefixOf_iff_prefix, Image.PrefixFree]
    exact ⟨fun h s t p q hst hs ht => (h s p hs t q ht).resolve_left hst,
      fun h s p hs t q ht => or_iff_not_imp_left.2 fun hst => h s t p q hst hs ht⟩
  rw [Image.checkCode, Bool.and_eq_true, Image.checkLen_iff, hprefix]
  exact ⟨fun ⟨hl, hp⟩ => ⟨hl, hp⟩, fun h => ⟨h.lenInRange, h.prefixFree⟩⟩

/-! ### `WF_STRUCT` (R100) -/

/-- (S2) and (S3) of one entry. -/
theorem CodeEntry.ignoredZero_iff {e : CodeEntry P} : e.ignoredZero = true ↔
    (e.valid = true → ∀ k, e.len.toNat ≤ k → e.bits.getLsbD k = false) ∧
    (e.valid = false → e.len = 0 ∧ e.bits = 0) := by
  unfold CodeEntry.ignoredZero
  cases e.valid with
  | false => simp
  | true =>
    simp only [if_true, decide_eq_true_eq, true_implies, Bool.true_eq_false, false_implies, and_true]
    constructor
    · intro h k hk
      have hbit := congrArg (·.getLsbD (k - e.len.toNat)) h
      simpa [BitVec.getLsbD_ushiftRight, Nat.add_sub_cancel' hk] using hbit
    · intro h
      apply BitVec.eq_of_getLsbD_eq
      intro k _
      simp [BitVec.getLsbD_ushiftRight, h]

/-- (S4) and (S5) of one node. -/
theorem Node.ignoredZero_iff {n : Node P} : n.ignoredZero = true ↔
    ((n.lv = false → n.left = 0) ∧ (n.rv = false → n.right = 0)) ∧ (n.isLeaf = false → n.symbol = 0) := by
  simp only [Node.ignoredZero, Bool.and_eq_true, Bool.or_eq_true, beq_iff_eq]
  cases n.lv <;> cases n.rv <;> cases n.isLeaf <;> simp

theorem Image.checkStruct_iff (hw : img.wf) : img.checkStruct = true ↔ img.WfStruct := by
  have hcode : (img.codeSymbols.all fun s => (img.codeRead s).ignoredZero) = true ↔
      ∀ s, (img.codeRead s).ignoredZero = true := by
    rw [List.all_eq_true]
    exact Image.forall_codeSymbols (Q := fun e => e.ignoredZero = true)
      (by simp [CodeEntry.ignoredZero, CodeEntry.blank])
  have hnode : (img.treeIndices.all fun i => (img.nodeRead i).ignoredZero) = true ↔
      ∀ i, (img.nodeRead i).ignoredZero = true := by
    rw [List.all_eq_true]
    exact Image.forall_treeIndices (Q := fun n => n.ignoredZero = true) (by simp [Node.ignoredZero, Node.blank])
  have hreach : (img.treeIndices.all fun i => decide (i ∈ img.reachable)) = true ↔
      ∀ i, ¬ img.Reach i → img.tree.read i.toNat = 0 := by
    simp only [List.all_eq_true, decide_eq_true_eq, Image.mem_reachable, Image.mem_treeIndices hw, ne_eq]
    exact forall_congr' fun i => not_imp_comm
  simp only [Image.checkStruct, Bool.and_eq_true, Image.checkLen_iff, hcode, hnode, hreach, CodeEntry.ignoredZero_iff,
    Node.ignoredZero_iff]
  constructor
  · rintro ⟨⟨⟨hlen, hcode⟩, hnode⟩, hreach⟩
    exact ⟨hlen, fun s k hv hk => (hcode s).1 hv k hk, fun s => (hcode s).2, fun i => (hnode i).1,
      fun i => (hnode i).2, hreach⟩
  · intro h
    exact ⟨⟨⟨h.lenInRange, fun s => ⟨fun hv k hk => h.bitsAboveLen s k hv hk, h.absentEntry s⟩⟩,
      fun i => ⟨h.absentChild i, h.innerSymbol i⟩⟩, h.unreached⟩

/-! ### `CONSISTENT` (R174) -/

theorem Image.checkConsistent_iff (hu : img.UniquePaths) : img.checkConsistent = true ↔ img.Consistent := by
  simp only [Image.checkConsistent, Bool.and_eq_true, List.all_eq_true, decide_eq_true_eq, Image.CodesFit, Prod.forall,
    Image.mem_codes, Image.mem_generate hu]
  constructor
  · rintro ⟨⟨hcode, hgen⟩, hfit⟩
    exact ⟨fun s p => ⟨hcode s p, hgen s p⟩, hfit⟩
  · intro h
    exact ⟨⟨fun s p => (h.holdsTheTable s p).1, fun s p => (h.holdsTheTable s p).2⟩, h.codesFit⟩

/-! ### Building an image (R41) -/

/-- Each check decides its predicate, for an image in canonical form. -/
theorem Image.check_iff (hw : img.wf) (p : ImagePredicate) : img.check p = true ↔ img.Meets p := by
  cases p with
  | struct => exact Image.checkStruct_iff hw
  | tree => exact Image.checkTree_iff
  | treeStrict => exact Image.checkTreeStrict_iff
  | code => exact Image.checkCode_iff
  | consistent =>
    simp only [Image.check, Image.Meets, Bool.and_eq_true, Image.checkTree_iff]
    exact and_congr_right fun ht => Image.checkConsistent_iff ht.uniquePaths

/-- An image is built exactly when it is in canonical form and passes the checks. -/
theorem Image.build_iff {needs : List ImagePredicate} :
    (∃ b, img.build needs = .ok b ∧ b.image = img) ↔
      img.wf ∧ img.checkLen = true ∧ ∀ p ∈ needs, img.check p = true := by
  unfold Image.build
  split_ifs with hw hl
  · cases hf : needs.find? fun p => !img.check p with
    | some p =>
      have hp : img.check p = false := by simpa using List.find?_some hf
      have hmem := List.mem_of_find?_eq_some hf
      simp only [reduceCtorEq, false_and, exists_false, false_iff]
      rintro ⟨-, -, h⟩
      simp [h p hmem] at hp
    | none => exact iff_of_true ⟨_, rfl, rfl⟩ ⟨hw, hl, by simpa using hf⟩
  · simp [hl]
  · simp [hw]

/-- Settles O55, by the correctness of the two searches, of the generated table and of the checks of the words. -/
theorem checksDecideThePredicates : Obligations.ChecksDecideThePredicates := by
  refine fun P => ⟨fun img hw => ⟨Image.checkTree_iff, Image.checkTreeStrict_iff, Image.checkLen_iff,
    Image.checkCode_iff, Image.checkStruct_iff hw, fun ht => Image.checkConsistent_iff ht.uniquePaths⟩,
    fun needs img => ?_⟩
  rw [Image.build_iff, Image.checkLen_iff]
  exact and_congr_right fun hw => and_congr_right fun _ => forall₂_congr fun p _ => Image.check_iff hw p

end Sys2Proof.Machine
end

section
/-! One step of the engine, by the word it takes: what runs, and what it leaves of the image. -/

namespace Sys2Proof.Machine

section anyWidth

variable {P : Params} {s t : State P} {w : CmdWord P} {i : Instr P}
  {run : Instr P → State P → Host.Outcome (State P) Fault Refusal}

/-- With nothing to take, nothing happens. -/
theorem stepWith_of_fetch_none (hf : s.fetch = none) : stepWith run s = .next s := by
  simp [stepWith, hf]

/-- A word taken that is a command is run, in the state it was taken from (R60, R83). -/
theorem stepWith_of_fetch_some (hf : s.fetch = some (w, t)) (hd : decode w = .ok i) : stepWith run s = run i t := by
  simp [stepWith, hf, hd]

/-- The engine takes the oldest word out of reset. -/
theorem State.fetch_of_cmds {ws : List (CmdWord P)} (hr : s.rst = false) (hc : s.cmds = w :: ws) :
    s.fetch = some (w, { s with cmds := ws }) :=
  State.fetch_eq_some.2 ⟨hr, ws, hc, rfl⟩

end anyWidth

/-- Settles O3: with no word to take, the step has nothing to run. -/
theorem stepWaitsForACommand : Obligations.StepWaitsForACommand :=
  fun _ _ hc => stepWith_of_fetch_none (State.fetch_eq_none.2 (.inr hc))

/-- Settles O4: the step with any meaning of the commands runs the decoded one, and `exec` and `execIn` are two such
meanings that agree at the default parameters. -/
theorem stepRunsTheDecodedCommand : Obligations.StepRunsTheDecodedCommand := by
  refine ⟨fun s w ws i hr hc hd => ?_, fun P s w ws i hr hc hd => ?_, fun i s => ?_, fun s => ?_⟩
  · exact stepWith_of_fetch_some (State.fetch_of_cmds hr hc) hd
  · exact stepWith_of_fetch_some (State.fetch_of_cmds hr hc) hd
  · exact (exec_eq_execIn i s).symm
  · exact (step_eq_stepIn s).symm

/-! ### Placing a word -/

/-- A number stands for a command when it fits one word and that word decodes to the command (R80). -/
theorem decodeTableWord_eq_some {nbits w : Nat} {i : Instr} :
    decodeTableWord nbits w = some i ↔ w < 2 ^ Config.cmdW ∧ decode (BitVec.ofNat Config.cmdW w) = .ok i := by
  unfold decodeTableWord
  split
  · next hw => cases decode (BitVec.ofNat Config.cmdW w) <;> simp [Except.toOption, hw]
  · next hw => simp [hw]

/-- The engine takes the placed word, and what is left is the state without it, out of reset. -/
theorem State.fetch_withFetchWord (s : State) (nbits w : Nat) :
    (s.withFetchWord nbits w).fetch = some (BitVec.ofNat Config.cmdW w, { s with rst := false }) :=
  State.fetch_of_cmds rfl rfl

/-- Settles O5: the word placed is the one taken, and taking it gives back the words there were. -/
theorem placedWordRunsNext : Obligations.PlacedWordRunsNext := by
  intro s nbits w i h
  obtain ⟨-, hd⟩ := decodeTableWord_eq_some.1 h
  exact stepWith_of_fetch_some (s.fetch_withFetchWord nbits w) hd

/-! ### The image (R57, R58) -/

/-- A step that has a next state leaves the image as it was. -/
theorem step_image {s t : State} (h : step s = .next t) : t.image = s.image := by
  obtain ⟨-, rfl⟩ | ⟨-, w, ws, -, hw⟩ := step_cases h
  · rfl
  · obtain ⟨himage, -, -⟩ := execWord_ports hw
    exact himage

/-- Settles O27: the image is the same, so every word of it reads the same. -/
theorem noStepWritesTheImage : Obligations.NoStepWritesTheImage := by
  intro s t h
  simp [step_image h]

end Sys2Proof.Machine
end

section
/-! What `ENC_SYM` sends, in bits of the `CODE` word (R66, R96, R112). -/

namespace Sys2Proof.Machine

variable {P : Params}

/-! ### The fields of a `CODE` word as bits and numbers (R96) -/

@[simp] theorem CodeEntry.unpack_valid (w : CodeWord P) : (CodeEntry.unpack w).valid = w.getLsbD 0 := rfl

@[simp] theorem CodeEntry.unpack_len_toNat (w : CodeWord P) :
    (CodeEntry.unpack w).len.toNat = w.toNat / 2 % 2 ^ P.clenW := by
  simp [CodeEntry.unpack, BitVec.extractLsb'_toNat, Nat.shiftRight_eq_div_pow]

theorem CodeEntry.unpack_bits_getLsbD (w : CodeWord P) {k : Nat} (hk : k < P.maxCodeLen) :
    (CodeEntry.unpack w).bits.getLsbD k = w.getLsbD (1 + P.clenW + k) := by
  simp [CodeEntry.unpack, hk, Nat.add_comm 1 P.clenW]

/-- (S1) of a valid entry says that its length is in range (R100). -/
theorem CodeEntry.lenOk_of_bounds {e : CodeEntry P} (h1 : 1 ≤ e.len.toNat) (hmax : e.len.toNat ≤ P.maxCodeLen) :
    e.lenOk = true := by
  simp [CodeEntry.lenOk, h1, hmax]

/-- The code of an entry that fits is the word's bits above its `valid` and `len` fields, lowest first (R34, R66). -/
theorem CodeEntry.unpack_code (w : CodeWord P) (hmax : w.toNat / 2 % 2 ^ P.clenW ≤ P.maxCodeLen) :
    (CodeEntry.unpack w).code = (List.range (w.toNat / 2 % 2 ^ P.clenW)).map fun k => w.getLsbD (1 + P.clenW + k) := by
  rw [CodeEntry.code, CodeEntry.unpack_len_toNat]
  refine List.map_congr_left fun k hk => CodeEntry.unpack_bits_getLsbD w ?_
  exact (List.mem_range.1 hk).trans_le hmax

/-- `ENC_SYM` of a frame not failed, by the symbol's `CODE` word, for all parameters (R66, R112). -/
theorem execEncSym_of_codeWord {sym : Symbol P} {s : State P} {w : CodeWord P} (hw : s.image.code.read sym.toNat = w)
    (hf : s.encFault = false) (hv : w.getLsbD 0 = true) (h1 : 1 ≤ w.toNat / 2 % 2 ^ P.clenW)
    (hmax : w.toNat / 2 % 2 ^ P.clenW ≤ P.maxCodeLen) :
    execEncSym sym s = .next ((s.emitEnc ((List.range (w.toNat / 2 % 2 ^ P.clenW)).map
      fun k => .data (w.getLsbD (1 + P.clenW + k)))).respond .ok 0) := by
  subst hw
  have hvalid : (s.image.codeRead sym).valid = true := by simpa [Image.codeRead] using hv
  have hlen : (s.image.codeRead sym).lenOk = true :=
    CodeEntry.lenOk_of_bounds (by simpa [Image.codeRead] using h1) (by simpa [Image.codeRead] using hmax)
  rw [execEncSym_of_lenOk hf hvalid hlen, Image.codeRead, CodeEntry.unpack_code _ hmax, List.map_map, Function.comp_def]

/-- Settles O14: at the default parameters the length field is bits 8:1 of the word and the code starts at bit 9. -/
theorem encSymSendsTheCodeWordBits : Obligations.EncSymSendsTheCodeWordBits := by
  intro sym s hf hv h1 hmax
  have hclen : Config.params.clenW = 8 := Config.clenW_eq
  have hexec := execEncSym_of_codeWord rfl hf hv (by rwa [hclen]) (by rwa [hclen])
  rw [hclen] at hexec
  exact ⟨_, hexec, by simp, by simp [Responded], by simpa using hf, by simp, by simp, by simp [SameDecoder],
    by simp [SameImage]⟩

end Sys2Proof.Machine
end

section
/-! Command words as numbers: the decode function by the number of a word, and the words it rejects (R80 to R84, R104). -/

namespace Sys2Proof

open Sys2Proof.Machine

variable {P : Params}

/-! ### The fields of a word as numbers (R80) -/

theorem opcodeOf_toNat (w : CmdWord P) : (opcodeOf w).toNat = w.toNat % 8 := by
  simp [opcodeOf, BitVec.extractLsb'_toNat]

theorem operandOf_toNat (w : CmdWord P) : (operandOf w).toNat = w.toNat / 8 := by
  have hw : w.toNat / 8 < 2 ^ P.symW := Nat.div_lt_of_lt_mul (by have := w.isLt; rw [pow_add] at this; omega)
  rw [operandOf, BitVec.extractLsb'_toNat, Nat.shiftRight_eq_div_pow]
  exact Nat.mod_eq_of_lt hw

/-- The operand that `DEC_BIT` allows is the number of its bit, whatever the width of a symbol (R82). -/
theorem bitOperand_eq_some {opd : Symbol P} {b : Bool} : bitOperand opd = some b ↔ opd.toNat = b.toNat := by
  have hshift : opd >>> 1 = 0 ↔ opd.toNat / 2 = 0 := by
    rw [← BitVec.toNat_inj, BitVec.toNat_ushiftRight, Nat.shiftRight_eq_div_pow]
    simp
  have hbit : opd.getLsbD 0 = decide (opd.toNat % 2 = 1) := by simp [BitVec.getLsbD, Nat.testBit_zero]
  simp only [bitOperand, hshift, hbit]
  split
  · cases b <;> simp <;> omega
  · cases b <;> simp <;> omega

/-! ### Decoding by the number of a word (R83) -/

/-- The number in the operand field of a command (R81, R82). It is `operand` as a number where a symbol has a bit for
the operand of `DEC_BIT` (R6). -/
def Instr.operandNat : Instr P → Nat
  | .encSym s => s.toNat
  | .decBit b => b.toNat
  | .illegalOp6 opd => opd.toNat
  | .illegalOp7 opd => opd.toNat
  | .encEnd | .decEnd | .rdStatus | .clrStatus => 0

theorem fields_of_decode {w : CmdWord P} {i : Instr P} (h : decode w = .ok i) :
    opcodeOf w = i.opcode ∧ operandOf w = i.operand := by
  rw [← encode_of_decode h]
  exact Laws.WordFields.fields_of_cmdWord _ _

/-- A word decodes to the command whose opcode and operand are its two fields, as numbers, and to no other. -/
theorem decode_eq_ok_iff {w : CmdWord P} {i : Instr P} :
    decode w = .ok i ↔ w.toNat % 8 = i.opcode.toNat ∧ w.toNat / 8 = i.operandNat := by
  rw [← opcodeOf_toNat, ← operandOf_toNat, BitVec.toNat_inj]
  constructor
  · intro h
    obtain ⟨hop, hopd⟩ := fields_of_decode h
    refine ⟨hop, ?_⟩
    cases i with
    | decBit b =>
      cases hb : bitOperand (operandOf w) with
      | none => simp [decode, hop, Instr.opcode, hb] at h
      | some c =>
        obtain rfl : c = b := by simpa [decode, hop, Instr.opcode, hb] using h
        exact bitOperand_eq_some.1 hb
    | _ => simp [hopd, Instr.operand, Instr.operandNat]
  · rintro ⟨hop, hopd⟩
    cases i with
    | decBit b => simp [decode, hop, Instr.opcode, bitOperand_eq_some.2 hopd]
    | encSym opd | illegalOp6 opd | illegalOp7 opd =>
      simp [decode, hop, Instr.opcode, BitVec.eq_of_toNat_eq hopd]
    | _ =>
      have hz : operandOf w = 0 := BitVec.eq_of_toNat_eq (by simpa [Instr.operandNat] using hopd)
      simp [decode, hop, Instr.opcode, zeroOperand, hz]

/-- The one error of the decoder names the two fields of the word (R84). -/
theorem fields_of_decode_error {w : CmdWord P} {e : DecodeError P} (h : decode w = .error e) :
    e = .strayOperand (opcodeOf w) (operandOf w) := by
  simp only [decode] at h
  split_ifs at h
  case pos => split at h <;> cases h; rfl
  all_goals cases h; rfl

/-- Settles O8: the rejected words are their two fields as well, which `strayOperand` names. -/
theorem decodeAndEncodeAreInverse : Obligations.DecodeAndEncodeAreInverse := by
  intro P hP
  have hsym : 1 ≤ P.symW := by
    simp only [Params.wellFormed, Bool.and_eq_true, decide_eq_true_eq] at hP
    omega
  refine ⟨decode_encode hsym, fun w i h => encode_of_decode h, fun w op opd h => ?_⟩
  cases fields_of_decode_error h
  rw [opcodeOf_toNat, operandOf_toNat, Nat.mod_add_div]

theorem decode_eq_encSym {w : CmdWord P} (hop : w.toNat % 8 = 0) : decode w = .ok (.encSym (operandOf w)) :=
  decode_eq_ok_iff.2 ⟨hop, (operandOf_toNat w).symm⟩

theorem decode_eq_decBit {w : CmdWord P} (hop : w.toNat % 8 = 2) (hopd : w.toNat / 16 = 0) :
    decode w = .ok (.decBit (decide (w.toNat / 8 % 2 = 1))) := by
  refine decode_eq_ok_iff.2 ⟨hop, ?_⟩
  have hbit : w.toNat / 8 = 0 ∨ w.toNat / 8 = 1 := by omega
  rcases hbit with h | h <;> simp [h, Instr.operandNat]

theorem exists_decode_encSym_iff {w : CmdWord P} : (∃ s, decode w = .ok (.encSym s)) ↔ w.toNat % 8 = 0 :=
  ⟨fun ⟨_, h⟩ => (decode_eq_ok_iff.1 h).1, fun h => ⟨_, decode_eq_encSym h⟩⟩

theorem exists_decode_decBit_iff {w : CmdWord P} :
    (∃ b, decode w = .ok (.decBit b)) ↔ w.toNat % 8 = 2 ∧ w.toNat / 16 = 0 := by
  constructor
  · rintro ⟨b, h⟩
    obtain ⟨hop, hopd⟩ := decode_eq_ok_iff.1 h
    have hb : b.toNat < 2 := b.toNat_lt
    simp only [Instr.operandNat] at hopd
    exact ⟨hop, by omega⟩
  · exact fun ⟨hop, hopd⟩ => ⟨_, decode_eq_decBit hop hopd⟩

/-- The legal words are those of the commands below the two reserved opcodes (R84). -/
theorem isIllegal_eq_false_iff {w : CmdWord P} :
    isIllegal w = false ↔ ∃ i, decode w = .ok i ∧ i.opcode.toNat < 6 := by
  unfold isIllegal
  cases decode w with
  | error e => simp
  | ok i => cases i <;> simp [Instr.opcode]

/-- The illegal words, by number: their fields are those of no legal command (R83, R84). -/
theorem isIllegal_iff {w : CmdWord P} : isIllegal w = true ↔ ¬ (w.toNat % 8 = 0 ∨
    (w.toNat % 8 ∈ [1, 3, 4, 5] ∧ w.toNat / 8 = 0) ∨ (w.toNat % 8 = 2 ∧ w.toNat / 16 = 0)) := by
  rw [← Bool.not_eq_false, isIllegal_eq_false_iff, not_iff_not]
  constructor
  · rintro ⟨i, hd, hlegal⟩
    obtain ⟨hop, hopd⟩ := decode_eq_ok_iff.1 hd
    cases i with
    | encSym sym => exact .inl hop
    | decBit b => exact .inr (.inr (exists_decode_decBit_iff.1 ⟨b, hd⟩))
    | illegalOp6 opd | illegalOp7 opd => simp [Instr.opcode] at hlegal
    | encEnd | decEnd | rdStatus | clrStatus => exact .inr (.inl ⟨by simp [hop, Instr.opcode], hopd⟩)
  · rintro (hop | ⟨hop, hopd⟩ | ⟨hop, hopd⟩)
    · exact ⟨_, decode_eq_encSym hop, by simp [Instr.opcode]⟩
    · simp only [List.mem_cons, List.not_mem_nil, or_false] at hop
      rcases hop with hop | hop | hop | hop
      · exact ⟨.encEnd, decode_eq_ok_iff.2 ⟨hop, hopd⟩, by simp [Instr.opcode]⟩
      · exact ⟨.decEnd, decode_eq_ok_iff.2 ⟨hop, hopd⟩, by simp [Instr.opcode]⟩
      · exact ⟨.rdStatus, decode_eq_ok_iff.2 ⟨hop, hopd⟩, by simp [Instr.opcode]⟩
      · exact ⟨.clrStatus, decode_eq_ok_iff.2 ⟨hop, hopd⟩, by simp [Instr.opcode]⟩
    · exact ⟨_, decode_eq_decBit hop hopd, by simp [Instr.opcode]⟩

/-- Settles O9: the legal cases give the command of the two fields, and `isIllegal_iff` is the last case. -/
theorem decodeFollowsThePseudocode : Obligations.DecodeFollowsThePseudocode := by
  intro P w
  refine ⟨fun h => ?_, fun h => decode_eq_ok_iff.2 h, fun ⟨hop, hopd⟩ => decode_eq_decBit hop hopd,
    fun h => decode_eq_ok_iff.2 h, fun h => decode_eq_ok_iff.2 h, fun h => decode_eq_ok_iff.2 h, isIllegal_iff⟩
  rw [← operandOf_toNat, BitVec.ofNat_toNat, BitVec.setWidth_eq]
  exact decode_eq_encSym h

/-! ### Match and mask, at the default parameters (R104) -/

section mask

variable {w : CmdWord}

/-- The mask of a row whose operand is free keeps the opcode. -/
theorem and_opcodeMask_toNat : (w &&& 0x007).toNat = w.toNat % 8 :=
  (BitVec.toNat_and _ _).trans (Nat.and_two_pow_sub_one_eq_mod w.toNat 3)

/-- The mask of a row with no free bit keeps the word. -/
theorem and_wordMask (w : CmdWord) : w &&& 0x7FF = w := BitVec.and_allOnes

theorem and_wordMask_eq_iff {k : CmdWord} {n : Nat} (hk : k.toNat = n) : w &&& 0x7FF = k ↔ w.toNat = n := by
  rw [and_wordMask, ← BitVec.toNat_inj, hk]

theorem and_opcodeMask_eq_zero_iff : w &&& 0x007 = 0x000 ↔ w.toNat % 8 = 0 := by
  rw [← and_opcodeMask_toNat]
  exact BitVec.toNat_inj.symm

/-- The mask of `DEC_BIT` keeps everything but bit 3, which is the bit. -/
theorem and_bitMask_eq_two_iff : w &&& 0x7F7 = 0x002 ↔ w.toNat % 8 = 2 ∧ w.toNat / 16 = 0 := by
  have hw : w.toNat < 2 ^ 11 := w.isLt
  have hlow : (w.toNat &&& 0x7F7) % 2 ^ 4 = w.toNat % 2 ^ 4 % 2 ^ 3 := by
    rw [Nat.and_mod_two_pow]
    exact Nat.and_two_pow_sub_one_eq_mod _ 3
  have hhigh : (w.toNat &&& 0x7F7) / 2 ^ 4 = w.toNat / 2 ^ 4 % 2 ^ 7 := by
    rw [Nat.and_div_two_pow]
    exact Nat.and_two_pow_sub_one_eq_mod _ 7
  calc w &&& 0x7F7 = 0x002
    _ ↔ w.toNat &&& 0x7F7 = 2 := BitVec.toNat_inj.symm
    _ ↔ w.toNat % 8 = 2 ∧ w.toNat / 16 = 0 := by omega

/-- A word decodes to a command when it is the word of that command (R80, R83). -/
theorem decode_eq_ok_iff_eq_encode {i : Instr} : decode w = .ok i ↔ w = encode i :=
  ⟨fun h => (encode_of_decode h).symm, fun h => h ▸ decode_encode (by decide) i⟩

theorem decode_eq_ok_iff_and_wordMask {i : Instr} : decode w = .ok i ↔ w &&& 0x7FF = encode i := by
  rw [and_wordMask, decode_eq_ok_iff_eq_encode]

end mask

/-- Settles O10: each row by its mask, and a word is illegal when its number is that of no row. -/
theorem matchAndMaskSelectTheCommand : Obligations.MatchAndMaskSelectTheCommand := by
  intro w
  refine ⟨exists_decode_encSym_iff.trans and_opcodeMask_eq_zero_iff.symm, decode_eq_ok_iff_and_wordMask,
    exists_decode_decBit_iff.trans and_bitMask_eq_two_iff.symm, decode_eq_ok_iff_and_wordMask,
    decode_eq_ok_iff_and_wordMask, decode_eq_ok_iff_and_wordMask, ?_⟩
  have h1 : w &&& 0x7FF = 0x001 ↔ w.toNat = 1 := and_wordMask_eq_iff rfl
  have h3 : w &&& 0x7FF = 0x003 ↔ w.toNat = 3 := and_wordMask_eq_iff rfl
  have h4 : w &&& 0x7FF = 0x004 ↔ w.toNat = 4 := and_wordMask_eq_iff rfl
  have h5 : w &&& 0x7FF = 0x005 ↔ w.toNat = 5 := and_wordMask_eq_iff rfl
  rw [isIllegal_iff]
  simp only [ne_eq, and_opcodeMask_eq_zero_iff, and_bitMask_eq_two_iff, h1, h3, h4, h5, List.mem_cons,
    List.not_mem_nil, or_false]
  omega

/-- Settles O7: each word is the word of its command, so decoding gives the command back. -/
theorem sampleWordsDecode : Obligations.SampleWordsDecode := by
  simp only [Obligations.SampleWordsDecode, decode_eq_ok_iff_eq_encode]
  decide

end Sys2Proof
end

section
/-! The words on the output ports and the words of the image by their layouts (R86 to R90, R96, R98). -/

namespace Sys2Proof.Machine

variable {P : Params}

/-! ### The output ports (R86 to R90) -/

/-- A response word as a number: `rdata` above the two bits of `rcode` (R87). -/
theorem Response.word_toNat (r : Response) : r.word.toNat = 4 * r.rdata.toNat + r.rcode.code.toNat := by
  rw [Response.word, BitVec.toNat_append, ← Nat.shiftLeft_add_eq_or_of_lt r.rcode.code.isLt, Nat.shiftLeft_eq]
  omega

/-- The two fields of a response word (R87). -/
theorem Response.word_fields (r : Response) :
    r.word.toNat % 4 = r.rcode.code.toNat ∧ r.word.toNat / 4 = r.rdata.toNat := by
  have hcode : r.rcode.code.toNat < 4 := r.rcode.code.isLt
  rw [Response.word_toNat]
  omega

/-- A payload of `dec_out` is wide enough for a symbol (R90). -/
theorem DecItem.portWord_data (sym : Symbol P) :
    (DecItem.data sym).portWord.1 = 0 ∧ (DecItem.data sym).portWord.2.toNat = sym.toNat :=
  ⟨rfl, BitVec.toNat_setWidth_of_le (le_max_left _ _)⟩

/-- A payload of `dec_out` is wide enough for a condition code (R90). -/
theorem DecItem.portWord_endFrame (st : Rcode) : (DecItem.endFrame st : DecItem P).portWord.1 = 1 ∧
    (DecItem.endFrame st : DecItem P).portWord.2.toNat = st.code.toNat :=
  ⟨rfl, BitVec.toNat_setWidth_of_le (le_max_right _ _)⟩

/-- Settles O12: the codes and the encoder's items by their tables, the other words by their fields. -/
theorem outputWordsFollowTheirLayouts : Obligations.OutputWordsFollowTheirLayouts := by
  refine ⟨⟨rfl, rfl, rfl, rfl⟩, Response.word_fields, fun b => ?_, fun _ => rfl, fun _ => DecItem.portWord_data,
    fun _ => DecItem.portWord_endFrame⟩
  cases b <;> rfl

/-! ### The words of the image (R96, R98) -/

@[simp] theorem Node.unpack_lv (w : NodeWord P) : (Node.unpack w).lv = w.getLsbD 0 := rfl

@[simp] theorem Node.unpack_rv (w : NodeWord P) : (Node.unpack w).rv = w.getLsbD (P.idxW + 1) := rfl

@[simp] theorem Node.unpack_left_toNat (w : NodeWord P) :
    (Node.unpack w).left.toNat = w.toNat / 2 % 2 ^ P.idxW := by
  simp [Node.unpack, BitVec.extractLsb'_toNat, Nat.shiftRight_eq_div_pow]

@[simp] theorem Node.unpack_right_toNat (w : NodeWord P) :
    (Node.unpack w).right.toNat = w.toNat / 2 ^ (P.idxW + 2) % 2 ^ P.idxW := by
  simp [Node.unpack, BitVec.extractLsb'_toNat, Nat.shiftRight_eq_div_pow]

/-- The symbol is the top field, so nothing is cut off above it. -/
@[simp] theorem Node.unpack_symbol_toNat (w : NodeWord P) :
    (Node.unpack w).symbol.toNat = w.toNat / 2 ^ (2 * P.idxW + 2) := by
  have hw : w.toNat / 2 ^ (2 * P.idxW + 2) < 2 ^ P.symW := by
    refine Nat.div_lt_of_lt_mul ?_
    rw [← pow_add, Nat.add_comm (2 * P.idxW) 2]
    exact w.isLt
  rw [Node.unpack, BitVec.extractLsb'_toNat, Nat.shiftRight_eq_div_pow]
  exact Nat.mod_eq_of_lt hw

/-- Reading the fields of a packed entry gives the entry: each is cut out between the ends it was put at (R96, R184). -/
theorem CodeEntry.unpack_pack (e : CodeEntry P) : CodeEntry.unpack e.pack = e := by
  have hwidth : P.codeW = 1 + P.clenW + P.maxCodeLen := rfl
  obtain ⟨valid, len, bits⟩ := e
  simp (disch := omega) [CodeEntry.unpack, CodeEntry.pack, BitVec.extractLsb'_setWidth_of_le,
    BitVec.extractLsb'_append_eq_of_le, BitVec.extractLsb'_append_eq_of_add_le, BitVec.getLsbD_append,
    -BitVec.getLsbD_eq_getElem]

/-- Reading the fields of a packed node gives the node, in the same way (R98, R184). -/
theorem Node.unpack_pack (n : Node P) : Node.unpack n.pack = n := by
  have hwidth : P.nodeW = 2 + 2 * P.idxW + P.symW := rfl
  have hrv : P.idxW + 1 < P.nodeW := by omega
  obtain ⟨lv, left, rv, right, symbol⟩ := n
  simp (disch := omega) [Node.unpack, Node.pack, BitVec.extractLsb'_setWidth_of_le,
    BitVec.extractLsb'_append_eq_of_le, BitVec.extractLsb'_append_eq_of_add_le, BitVec.getLsbD_append,
    -BitVec.getLsbD_eq_getElem, hrv]

/-- Settles O11: the fields of the two words of the image, and their packing. -/
theorem romWordsAreReadByTheirLayouts : Obligations.RomWordsAreReadByTheirLayouts := by
  intro P
  refine ⟨fun w => ⟨rfl, CodeEntry.unpack_len_toNat w, fun k hk => CodeEntry.unpack_bits_getLsbD w hk⟩, fun w => ?_,
    CodeEntry.unpack_pack, Node.unpack_pack⟩
  exact ⟨rfl, Node.unpack_left_toNat w, rfl, Node.unpack_right_toNat w, Node.unpack_symbol_toNat w⟩

end Sys2Proof.Machine
end

section
/-! When `ENC_SYM` stops, and the one response of every word (R87, R100, U1). -/

namespace Sys2Proof.Machine

variable {P : Params} {s t : State P}

/-! ### The stop of `ENC_SYM` (R100, U1) -/

/-- An entry fails (S1) when it is valid and its length is out of range (R100). -/
theorem CodeEntry.lenOk_eq_false_iff {e : CodeEntry P} :
    e.lenOk = false ↔ e.valid = true ∧ ¬ (1 ≤ e.len.toNat ∧ e.len.toNat ≤ P.maxCodeLen) := by
  simp [CodeEntry.lenOk]

/-- `ENC_SYM` completes in a failed frame and of an entry that meets (S1). -/
theorem execEncSym_completes {sym : Symbol P} (h : ¬ (s.encFault = false ∧ (s.image.codeRead sym).lenOk = false)) :
    ∃ t, execEncSym sym s = .next t := by
  cases hf : s.encFault with
  | true => exact ⟨_, execEncSym_of_encFault sym hf⟩
  | false =>
    have hl : (s.image.codeRead sym).lenOk = true := by simpa [hf] using h
    cases hv : (s.image.codeRead sym).valid with
    | true => exact ⟨_, execEncSym_of_lenOk hf hv hl⟩
    | false => exact ⟨_, execEncSym_of_absent hf hv⟩

theorem execEncSym_refused_iff {sym : Symbol P} : execEncSym sym s = .refused .codeEntryUnspecified ↔
    s.encFault = false ∧ (s.image.codeRead sym).lenOk = false := by
  constructor
  · intro h
    by_contra hcompletes
    obtain ⟨t, ht⟩ := execEncSym_completes hcompletes
    simp [ht] at h
  · rintro ⟨hf, hl⟩
    exact execEncSym_of_badLen hf (CodeEntry.lenOk_eq_false_iff.1 hl).1 hl

/-- Settles O16: the entries of the statement are those that fail (S1), at any parameters. -/
theorem encSymStopsOnlyOnBadLength : Obligations.EncSymStopsOnlyOnBadLength := by
  refine ⟨fun sym s => ?_, fun P sym s => ?_⟩ <;> rw [← CodeEntry.lenOk_eq_false_iff]
  · rw [exec_eq_execIn]
    exact ⟨execEncSym_refused_iff, execEncSym_completes⟩
  · exact ⟨execEncSym_refused_iff, execEncSym_completes⟩

/-! ### One response for each word (R87) -/

/-- A command answers once, with `STATUS` as `rdata` for `RD_STATUS` and 0 for every other command. -/
theorem execIn_answers {i : Instr P} (h : execIn i s = .next t) :
    ∃ r : Response, t.resp = s.resp ++ [r] ∧ r.rdata = if i = .rdStatus then s.status else 0 := by
  apply execIn_cases (Q := fun i s t => ∃ r : Response, t.resp = s.resp ++ [r] ∧
    r.rdata = if i = .rdStatus then s.status else 0) h <;> simp

/-- Any word answers once, illegal or not. -/
theorem execWord_answers {w : CmdWord P} (h : execWord w s = .next t) :
    ∃ r : Response, t.resp = s.resp ++ [r] ∧ r.rdata = if decode w = .ok .rdStatus then s.status else 0 := by
  apply execWord_cases (Q := fun s t => ∃ r : Response, t.resp = s.resp ++ [r] ∧
    r.rdata = if decode w = .ok .rdStatus then s.status else 0) h
  · intro i hd hi
    simpa [hd] using execIn_answers hi
  · intro e hd
    simp [hd]

/-- Settles O31: the word taken answers once, and it is `RD_STATUS` when it decodes to it. -/
theorem everyCommandAnswersOnce : Obligations.EveryCommandAnswersOnce := by
  intro s t w ws hr hc h
  rw [step_of_cmds hr hc] at h
  obtain ⟨r, hresp, hrdata⟩ := execWord_answers h
  simp only [decode_eq_ok_iff_eq_encode] at hrdata
  exact ⟨r, hresp, hrdata, r.word_fields⟩

end Sys2Proof.Machine
end

section
/-! The encoder commands by their rules (R112, R114): a command word as a number, and the next state of each case. -/

namespace Sys2Proof.Machine

variable {P : Params} {s : State P}

/-- The word of a command as a number: the operand above the three bits of the opcode (R80). -/
theorem encode_toNat (hP : 1 ≤ P.symW) (i : Instr P) : (encode i).toNat = 8 * i.operandNat + i.opcode.toNat := by
  obtain ⟨hop, hopd⟩ := decode_eq_ok_iff.1 (decode_encode hP i)
  omega

/-- Settles O13: the three cases are those of `ENC_SYM` for an entry that meets (S1). -/
theorem encSymFollowsItsRule : Obligations.EncSymFollowsItsRule := by
  intro sym s
  simp only [exec_eq_execIn]
  refine ⟨encode_toNat (by decide) _, execEncSym_of_encFault sym, execEncSym_of_absent, fun hf hv h1 hmax => ?_⟩
  have hsent := execEncSym_of_lenOk hf hv (CodeEntry.lenOk_of_bounds h1 hmax)
  rwa [CodeEntry.code, List.map_map] at hsent

theorem execEncEnd_of_encFault (hf : s.encFault = true) : execEncEnd s = .next (s.closeEnc .unknownSymbol) := by
  simp [execEncEnd, hf]

theorem execEncEnd_of_not_encFault (hf : s.encFault = false) : execEncEnd s = .next (s.closeEnc .ok) := by
  simp [execEncEnd, hf]

/-- In a frame that has not failed, closing it leaves the fault bit as it is. -/
theorem State.closeEnc_of_not_encFault (hf : s.encFault = false) (st : Rcode) :
    s.closeEnc st = (s.emitEnc [.endFrame st]).respond st 0 := by
  simp [State.closeEnc, State.emitEnc, ← hf]

/-- Settles O17, by the two equations of `ENC_END`. -/
theorem encEndFollowsItsRule : Obligations.EncEndFollowsItsRule := by
  refine ⟨rfl, fun s => ⟨fun hf => ?_, execEncEnd_of_encFault⟩⟩
  rw [exec_eq_execIn]
  exact (execEncEnd_of_not_encFault hf).trans (congrArg _ (State.closeEnc_of_not_encFault hf .ok))

end Sys2Proof.Machine
end

section
/-! The frame function of the encoder (R34, R116): the two ways `EncodeFrame` ends, and how long what it gives is. -/

namespace Sys2Proof.Machine

variable {P : Params} {img : Image P} {x : Symbol P} {p bs : BitString} {syms : List (Symbol P)}

/-! ### The code of a symbol (R34, R100) -/

theorem Image.codeOf_eq_none : img.codeOf x = none ↔ (img.codeRead x).valid = false := by
  simp [Image.codeOf]

theorem Image.codeOf_eq_some : img.codeOf x = some p ↔ (img.codeRead x).valid = true ∧ (img.codeRead x).code = p := by
  simp [Image.codeOf]

@[simp] theorem CodeEntry.code_length (e : CodeEntry P) : e.code.length = e.len.toNat := by simp [CodeEntry.code]

/-- (S1) bounds the length of every code. -/
theorem Image.LenInRange.codeOf_length (hl : img.LenInRange) (hx : img.codeOf x = some p) :
    1 ≤ p.length ∧ p.length ≤ P.maxCodeLen := by
  obtain ⟨hv, rfl⟩ := Image.codeOf_eq_some.1 hx
  simpa [CodeEntry.lenOk, hv] using hl x

/-- In a consistent image whose tree is one leaf the one code is `"0"` (R172). -/
theorem Image.Consistent.codeOf_of_rootIsLeaf (hc : img.Consistent) (hr : img.rootIsLeaf = true)
    (hx : img.codeOf x = some p) : p = [false] := by
  have hgen := (hc.holdsTheTable x p).1 hx
  rw [Image.Generates, if_pos hr] at hgen
  exact hgen.2

/-! ### The two ways `EncodeFrame` ends (R116) -/

theorem Image.encodeFrame_cons_eq_ok : img.encodeFrame (x :: syms) = .ok bs ↔
    ∃ p q, img.codeOf x = some p ∧ img.encodeFrame syms = .ok q ∧ bs = p ++ q := by
  simp only [Image.encodeFrame]
  cases img.codeOf x <;> cases img.encodeFrame syms <;> simp [eq_comm]

theorem Image.encodeFrame_of_codes (h : ∀ y ∈ syms, img.codeOf y ≠ none) :
    img.encodeFrame syms = .ok (syms.filterMap img.codeOf).flatten := by
  induction syms with
  | nil => rfl
  | cons x syms ih =>
    obtain ⟨hx, hsyms⟩ := List.forall_mem_cons.1 h
    obtain ⟨p, hp⟩ := Option.ne_none_iff_exists'.1 hx
    exact Image.encodeFrame_cons_eq_ok.2 ⟨p, _, hp, ih hsyms, by simp [hp]⟩

theorem Image.encodeFrame_of_absent (hmem : x ∈ syms) (hx : img.codeOf x = none) :
    img.encodeFrame syms = .error .unknownSymbol := by
  induction hmem with
  | head => simp [Image.encodeFrame, hx]
  | tail y hmem ih => simp [Image.encodeFrame, ih]

/-- `EncodeFrame` fails in one way, at the first absent symbol. -/
theorem Image.encodeFrame_error {e : Rcode} (h : img.encodeFrame syms = .error e) : e = .unknownSymbol ∧
    ∃ pre post x, syms = pre ++ x :: post ∧ img.codeOf x = none ∧ ∀ y ∈ pre, img.codeOf y ≠ none := by
  cases hfind : syms.find? fun y => (img.codeOf y).isNone with
  | none =>
    have hcodes : ∀ y ∈ syms, img.codeOf y ≠ none := by simpa using hfind
    rw [Image.encodeFrame_of_codes hcodes] at h
    cases h
  | some x =>
    obtain ⟨hx, pre, post, rfl, hpre⟩ := List.find?_eq_some_iff_append.1 hfind
    have hx : img.codeOf x = none := by simpa using hx
    rw [Image.encodeFrame_of_absent (by simp) hx] at h
    cases h
    exact ⟨rfl, pre, post, x, rfl, hx, by simpa [← Option.isSome_iff_ne_none] using hpre⟩

/-! ### The length of an encoded frame (R120) -/

theorem Image.encodeFrame_length (h : img.encodeFrame syms = .ok bs) :
    bs.length = (syms.map fun x => ((img.codeOf x).getD []).length).sum := by
  induction syms generalizing bs with
  | nil => cases h; rfl
  | cons x syms ih =>
    obtain ⟨p, q, hp, hq, rfl⟩ := Image.encodeFrame_cons_eq_ok.1 h
    simp [hp, ih hq]

/-- Bounds on the length of every code bound the length of a frame. -/
theorem Image.encodeFrame_length_bounds {a b : Nat} (h : img.encodeFrame syms = .ok bs)
    (hcode : ∀ x p, img.codeOf x = some p → a ≤ p.length ∧ p.length ≤ b) :
    a * syms.length ≤ bs.length ∧ bs.length ≤ b * syms.length := by
  induction syms generalizing bs with
  | nil => cases h; simp
  | cons x syms ih =>
    obtain ⟨p, q, hp, hq, rfl⟩ := Image.encodeFrame_cons_eq_ok.1 h
    obtain ⟨hlo, hhi⟩ := hcode x p hp
    obtain ⟨ihlo, ihhi⟩ := ih hq
    simp only [List.length_cons, List.length_append, Nat.mul_succ]
    omega

/-- Settles O51: (S1) bounds every code by 1 and `MAX_CODE_LEN`, and the one code of a single leaf is one bit. -/
theorem encodedLengthIsTheSum : Obligations.EncodedLengthIsTheSum := by
  refine fun P img syms bs h => ⟨Image.encodeFrame_length h, fun hl => ?_, fun hc hr => ?_⟩
  · simpa using Image.encodeFrame_length_bounds h fun x p => hl.codeOf_length
  · have hbounds := Image.encodeFrame_length_bounds (a := 1) (b := 1) h fun x p hp => by
      simp [hc.codeOf_of_rootIsLeaf hr hp]
    omega

end Sys2Proof.Machine
end

section
/-! A command sequence run on the machine, one command after another (R60), and the encoder's frames run so (R116,
R118). -/

namespace Sys2Proof.Machine

/-! ### Runs of given commands -/

section given

variable {P : Params}

/-- Arriving at a node reads no port. -/
theorem State.arriveAt_given (j : NodeIndex P) (is : List (Instr P)) (s : State P) :
    (s.given is).arriveAt j = (s.arriveAt j).given is := by
  rw [State.arriveAt, State.arriveAt, apply_ite (State.given is)]
  rfl

/-- A command reads no port, so it does the same whatever commands are given after it. -/
theorem execIn_given {i : Instr P} {s t : State P} (is : List (Instr P)) (h : execIn i s = .next t) :
    execIn i (s.given is) = .next (t.given is) := by
  revert is
  apply execIn_cases (Q := fun i s t => ∀ is, execIn i (s.given is) = .next (t.given is)) h
  case encSymFailed => exact fun sym hf is => execEncSym_of_encFault sym hf
  case encSymAbsent => exact fun sym hf hv is => execEncSym_of_absent hf hv
  case encSymSent => exact fun sym hf hv hl is => execEncSym_of_lenOk hf hv hl
  case decBitFailed => exact fun b hf is => execDecBit_of_decFault b hf
  case decBitSingle => exact fun b hf hr is => execDecBit_of_rootIsLeaf b hf hr
  case decBitAbsent => exact fun b hf hr hc is => execDecBit_of_child_none hf hr hc
  case decBitMoved =>
    intro b j hf hr hc is
    refine (execDecBit_of_child_some (s := s.given is) hf hr hc).trans ?_
    rw [State.arriveAt_given]
    rfl
  case decEndFailed => exact fun hf is => execDecEnd_of_decFault hf
  case decEndTruncated => exact fun hf hc is => execDecEnd_of_decMid hf (State.decMid_eq_true.2 hc)
  case decEndOk => exact fun hf hc is => execDecEnd_of_atRoot hf (State.decMid_eq_false.2 hc)
  all_goals intros; rfl

variable {s t : State} {i : Instr} {is : List Instr}

theorem runAll_given_nil (s : State) : runAll (s.given []) = .next (s.given []) := runAll_of_nil rfl

/-- Running the commands given is running the first of them and then the rest. -/
theorem runAll_given_cons (h : execIn i s = .next t) : runAll (s.given (i :: is)) = runAll (t.given is) := by
  have hword : execWord (encode i) (s.given is) = .next (t.given is) := by
    rw [execWord_encode]
    exact execIn_given is h
  exact runAll_of_cmds (s := s.given (i :: is)) rfl rfl hword

end given

/-! ### The encoder's frames -/

section encoder

variable {s : State} {syms : List Symbol}

theorem runAll_given_encEnd (s : State) : runAll (s.given [.encEnd]) =
    .next ((s.closeEnc (if s.encFault then .unknownSymbol else .ok)).given []) :=
  (runAll_given_cons (i := .encEnd) rfl).trans (runAll_given_nil _)

/-- In a failed frame each `ENC_SYM` answers the failure and does nothing else (R112, R118). -/
theorem runAll_encSyms_of_encFault (hf : s.encFault = true) (is : List Instr) :
    runAll (s.given (syms.map .encSym ++ is)) = runAll (State.given is { s with
      resp := s.resp ++ List.replicate syms.length { rcode := .unknownSymbol, rdata := 0 } }) := by
  induction syms generalizing s with
  | nil => simp
  | cons x syms ih =>
    rw [List.map_cons, List.cons_append, runAll_given_cons (i := .encSym x) (execEncSym_of_encFault x hf), ih]
    · simp [List.replicate_succ, State.respond]
    · exact hf

/-- `ENC_SYM` of each symbol of a frame that `EncodeFrame` encodes sends the bits of the frame (R118). -/
theorem runAll_encSyms_of_encodeFrame {bs : BitString} (hf : s.encFault = false) (hl : s.image.LenInRange)
    (h : s.image.encodeFrame syms = .ok bs) (is : List Instr) :
    runAll (s.given (syms.map .encSym ++ is)) = runAll (State.given is { s with
      encOut := s.encOut ++ bs.map .data
      resp := s.resp ++ List.replicate syms.length { rcode := .ok, rdata := 0 } }) := by
  induction syms generalizing s bs with
  | nil => cases h; simp
  | cons x syms ih =>
    obtain ⟨p, q, hp, hq, rfl⟩ := Image.encodeFrame_cons_eq_ok.1 h
    obtain ⟨hv, rfl⟩ := Image.codeOf_eq_some.1 hp
    rw [List.map_cons, List.cons_append, runAll_given_cons (i := .encSym x) (execEncSym_of_lenOk hf hv (hl x)),
      ih (bs := q)]
    · simp [List.replicate_succ, State.respond, State.emitEnc]
    · exact hf
    · exact hl
    · exact hq

/-- A frame of symbols that all have codes runs to its END(OK). -/
theorem runAll_encodeCommands_of_ok {bs : BitString} (hf : s.encFault = false) (hl : s.image.LenInRange)
    (h : s.image.encodeFrame syms = .ok bs) : runAll (s.given (encodeCommands syms)) = .next (State.given [] { s with
      encOut := s.encOut ++ bs.map .data ++ [.endFrame .ok]
      resp := s.resp ++ List.replicate (syms.length + 1) { rcode := .ok, rdata := 0 } }) := by
  rw [encodeCommands, runAll_encSyms_of_encodeFrame hf hl h, runAll_given_encEnd]
  simp [State.closeEnc, State.respond, State.emitEnc, List.replicate_succ', hf]

/-- A frame with an absent symbol runs to its END(UNKNOWN_SYMBOL), with the codes of the symbols before it sent. -/
theorem runAll_encodeCommands_of_absent {pre post : List Symbol} {x : Symbol} (hf : s.encFault = false)
    (hl : s.image.LenInRange) (hpre : ∀ y ∈ pre, s.image.codeOf y ≠ none) (hx : s.image.codeOf x = none) :
    runAll (s.given (encodeCommands (pre ++ x :: post))) = .next (State.given [] { s with
      sUnk := true
      encOut := s.encOut ++ ((pre.filterMap s.image.codeOf).flatten).map .data ++ [.endFrame .unknownSymbol]
      resp := s.resp ++ List.replicate pre.length { rcode := .ok, rdata := 0 } ++
        List.replicate (post.length + 2) { rcode := .unknownSymbol, rdata := 0 } }) := by
  have hcmds : encodeCommands (pre ++ x :: post) = pre.map .encSym ++ .encSym x :: (post.map .encSym ++ [.encEnd]) := by
    simp [encodeCommands]
  rw [hcmds, runAll_encSyms_of_encodeFrame hf hl (Image.encodeFrame_of_codes hpre),
    runAll_given_cons (i := .encSym x) (execEncSym_of_absent ?_ ?_), runAll_encSyms_of_encFault rfl,
    runAll_given_encEnd]
  · have hfailed (r : Response) : List.replicate (post.length + 2) r = r :: (List.replicate post.length r ++ [r]) := by
      rw [List.replicate_succ, List.replicate_succ']
    simp [State.closeEnc, State.raise, State.respond, State.emitEnc, hfailed, hf]
  · exact hf
  · exact Image.codeOf_eq_none.1 hx

end encoder

/-- Settles O46: the frame that `EncodeFrame` encodes, and the frame with a first absent symbol. -/
theorem encoderFrameStreams : Obligations.EncoderFrameStreams := by
  intro s syms hf hl
  cases h : s.image.encodeFrame syms with
  | ok bs =>
    refine ⟨_, runAll_encodeCommands_of_ok hf hl h, hf, ⟨rfl, rfl, rfl, rfl⟩, rfl, rfl, rfl, ?_, by simp⟩
    rintro _ ⟨⟩
    exact ⟨rfl, rfl, rfl⟩
  | error e =>
    obtain ⟨rfl, pre, post, x, rfl, hx, hpre⟩ := Image.encodeFrame_error h
    refine ⟨_, runAll_encodeCommands_of_absent hf hl hpre hx, hf, ⟨rfl, rfl, rfl, rfl⟩, rfl, rfl, rfl, by simp, ?_⟩
    rintro _ ⟨⟩
    exact ⟨rfl, rfl, pre, post, x, rfl, hx, hpre, rfl, rfl⟩

end Sys2Proof.Machine
end

section
/-! The decoder's frames run on the machine (R138, R140): where a frame's bits leave the decoder, and what it has sent
and answered by then. -/

namespace Sys2Proof.Machine

/-! ### Where the bits of a frame leave the decoder -/

section rests

variable {P : Params} {img : Image P} {cur : NodeIndex P} {bs : BitString}

/-- The node at which the decoder rests after the bits of a frame, from the node `cur`: back at the root after each
completed code. None when a bit meets an absent child (R132). -/
def Image.restsAt (img : Image P) : NodeIndex P → BitString → Option (NodeIndex P)
  | cur, [] => some cur
  | cur, b :: bs =>
    match img.child cur b with
    | none => none
    | some j => Image.restsAt img (if img.isLeafAt j then img.root else j) bs

/-- Bits that all move make a whole frame exactly when they end at the root (R138). -/
theorem Image.decodeFrom_of_restsAt {c : NodeIndex P} (h : img.restsAt cur bs = some c) : img.decodeFrom cur bs =
    if c = img.root then .ok (img.decodedBefore cur bs) else .error .malformedBitstream := by
  induction bs generalizing cur with
  | nil => cases h; rfl
  | cons b bs ih =>
    cases hc : img.child cur b with
    | none => simp [Image.restsAt, hc] at h
    | some j =>
      cases hl : img.isLeafAt j with
      | false =>
        have hrest := ih (cur := j) (by simpa [Image.restsAt, hc, hl] using h)
        simpa [Image.decodeFrom, Image.decodedBefore, hc, hl] using hrest
      | true =>
        have hrest := ih (cur := img.root) (by simpa [Image.restsAt, hc, hl] using h)
        simp only [Image.decodeFrom, Image.decodedBefore, hc, hl, hrest, if_true]
        split <;> rfl

/-- A frame with a bit that meets an absent child fails (R138). -/
theorem Image.decodeFrom_of_restsAt_none (h : img.restsAt cur bs = none) :
    img.decodeFrom cur bs = .error .malformedBitstream := by
  induction bs generalizing cur with
  | nil => cases h
  | cons b bs ih =>
    cases hc : img.child cur b with
    | none => simp [Image.decodeFrom, hc]
    | some j =>
      cases hl : img.isLeafAt j with
      | false =>
        have hrest := ih (cur := j) (by simpa [Image.restsAt, hc, hl] using h)
        simpa [Image.decodeFrom, hc, hl] using hrest
      | true =>
        have hrest := ih (cur := img.root) (by simpa [Image.restsAt, hc, hl] using h)
        simp [Image.decodeFrom, hc, hl, hrest, Except.map]

end rests

/-! ### The bits of a frame on the machine -/

section decoder

variable {s : State} {bs : BitString}

/-- In a failed frame each `DEC_BIT` answers the failure and does nothing else (R132, R140). -/
theorem runAll_decBits_of_decFault (hf : s.decFault = true) (is : List Instr) :
    runAll (s.given (bs.map .decBit ++ is)) = runAll (State.given is { s with
      resp := s.resp ++ List.replicate bs.length { rcode := .malformedBitstream, rdata := 0 } }) := by
  induction bs generalizing s with
  | nil => simp
  | cons b bs ih =>
    rw [List.map_cons, List.cons_append, runAll_given_cons (i := .decBit b) (execDecBit_of_decFault b hf), ih]
    · simp [List.replicate_succ, State.respond]
    · exact hf

/-- In a single-leaf tree each `DEC_BIT` sends the root's symbol (R132, R140). -/
theorem runAll_decBits_of_rootIsLeaf (hf : s.decFault = false) (hr : s.image.rootIsLeaf = true) (is : List Instr) :
    runAll (s.given (bs.map .decBit ++ is)) = runAll (State.given is { s with
      decOut := s.decOut ++ (bs.map fun _ => (s.image.nodeRead s.image.root).symbol).map .data
      resp := s.resp ++ List.replicate bs.length { rcode := .ok, rdata := 0 } }) := by
  induction bs generalizing s with
  | nil => simp
  | cons b bs ih =>
    rw [List.map_cons, List.cons_append, runAll_given_cons (i := .decBit b) (execDecBit_of_rootIsLeaf b hf hr), ih]
    · simp [List.replicate_succ, State.respond, State.emitDec]
    · exact hf
    · exact hr

/-- Bits that all move send the symbols of the completed codes and leave the cursor where they lead (R132, R140). -/
theorem runAll_decBits_of_restsAt {c : NodeIndex} (hf : s.decFault = false) (hr : s.image.rootIsLeaf = false)
    (h : s.image.restsAt s.cursor bs = some c) (is : List Instr) :
    runAll (s.given (bs.map .decBit ++ is)) = runAll (State.given is { s with
      cursor := c
      decOut := s.decOut ++ (s.image.decodedBefore s.cursor bs).map .data
      resp := s.resp ++ List.replicate bs.length { rcode := .ok, rdata := 0 } }) := by
  induction bs generalizing s with
  | nil => cases h; simp [Image.decodedBefore]
  | cons b bs ih =>
    cases hc : s.image.child s.cursor b with
    | none => simp [Image.restsAt, hc] at h
    | some j =>
      rw [List.map_cons, List.cons_append, runAll_given_cons (i := .decBit b) (execDecBit_of_child_some hf hr hc), ih]
      · cases hl : s.image.isLeafAt j <;>
          simp [List.replicate_succ, State.respond, State.arriveAt, State.emitDec, State.moveCursor,
            Image.decodedBefore, hc, hl]
      · simpa using hf
      · simpa using hr
      · simpa [Image.restsAt, hc] using h

/-- A bit that meets an absent child fails the frame: the symbols of the codes completed before it are sent, and every
answer from it on is the failure (R132, R140). -/
theorem runAll_decBits_of_restsAt_none (hf : s.decFault = false) (hr : s.image.rootIsLeaf = false)
    (h : s.image.restsAt s.cursor bs = none) (is : List Instr) :
    runAll (s.given (bs.map .decBit ++ is)) = runAll (State.given is { s with
      cursor := s.image.root, decFault := true, sMal := true
      decOut := s.decOut ++ (s.image.decodedBefore s.cursor bs).map .data
      resp := s.resp ++ List.replicate (s.image.movesBefore s.cursor bs) { rcode := .ok, rdata := 0 } ++
        List.replicate (bs.length - s.image.movesBefore s.cursor bs)
          { rcode := .malformedBitstream, rdata := 0 } }) := by
  induction bs generalizing s with
  | nil => cases h
  | cons b bs ih =>
    cases hc : s.image.child s.cursor b with
    | none =>
      rw [List.map_cons, List.cons_append, runAll_given_cons (i := .decBit b) (execDecBit_of_child_none hf hr hc),
        runAll_decBits_of_decFault rfl]
      simp [List.replicate_succ, State.raise, State.respond, Image.decodedBefore, Image.movesBefore, hc]
    | some j =>
      rw [List.map_cons, List.cons_append, runAll_given_cons (i := .decBit b) (execDecBit_of_child_some hf hr hc), ih]
      · cases hl : s.image.isLeafAt j <;>
          simp [List.replicate_succ, State.respond, State.arriveAt, State.emitDec, State.moveCursor,
            Image.decodedBefore, Image.movesBefore, hc, hl]
      · simpa using hf
      · simpa using hr
      · simpa [Image.restsAt, hc] using h

theorem runAll_given_decEnd {t : State} (h : execDecEnd s = .next t) :
    runAll (s.given [.decEnd]) = .next (t.given []) :=
  (runAll_given_cons (i := .decEnd) h).trans (runAll_given_nil _)

/-- A decoder frame, from its start, sends data and an END that together are `DecodeFrame`'s result (R138, R140). -/
theorem runAll_decodeCommands (hf : s.decFault = false) (hcur : s.cursor = s.image.root) :
    ∃ t out st, runAll (s.given (decodeCommands bs)) = .next t ∧
      t.decOut = s.decOut ++ out.map .data ++ [.endFrame st] ∧ frameResult (out, st) = s.image.decodeFrame bs := by
  rw [decodeCommands]
  cases hr : s.image.rootIsLeaf with
  | true =>
    rw [runAll_decBits_of_rootIsLeaf hf hr, runAll_given_decEnd (execDecEnd_of_atRoot ?_ ?_)]
    · exact ⟨_, _, .ok, rfl, rfl, by simp [frameResult, Image.decodeFrame, hr]⟩
    · exact hf
    · exact State.decMid_eq_false.2 hcur
  | false =>
    rw [Image.decodeFrame, if_neg (by simp [hr]), ← hcur]
    cases hc : s.image.restsAt s.cursor bs with
    | none =>
      rw [runAll_decBits_of_restsAt_none hf hr hc, runAll_given_decEnd (execDecEnd_of_decFault rfl),
        Image.decodeFrom_of_restsAt_none hc]
      exact ⟨_, _, .malformedBitstream, rfl, rfl, rfl⟩
    | some c =>
      rw [runAll_decBits_of_restsAt hf hr hc, Image.decodeFrom_of_restsAt hc]
      by_cases hroot : c = s.image.root
      · rw [if_pos hroot, runAll_given_decEnd (execDecEnd_of_atRoot ?_ ?_)]
        · exact ⟨_, _, .ok, rfl, rfl, rfl⟩
        · exact hf
        · exact State.decMid_eq_false.2 hroot
      · rw [if_neg hroot, runAll_given_decEnd (execDecEnd_of_decMid ?_ ?_)]
        · exact ⟨_, _, .malformedBitstream, rfl, rfl, rfl⟩
        · exact hf
        · exact State.decMid_eq_true.2 hroot

end decoder

end Sys2Proof.Machine
end

section
/-! The host's reading of the histories (R116, R138, R230, R270): a frame that is run adds its result. -/

namespace Sys2Proof.Machine

/-! ### Reading one more frame -/

section reading

variable {ι α : Type} {data : α → ι} {endFrame : Rcode → ι} {frames : List α → List ι → List (List α × Rcode)}
  (hitem : ∀ item, (∃ a, item = data a) ∨ ∃ st, item = endFrame st)
  (hnil : ∀ acc, frames acc [] = [])
  (hdata : ∀ acc a l, frames acc (data a :: l) = frames (acc ++ [a]) l)
  (hend : ∀ acc st l, frames acc (endFrame st :: l) = (acc, st) :: frames [] l)

include hitem hnil hdata hend in
/-- What follows an END is read as a history of its own. -/
theorem frames_append_endFrame (acc : List α) (l m : List ι) (st : Rcode) :
    frames acc (l ++ endFrame st :: m) = frames acc (l ++ [endFrame st]) ++ frames [] m := by
  induction l generalizing acc with
  | nil => simp [hend, hnil]
  | cons item l ih =>
    obtain ⟨a, rfl⟩ | ⟨st', rfl⟩ := hitem item
    · simp [hdata, ih]
    · simp [hend, ih]

include hnil hdata hend in
/-- The data sent before an END are the frame's. -/
theorem frames_data (acc out : List α) (st : Rcode) :
    frames acc (out.map data ++ [endFrame st]) = [(acc ++ out, st)] := by
  induction out generalizing acc with
  | nil => simp [hend, hnil]
  | cons a out ih => simp [hdata, ih]

include hitem hnil hdata hend in
/-- A frame after a closed history is one more frame. -/
theorem frames_append_frame {l : List ι} (hl : l = [] ∨ ∃ l' st, l = l' ++ [endFrame st]) (out : List α) (st : Rcode) :
    frames [] (l ++ out.map data ++ [endFrame st]) = frames [] l ++ [(out, st)] := by
  rw [List.append_assoc]
  obtain rfl | ⟨l', st', rfl⟩ := hl
  · simpa [hnil] using frames_data hnil hdata hend [] out st
  · rw [List.append_assoc, List.singleton_append, frames_append_endFrame hitem hnil hdata hend,
      frames_data hnil hdata hend, List.nil_append]

end reading

theorem encResults_append_frame {l : List EncItem} (hl : EncClosed l) (bs : BitString) (st : Rcode) :
    encResults (l ++ bs.map .data ++ [.endFrame st]) = encResults l ++ [frameResult (bs, st)] := by
  have hitem (item : EncItem) : (∃ b, item = .data b) ∨ ∃ st, item = .endFrame st := by cases item <;> simp
  rw [encResults, frames_append_frame (frames := encFrames) hitem (fun _ => rfl) (fun _ _ _ => rfl) (fun _ _ _ => rfl)
    hl, List.map_append]
  rfl

theorem decResults_append_frame {P : Params} {l : List (DecItem P)} (hl : DecClosed l) (out : List (Symbol P))
    (st : Rcode) : decResults (l ++ out.map .data ++ [.endFrame st]) = decResults l ++ [frameResult (out, st)] := by
  have hitem (item : DecItem P) : (∃ x, item = .data x) ∨ ∃ st, item = .endFrame st := by cases item <;> simp
  rw [decResults, frames_append_frame (frames := decFrames) hitem (fun _ => rfl) (fun _ _ _ => rfl) (fun _ _ _ => rfl)
    hl, List.map_append]
  rfl

/-- Settles O48: a frame adds its data and its END to a closed history, and these read as the frame function's
result. -/
theorem historiesHoldTheFrameResults : Obligations.HistoriesHoldTheFrameResults := by
  refine ⟨fun s syms hf hl hclosed => ?_, fun s bs hf hcur hclosed => ?_⟩
  · cases h : s.image.encodeFrame syms with
    | ok bs => exact ⟨_, runAll_encodeCommands_of_ok hf hl h, encResults_append_frame hclosed bs .ok⟩
    | error e =>
      obtain ⟨rfl, pre, post, x, rfl, hx, hpre⟩ := Image.encodeFrame_error h
      exact ⟨_, runAll_encodeCommands_of_absent hf hl hpre hx, encResults_append_frame hclosed _ .unknownSymbol⟩
  · obtain ⟨t, out, st, hrun, hout, hresult⟩ := runAll_decodeCommands (bs := bs) hf hcur
    exact ⟨t, hrun, by rw [hout, decResults_append_frame hclosed, hresult]⟩

end Sys2Proof.Machine
end

section
/-! A decoder frame run to its END (R138, R140): the end state of a frame that `DecodeFrame` decodes, and of one that it
does not. -/

namespace Sys2Proof.Machine

/-! ### The two ways `DecodeFrame` ends -/

section results

variable {P : Params} {img : Image P} {cur : NodeIndex P} {bs : BitString} {out : List (Symbol P)} {e : Rcode}

theorem Image.decodeFrame_of_rootIsLeaf (hr : img.rootIsLeaf = true) (bs : BitString) :
    img.decodeFrame bs = .ok (bs.map fun _ => (img.nodeRead img.root).symbol) := by
  simp [Image.decodeFrame, hr]

theorem Image.decodeFrame_of_not_rootIsLeaf (hr : img.rootIsLeaf = false) (bs : BitString) :
    img.decodeFrame bs = img.decodeFrom img.root bs := by
  simp [Image.decodeFrame, hr]

/-- Bits decode exactly when they all move and lead back to the root (R138). -/
theorem Image.decodeFrom_eq_ok :
    img.decodeFrom cur bs = .ok out ↔ img.restsAt cur bs = some img.root ∧ out = img.decodedBefore cur bs := by
  cases h : img.restsAt cur bs with
  | none => simp [Image.decodeFrom_of_restsAt_none h]
  | some c =>
    rw [Image.decodeFrom_of_restsAt h]
    by_cases hroot : c = img.root <;> simp [hroot, eq_comm]

/-- Bits that do not decode fail in one way: they do not all move, or lead to another node than the root (R138). -/
theorem Image.decodeFrom_eq_error :
    img.decodeFrom cur bs = .error e ↔ e = .malformedBitstream ∧ img.restsAt cur bs ≠ some img.root := by
  cases h : img.restsAt cur bs with
  | none => simp [Image.decodeFrom_of_restsAt_none h, eq_comm]
  | some c =>
    rw [Image.decodeFrom_of_restsAt h]
    by_cases hroot : c = img.root <;> simp [hroot, eq_comm]

theorem Image.movesBefore_le_length (img : Image P) (cur : NodeIndex P) (bs : BitString) :
    img.movesBefore cur bs ≤ bs.length := by
  induction bs generalizing cur with
  | nil => simp [Image.movesBefore]
  | cons b bs ih =>
    simp only [Image.movesBefore, List.length_cons]
    split
    · omega
    · next j _ => split <;> simp [ih]

/-- Bits that all move are all counted (R140). -/
theorem Image.movesBefore_of_restsAt {c : NodeIndex P} (h : img.restsAt cur bs = some c) :
    img.movesBefore cur bs = bs.length := by
  induction bs generalizing cur with
  | nil => rfl
  | cons b bs ih =>
    cases hc : img.child cur b with
    | none => simp [Image.restsAt, hc] at h
    | some j =>
      have hrest := ih (cur := if img.isLeafAt j then img.root else j) (by simpa [Image.restsAt, hc] using h)
      cases hl : img.isLeafAt j <;> simpa [Image.movesBefore, hc, hl] using hrest

end results

/-! ### The end state of a frame -/

section frame

variable {s : State} {bs : BitString}

/-- A frame that decodes runs to its END(OK), with its symbols sent (R140). -/
theorem runAll_decodeCommands_of_ok {out : List Symbol} (hf : s.decFault = false) (hcur : s.cursor = s.image.root)
    (h : s.image.decodeFrame bs = .ok out) : runAll (s.given (decodeCommands bs)) = .next (State.given [] { s with
      decOut := s.decOut ++ out.map .data ++ [.endFrame .ok]
      resp := s.resp ++ List.replicate (bs.length + 1) { rcode := .ok, rdata := 0 } }) := by
  rw [decodeCommands]
  cases hr : s.image.rootIsLeaf with
  | true =>
    rw [Image.decodeFrame_of_rootIsLeaf hr] at h
    cases h
    rw [runAll_decBits_of_rootIsLeaf hf hr, runAll_given_decEnd (execDecEnd_of_atRoot ?_ ?_)]
    · simp [State.closeDec, State.respond, State.emitDec, List.replicate_succ', hf, hcur]
    · exact hf
    · exact State.decMid_eq_false.2 hcur
  | false =>
    rw [Image.decodeFrame_of_not_rootIsLeaf hr, ← hcur] at h
    obtain ⟨hrest, rfl⟩ := Image.decodeFrom_eq_ok.1 h
    rw [runAll_decBits_of_restsAt hf hr hrest, runAll_given_decEnd (execDecEnd_of_atRoot ?_ ?_)]
    · simp [State.closeDec, State.respond, State.emitDec, List.replicate_succ', hf, hcur]
    · exact hf
    · exact State.decMid_eq_false.2 rfl

/-- A frame that does not decode runs to its END(MALFORMED_BITSTREAM), with the symbols of the codes completed before
the failure sent: a bit met an absent child, or `DEC_END` found the cursor away from the root (R140). -/
theorem runAll_decodeCommands_of_error {e : Rcode} (hf : s.decFault = false) (hcur : s.cursor = s.image.root)
    (h : s.image.decodeFrame bs = .error e) : e = .malformedBitstream ∧
    runAll (s.given (decodeCommands bs)) = .next (State.given [] { s with
      sMal := true
      decOut := s.decOut ++ (s.image.decodedBefore s.image.root bs).map .data ++ [.endFrame .malformedBitstream]
      resp := s.resp ++ List.replicate (s.image.movesBefore s.image.root bs) { rcode := .ok, rdata := 0 } ++
        List.replicate (bs.length + 1 - s.image.movesBefore s.image.root bs)
          { rcode := .malformedBitstream, rdata := 0 } }) := by
  cases hr : s.image.rootIsLeaf with
  | true => simp [Image.decodeFrame_of_rootIsLeaf hr] at h
  | false =>
    rw [Image.decodeFrame_of_not_rootIsLeaf hr, ← hcur] at h
    obtain ⟨rfl, hrest⟩ := Image.decodeFrom_eq_error.1 h
    refine ⟨rfl, ?_⟩
    rw [decodeCommands]
    cases hc : s.image.restsAt s.cursor bs with
    | none =>
      rw [runAll_decBits_of_restsAt_none hf hr hc, runAll_given_decEnd (execDecEnd_of_decFault rfl),
        Nat.succ_sub (Image.movesBefore_le_length _ _ _)]
      simp [State.closeDec, State.respond, State.emitDec, List.replicate_succ', hf, hcur]
    | some c =>
      have hroot : c ≠ s.image.root := by simpa [hc] using hrest
      have hmoves := Image.movesBefore_of_restsAt hc
      rw [hcur] at hmoves
      rw [runAll_decBits_of_restsAt hf hr hc, runAll_given_decEnd (execDecEnd_of_decMid ?_ ?_)]
      · simp [State.closeDec, State.raise, State.respond, State.emitDec, hmoves, hf, hcur]
      · exact hf
      · exact State.decMid_eq_true.2 hroot

end frame

/-- Settles O47: the frame that `DecodeFrame` decodes, and the frame that it does not. -/
theorem decoderFrameStreams : Obligations.DecoderFrameStreams := by
  intro s bs hf hcur
  cases h : s.image.decodeFrame bs with
  | ok out =>
    refine ⟨_, runAll_decodeCommands_of_ok hf hcur h, hf, hcur, ⟨rfl, rfl, rfl⟩, rfl, rfl, rfl, ?_, by simp⟩
    rintro _ ⟨⟩
    exact ⟨rfl, rfl, rfl⟩
  | error e =>
    obtain ⟨rfl, hrun⟩ := runAll_decodeCommands_of_error hf hcur h
    refine ⟨_, hrun, hf, hcur, ⟨rfl, rfl, rfl⟩, rfl, rfl, rfl, by simp, ?_⟩
    rintro _ ⟨⟩
    exact ⟨rfl, rfl, rfl, rfl⟩

end Sys2Proof.Machine
end

section
/-! Walks in the tree of an image (R30, R31): strict trees have every child (R134) and cut every bit string into codes
(R144); the bits of a frame that decodes are the paths of its symbols' leaves (R142). -/

namespace Sys2Proof.Machine

variable {P : Params} {img : Image P} {i j : NodeIndex P} {p : BitString}

/-! ### Strict trees -/

/-- In a strict tree a node that is no leaf has a child on either side (R31). -/
theorem Image.WfTreeStrict.exists_child (hw : img.WfTreeStrict) (hi : img.Reach i) (hl : img.isLeafAt i = false)
    (b : Bool) : ∃ j, img.child i b = some j := by
  obtain ⟨hlv, hrv⟩ := hw.twoChildren i hi hl
  cases b <;> simp [Image.child, Node.child, hlv, hrv]

/-- Every node of a strict tree has a leaf below it, or is one: bit strings that lead to nodes cannot grow for ever
(R31). -/
theorem Image.WfTreeStrict.exists_leaf_below (hw : img.WfTreeStrict) (hp : img.walk img.root p = some j) :
    ∃ r k, img.walk img.root (p ++ r) = some k ∧ img.isLeafAt k = true := by
  induction hn : 2 ^ P.idxW - p.length generalizing p j with
  | zero =>
    have hlt := hw.wfTree.uniquePaths.length_lt hp
    omega
  | succ n ih =>
    cases hl : img.isLeafAt j with
    | true => exact ⟨[], j, by simpa using hp, hl⟩
    | false =>
      obtain ⟨c, hc⟩ := hw.exists_child ⟨p, hp⟩ hl false
      obtain ⟨r, k, hr, hk⟩ := ih ((Image.walk_concat hp false).trans hc) (by simp; omega)
      exact ⟨false :: r, k, by simpa using hr, hk⟩

/-- A non-empty string extends the path of a node that is no leaf to the path of a leaf (R144). -/
theorem Image.WfTreeStrict.exists_code_extending (hw : img.WfTreeStrict) (hp : img.walk img.root p = some j)
    (hl : img.isLeafAt j = false) :
    ∃ r, r ≠ [] ∧ ∃ k, img.walk img.root (p ++ r) = some k ∧ img.isLeafAt k = true := by
  obtain ⟨r, k, hr, hk⟩ := hw.exists_leaf_below hp
  refine ⟨r, ?_, k, hr, hk⟩
  rintro rfl
  rw [List.append_nil, hp] at hr
  cases hr
  simp [hl] at hk

/-- Bits are whole codes and a rest that leads to a node that is no leaf: each further bit moves on from that node, and
completes a code when it arrives at a leaf (R144). -/
theorem Image.WfTreeStrict.exists_codes_and_rest (hw : img.WfTreeStrict) (hr : img.rootIsLeaf = false)
    (bs : BitString) : ∃ (ps : List BitString) (q : BitString), bs = ps.flatten ++ q ∧
      (∀ p ∈ ps, ∃ i, img.walk img.root p = some i ∧ img.isLeafAt i = true) ∧
      ∃ j, img.walk img.root q = some j ∧ img.isLeafAt j = false := by
  induction bs using List.reverseRecOn with
  | nil => exact ⟨[], [], rfl, by simp, img.root, rfl, hr⟩
  | append_singleton bs b ih =>
    obtain ⟨ps, q, rfl, hps, j, hq, hj⟩ := ih
    obtain ⟨k, hk⟩ := hw.exists_child ⟨q, hq⟩ hj b
    have hqb : img.walk img.root (q ++ [b]) = some k := (Image.walk_concat hq b).trans hk
    cases hl : img.isLeafAt k with
    | true =>
      refine ⟨ps ++ [q ++ [b]], [], by simp, fun p hp => ?_, img.root, rfl, hr⟩
      rcases List.mem_append.1 hp with hp | hp
      · exact hps p hp
      · rw [List.mem_singleton.1 hp]
        exact ⟨k, hqb, hl⟩
    | false => exact ⟨ps, q ++ [b], by simp, hps, k, hqb, hl⟩

/-- Settles O45: the rest leads to a node that is no leaf, and a leaf is below that node. -/
theorem everyBitStringIsCodesAndAPrefix : Obligations.EveryBitStringIsCodesAndAPrefix := by
  intro P img bs hw hr
  obtain ⟨ps, q, hbs, hps, j, hq, hj⟩ := hw.exists_codes_and_rest hr bs
  obtain ⟨r, hne, hcode⟩ := hw.exists_code_extending hq hj
  exact ⟨ps, q, r, hbs, hps, ⟨j, hq, hj⟩, hne, hcode⟩

/-- Where the root is no leaf, neither is the node at the cursor (R36). -/
theorem State.Inv.isLeafAt_cursor {s : State P} (h : s.Inv) (hr : s.image.rootIsLeaf = false) :
    s.image.isLeafAt s.cursor = false := by
  rcases h.cursorPlace with hc | ⟨-, hl⟩
  · rw [hc]
    exact hr
  · exact hl

/-- Settles O44: the invariant keeps the cursor at a node that is no leaf, which in a strict tree has the child. -/
theorem strictTreesHaveNoAbsentChild : Obligations.StrictTreesHaveNoAbsentChild := by
  intro b s hw hinv
  rw [exec_eq_execIn]
  cases hf : s.decFault with
  | true => exact ⟨_, execDecBit_of_decFault b hf, hf, rfl, nofun⟩
  | false =>
    cases hr : s.image.rootIsLeaf with
    | true => exact ⟨_, execDecBit_of_rootIsLeaf b hf hr, hf, rfl, fun _ => rfl⟩
    | false =>
      obtain ⟨j, hj⟩ := hw.exists_child hinv.reach_cursor (hinv.isLeafAt_cursor hr) b
      exact ⟨_, execDecBit_of_child_some hf hr hj, by simp [hf], by simp, fun _ => by simp [Responded]⟩

/-! ### Frames that decode -/

/-- A bit of a frame that decodes moves: to a leaf, whose symbol is the next, or to a node further down (R138). -/
theorem Image.decodeFrom_cons_eq_ok {b : Bool} {bs : BitString} {out : List (Symbol P)} :
    img.decodeFrom i (b :: bs) = .ok out ↔ ∃ j, img.child i b = some j ∧
      ((img.isLeafAt j = true ∧ ∃ syms, img.decodeFrom img.root bs = .ok syms ∧
          (img.nodeRead j).symbol :: syms = out) ∨
        (img.isLeafAt j = false ∧ img.decodeFrom j bs = .ok out)) := by
  cases hc : img.child i b with
  | none => simp [Image.decodeFrom, hc]
  | some j =>
    cases hl : img.isLeafAt j with
    | false => simp [Image.decodeFrom, hc, hl]
    | true => cases hd : img.decodeFrom img.root bs <;> simp [Image.decodeFrom, Except.map, hc, hl, hd]

/-- Each symbol takes a bit. -/
theorem Image.decodeFrom_length_le {bs : BitString} {out : List (Symbol P)} (h : img.decodeFrom i bs = .ok out) :
    out.length ≤ bs.length := by
  induction bs generalizing i out with
  | nil =>
    obtain ⟨-, rfl⟩ := Image.decodeFrom_eq_ok.1 h
    simp [Image.decodedBefore]
  | cons b bs ih =>
    obtain ⟨j, -, ⟨-, syms, hd, rfl⟩ | ⟨-, hd⟩⟩ := Image.decodeFrom_cons_eq_ok.1 h
    · simpa using ih hd
    · exact Nat.le_succ_of_le (ih hd)

/-- The bits that led to a node and those that decode from it are the leaf paths of the decoded symbols (R142). -/
theorem Image.UniquePaths.leaf_paths_of_decodeFrom (hu : img.UniquePaths) {bs : BitString} {out : List (Symbol P)}
    (hp : img.walk img.root p = some i) (h : img.decodeFrom i bs = .ok out) :
    ∃ ps : List BitString, p ++ bs = ps.flatten ∧
      List.Forall₂ (fun q x => ∃ j, img.walk img.root q = some j ∧ img.isLeafAt j = true ∧
        (img.nodeRead j).symbol = x) ps out := by
  induction bs generalizing p i out with
  | nil =>
    obtain ⟨hroot, rfl⟩ := Image.decodeFrom_eq_ok.1 h
    obtain rfl : p = [] := hu p [] _ (hp.trans hroot) rfl
    exact ⟨[], rfl, .nil⟩
  | cons b bs ih =>
    obtain ⟨j, hj, hcases⟩ := Image.decodeFrom_cons_eq_ok.1 h
    have hpb : img.walk img.root (p ++ [b]) = some j := (Image.walk_concat hp b).trans hj
    obtain ⟨hl, syms, hd, rfl⟩ | ⟨-, hd⟩ := hcases
    · obtain ⟨ps, rfl, hps⟩ := ih (p := []) rfl hd
      exact ⟨(p ++ [b]) :: ps, by simp, .cons ⟨j, hpb, hl, rfl⟩ hps⟩
    · obtain ⟨ps, hbs, hps⟩ := ih hpb hd
      exact ⟨ps, by simpa using hbs, hps⟩

/-- Settles O52. -/
theorem decodedBitsAreTheLeafPaths : Obligations.DecodedBitsAreTheLeafPaths := by
  refine fun P img bs out hw h => ⟨fun hr => ?_, fun hr => ?_⟩
  · rw [Image.decodeFrame_of_rootIsLeaf hr] at h
    cases h
    simp
  · rw [Image.decodeFrame_of_not_rootIsLeaf hr] at h
    exact ⟨Image.decodeFrom_length_le h, hw.uniquePaths.leaf_paths_of_decodeFrom (p := []) rfl h⟩

end Sys2Proof.Machine
end

section
/-! The decoder commands by their rules (R132, R136): the next state of each case, in terms of the node records. -/

namespace Sys2Proof.Machine

variable {P : Params} {img : Image P} {i : NodeIndex P} {b : Bool} {s : State P}

theorem Image.isLeafAt_eq_true :
    img.isLeafAt i = true ↔ (img.nodeRead i).lv = false ∧ (img.nodeRead i).rv = false := by
  simp [Image.isLeafAt, Node.isLeaf]

theorem Image.isLeafAt_eq_false :
    img.isLeafAt i = false ↔ ¬ ((img.nodeRead i).lv = false ∧ (img.nodeRead i).rv = false) := by
  rw [← Image.isLeafAt_eq_true, Bool.not_eq_true]

/-- The child on a side is there when the valid bit of that side is set (R30). -/
theorem Image.child_eq_ite : img.child i b =
    if (if b then (img.nodeRead i).rv else (img.nodeRead i).lv) then
      some (if b then (img.nodeRead i).right else (img.nodeRead i).left) else none := by
  cases b <;> rfl

theorem State.arriveAt_of_leaf (hl : s.image.isLeafAt i = true) :
    s.arriveAt i = (s.emitDec (.data (s.image.nodeRead i).symbol)).moveCursor s.image.root := by
  simp [State.arriveAt, hl]

theorem State.arriveAt_of_not_leaf (hl : s.image.isLeafAt i = false) : s.arriveAt i = s.moveCursor i := by
  simp [State.arriveAt, hl]

/-- Settles O18: the five cases are those of `DEC_BIT`, a child that is a leaf apart from one that is not. -/
theorem decBitFollowsItsRule : Obligations.DecBitFollowsItsRule := by
  refine ⟨rfl, rfl, ?_⟩
  rintro b s r c m v t rfl rfl hv ht rfl
  have hchild : s.image.child s.cursor b = if v then some t else none := by rw [Image.child_eq_ite, hv, ht]
  simp only [exec_eq_execIn, ← Image.isLeafAt_eq_true, Bool.not_eq_true]
  refine ⟨execDecBit_of_decFault b, execDecBit_of_rootIsLeaf b, ?_, ?_, ?_⟩
  · rintro hf hr rfl
    exact execDecBit_of_child_none hf hr hchild
  · rintro hf hr rfl hl
    exact (execDecBit_of_child_some hf hr hchild).trans (by rw [State.arriveAt_of_leaf hl]; rfl)
  · rintro hf hr rfl hl
    exact (execDecBit_of_child_some hf hr hchild).trans (by rw [State.arriveAt_of_not_leaf hl]; rfl)

/-- In a frame that has not failed, closing it leaves the fault bit as it is. -/
theorem State.closeDec_of_not_decFault (hf : s.decFault = false) (st : Rcode) :
    s.closeDec st = ((s.emitDec (.endFrame st)).moveCursor s.image.root).respond st 0 := by
  simp [State.closeDec, State.emitDec, State.moveCursor, ← hf]

/-- Settles O19, by the three equations of `DEC_END`. -/
theorem decEndFollowsItsRule : Obligations.DecEndFollowsItsRule := by
  refine ⟨rfl, fun s => ?_⟩
  simp only [exec_eq_execIn]
  refine ⟨execDecEnd_of_decFault, fun hf hc => ?_, fun hf hc => ?_⟩
  · refine (execDecEnd_of_decMid hf (State.decMid_eq_true.2 hc)).trans ?_
    rw [State.closeDec_of_not_decFault (s := s.raise .truncatedCode) hf]
    rfl
  · refine (execDecEnd_of_atRoot hf (State.decMid_eq_false.2 hc)).trans ?_
    rw [State.closeDec_of_not_decFault hf, ← hc]
    rfl

end Sys2Proof.Machine
end

section
/-! The status commands and the illegal words by their rules (R28, R152 to R156): what each does, and what it leaves
unchanged. -/

namespace Sys2Proof.Machine

variable {P : Params} {i : Instr P} {s t : State P}

/-! ### The frame of the status commands and the reserved opcodes (R57) -/

theorem Instr.statusOrReserved_iff : 4 ≤ i.opcode.toNat ↔
    i = .rdStatus ∨ i = .clrStatus ∨ (∃ opd, i = .illegalOp6 opd) ∨ ∃ opd, i = .illegalOp7 opd := by
  cases i <;> simp [Instr.opcode]

/-- These commands belong to neither half, so they keep both (R27). -/
theorem execIn_statusOrReserved_keeps_halves (hi : 4 ≤ i.opcode.toNat) (h : execIn i s = .next t) :
    t.encHalf = s.encHalf ∧ t.decHalf = s.decHalf := by
  refine ⟨execIn_keeps_encHalf ?_ h, execIn_keeps_decHalf ?_ h⟩ <;>
    rintro (hop | hop) <;> simp [hop] at hi

/-- The flags that these commands leave: `CLR_STATUS` is the only one to change `s_unk` or `s_mal`, and `RD_STATUS`
leaves `s_ill` as well (R152, R156). -/
theorem execIn_statusOrReserved_flags (hi : 4 ≤ i.opcode.toNat) (h : execIn i s = .next t) :
    (i ≠ .clrStatus → t.sUnk = s.sUnk ∧ t.sMal = s.sMal) ∧ (i = .rdStatus → t.sIll = s.sIll) := by
  obtain rfl | rfl | ⟨opd, rfl⟩ | ⟨opd, rfl⟩ := Instr.statusOrReserved_iff.1 hi <;> cases h <;> simp

/-- Settles O26: both halves and the image are as before, and so are the flags that the command does not write. -/
theorem statusAndIllegalCommandsFrame : Obligations.StatusAndIllegalCommandsFrame := by
  intro i s t hi h
  rw [exec_eq_execIn] at h
  obtain ⟨henc, hdec⟩ := execIn_statusOrReserved_keeps_halves hi h
  obtain ⟨hencFault, hencOut, -⟩ := State.encHalf_eq_iff.1 henc
  obtain ⟨hcursor, hdecFault, hdecOut, -⟩ := State.decHalf_eq_iff.1 hdec
  exact ⟨hcursor, hencFault, hdecFault, hencOut, hdecOut, sameImage_of_execIn h, execIn_statusOrReserved_flags hi h⟩

/-! ### Illegal words (R156) -/

theorem execIn_illegalOp6 (opd : Symbol P) (s : State P) :
    execIn (.illegalOp6 opd) s = .next (s.raise .illegalCommand) := rfl

theorem execIn_illegalOp7 (opd : Symbol P) (s : State P) :
    execIn (.illegalOp7 opd) s = .next (s.raise .illegalCommand) := rfl

/-- Settles O23, by the meanings of the two opcodes. -/
theorem reservedOpcodesRaiseIllegalCommand : Obligations.ReservedOpcodesRaiseIllegalCommand := by
  intro opd s
  simp only [exec_eq_execIn]
  exact ⟨execIn_illegalOp6 opd s, execIn_illegalOp7 opd s⟩

/-- Every illegal word raises IllegalCommand, whether its opcode is reserved or its operand is stray (R84, R156). -/
theorem execWord_of_isIllegal {w : CmdWord P} (hw : isIllegal w = true) (s : State P) :
    execWord w s = .next (s.raise .illegalCommand) := by
  cases hd : decode w with
  | error e => exact execWord_of_error hd
  | ok i =>
    rw [execWord_of_ok hd]
    cases i with
    | illegalOp6 opd => exact execIn_illegalOp6 opd s
    | illegalOp7 opd => exact execIn_illegalOp7 opd s
    | _ => simp [isIllegal, hd] at hw

/-- Settles O6: the words of the statement are illegal by `isIllegal_iff`. -/
theorem illegalWordsOnlySetTheirFlag : Obligations.IllegalWordsOnlySetTheirFlag := by
  intro s w ws hr hc hw
  have hillegal : isIllegal w = true := by
    rw [isIllegal_iff]
    simp only [List.mem_cons, List.not_mem_nil, or_false] at hw ⊢
    omega
  rw [step_of_cmds hr hc]
  exact execWord_of_isIllegal hillegal _

/-! ### The status commands (R28, R152, R154) -/

/-- `STATUS` bit by bit, its bit 5 as what `DEC_MID` says of the cursor (R28). -/
theorem State.status_bits (s : State P) :
    s.status.getLsbD 0 = s.sUnk ∧ s.status.getLsbD 1 = s.sMal ∧ s.status.getLsbD 2 = s.sIll ∧
    s.status.getLsbD 3 = s.encFault ∧ s.status.getLsbD 4 = s.decFault ∧
    (s.status.getLsbD 5 = true ↔ s.cursor ≠ s.image.root) ∧
    s.status.getLsbD 6 = false ∧ s.status.getLsbD 7 = false := by
  simp only [State.status, BitVec.getLsbD_append, BitVec.getLsbD_ofBool, ← State.decMid_eq_true]
  simp

theorem execIn_rdStatus (s : State P) : execIn .rdStatus s = .next (s.respond .ok s.status) := rfl

theorem execIn_clrStatus (s : State P) : execIn .clrStatus s = .next (s.clearSticky.respond .ok 0) := rfl

/-- Settles O21: the byte answered is `STATUS` of the state before. -/
theorem rdStatusAnswersTheStatusView : Obligations.RdStatusAnswersTheStatusView := by
  refine ⟨rfl, fun s => ⟨s.status, ?_, State.status_bits s⟩⟩
  rw [exec_eq_execIn]
  exact execIn_rdStatus s

/-- Settles O22, by the meaning of `CLR_STATUS`. -/
theorem clrStatusClearsTheStickyFlags : Obligations.ClrStatusClearsTheStickyFlags := by
  refine ⟨rfl, fun s => ?_⟩
  rw [exec_eq_execIn]
  exact execIn_clrStatus s

end Sys2Proof.Machine
end

section
/-! The numbering of the nodes (R184): over the same tree under other numbers every command has the same outcome, the
cursor apart. -/

namespace Sys2Proof.Machine

variable {P : Params} {f : NodeIndex P → NodeIndex P}

/-! ### What a tree and its renumbering agree on -/

namespace Image.Renumbered

variable {a b : Image P} (h : a.Renumbered f b)
include h

theorem child {i : NodeIndex P} (hi : a.Reach i) (bit : Bool) : b.child (f i) bit = (a.child i bit).map f := by
  obtain ⟨hlv, hrv, hleft, hright, -⟩ := h.nodes i hi
  cases bit with
  | false => cases hv : (a.nodeRead i).lv <;> simp [Image.child_eq_ite, hlv, hv, hleft]
  | true => cases hv : (a.nodeRead i).rv <;> simp [Image.child_eq_ite, hrv, hv, hright]

theorem isLeafAt {i : NodeIndex P} (hi : a.Reach i) : b.isLeafAt (f i) = a.isLeafAt i := by
  obtain ⟨hlv, hrv, -⟩ := h.nodes i hi
  simp [Image.isLeafAt, Node.isLeaf, hlv, hrv]

theorem symbol {i : NodeIndex P} (hi : a.Reach i) (hl : a.isLeafAt i = true) :
    (b.nodeRead (f i)).symbol = (a.nodeRead i).symbol := by
  obtain ⟨-, -, -, -, hsym⟩ := h.nodes i hi
  exact hsym hl

theorem rootIsLeaf : b.rootIsLeaf = a.rootIsLeaf := by
  rw [Image.rootIsLeaf, h.root]
  exact h.isLeafAt Image.reach_root

theorem codeRead (sym : Symbol P) : b.codeRead sym = a.codeRead sym := by
  simp [Image.codeRead, h.code]

end Image.Renumbered

/-! ### The outcome of a command over the renumbered tree -/

section outcome

variable {b : Image P} {s : State P}

@[simp] theorem State.renumber_cursor : (s.renumber f b).cursor = f s.cursor := rfl
@[simp] theorem State.renumber_encFault : (s.renumber f b).encFault = s.encFault := rfl
@[simp] theorem State.renumber_decFault : (s.renumber f b).decFault = s.decFault := rfl
@[simp] theorem State.renumber_image : (s.renumber f b).image = b := rfl

variable (h : s.image.Renumbered f b)
include h

/-- The numbers of reached nodes are distinct in both trees, so the cursor is away from the root in both or in
neither. -/
theorem State.decMid_renumber (hcur : s.image.Reach s.cursor) : (s.renumber f b).decMid = s.decMid := by
  have hiff : f s.cursor = f s.image.root ↔ s.cursor = s.image.root :=
    ⟨h.injective _ _ hcur Image.reach_root, congrArg f⟩
  rw [Bool.eq_iff_iff, State.decMid_eq_true, State.decMid_eq_true, State.renumber_cursor, State.renumber_image, h.root,
    ne_eq, hiff]

theorem State.status_renumber (hcur : s.image.Reach s.cursor) : (s.renumber f b).status = s.status := by
  simp only [State.status, State.decMid_renumber h hcur]
  rfl

theorem State.raise_renumber (c : Condition) : (s.renumber f b).raise c = (s.raise c).renumber f b := by
  cases c with
  | absentChild => simp [State.raise, State.respond, State.renumber, h.root]
  | _ => rfl

theorem State.closeDec_renumber (st : Rcode) : (s.renumber f b).closeDec st = (s.closeDec st).renumber f b := by
  simp [State.closeDec, State.respond, State.emitDec, State.renumber, h.root]

theorem State.arriveAt_renumber {j : NodeIndex P} (hj : s.image.Reach j) :
    (s.renumber f b).arriveAt (f j) = (s.arriveAt j).renumber f b := by
  have hleaf : (s.renumber f b).image.isLeafAt (f j) = s.image.isLeafAt j := h.isLeafAt hj
  cases hl : s.image.isLeafAt j with
  | true =>
    rw [State.arriveAt_of_leaf hl, State.arriveAt_of_leaf (hleaf.trans hl), State.renumber_image, h.symbol hj hl, h.root]
    rfl
  | false =>
    rw [State.arriveAt_of_not_leaf hl, State.arriveAt_of_not_leaf (hleaf.trans hl)]
    rfl

/-- `ENC_SYM` reads the `CODE` space, which is the same over both trees. -/
theorem execEncSym_renumber (sym : Symbol P) :
    execEncSym sym (s.renumber f b) = mapNext (State.renumber f b) (execEncSym sym s) := by
  simp only [execEncSym, State.renumber_encFault, State.renumber_image, h.codeRead]
  split_ifs <;> rfl

/-- `DEC_BIT` moves along the renumbered edge, to the root or to nowhere in both. -/
theorem execDecBit_renumber (hcur : s.image.Reach s.cursor) (bit : Bool) :
    execDecBit bit (s.renumber f b) = mapNext (State.renumber f b) (execDecBit bit s) := by
  cases hf : s.decFault with
  | true =>
    rw [execDecBit_of_decFault bit hf, execDecBit_of_decFault bit (s := s.renumber f b) hf]
    rfl
  | false =>
    have hf' : (s.renumber f b).decFault = false := hf
    cases hr : s.image.rootIsLeaf with
    | true =>
      rw [execDecBit_of_rootIsLeaf bit hf hr, execDecBit_of_rootIsLeaf bit hf' (h.rootIsLeaf.trans hr),
        State.renumber_image, h.root, h.symbol Image.reach_root hr]
      rfl
    | false =>
      have hr' := h.rootIsLeaf.trans hr
      have hchild : b.child (f s.cursor) bit = (s.image.child s.cursor bit).map f := h.child hcur bit
      cases hc : s.image.child s.cursor bit with
      | none =>
        rw [hc] at hchild
        rw [execDecBit_of_child_none hf hr hc, execDecBit_of_child_none hf' hr' hchild, State.raise_renumber h]
        rfl
      | some j =>
        rw [hc] at hchild
        rw [execDecBit_of_child_some hf hr hc, execDecBit_of_child_some hf' hr' hchild,
          State.arriveAt_renumber h (hcur.child hc)]
        rfl

/-- `DEC_END` finds the cursor away from the root in both or in neither. -/
theorem execDecEnd_renumber (hcur : s.image.Reach s.cursor) :
    execDecEnd (s.renumber f b) = mapNext (State.renumber f b) (execDecEnd s) := by
  have htrunc : (s.raise .truncatedCode).image.Renumbered f b := h
  simp only [execDecEnd, State.renumber_decFault, State.decMid_renumber h hcur, State.raise_renumber h,
    State.closeDec_renumber h, State.closeDec_renumber htrunc]
  split_ifs <;> rfl

/-- The outcome of a command over the renumbered tree is its outcome over the tree in place, renumbered, where the
cursor is at a reached node. -/
theorem execIn_renumber (hcur : s.image.Reach s.cursor) (i : Instr P) :
    execIn i (s.renumber f b) = mapNext (State.renumber f b) (execIn i s) := by
  cases i with
  | encSym sym => exact execEncSym_renumber h sym
  | decBit bit => exact execDecBit_renumber h hcur bit
  | decEnd => exact execDecEnd_renumber h hcur
  | rdStatus =>
    rw [execIn_rdStatus, execIn_rdStatus, State.status_renumber h hcur]
    rfl
  | encEnd | clrStatus | illegalOp6 opd | illegalOp7 opd => rfl

end outcome

/-- Settles O43: the invariant keeps the cursor at a reached node, whose number is another's in neither tree. -/
theorem nodeNumberingDoesNotMatter : Obligations.NodeNumberingDoesNotMatter := by
  rintro f _ b i s hab rfl hinv
  rw [exec_eq_execIn, exec_eq_execIn]
  exact execIn_renumber hab hinv.reach_cursor i

end Sys2Proof.Machine
end

section
/-! What `Generate` guarantees (R170, R172, R176), and the round trip of frames that follows from it (R178). -/

namespace Sys2Proof.Machine

/-! ### Generated codes are leaf paths -/

section codes

variable {P : Params} {img : Image P} {x y : Symbol P} {i j : NodeIndex P} {p q : BitString}

theorem Image.generates_of_rootIsLeaf (hr : img.rootIsLeaf = true) :
    img.Generates x p ↔ x = (img.nodeRead img.root).symbol ∧ p = [false] := by
  rw [Image.Generates, if_pos hr]

theorem Image.generates_of_not_rootIsLeaf (hr : img.rootIsLeaf = false) : img.Generates x p ↔
    ∃ j, img.walk img.root p = some j ∧ img.isLeafAt j = true ∧ (img.nodeRead j).symbol = x := by
  rw [Image.Generates, if_neg (by simp [hr])]

/-- No bit string leads on from a leaf. -/
theorem Image.walk_of_isLeafAt (hl : img.isLeafAt i = true) (h : img.walk i p = some j) : p = [] ∧ j = i := by
  cases p with
  | nil => cases h; exact ⟨rfl, rfl⟩
  | cons b p => simp [Image.walk_cons, Image.child_eq_none_of_isLeafAt hl] at h

/-- Exactly the leaf symbols get a code (R176). -/
theorem Image.exists_generates_iff : (∃ p, img.Generates x p) ↔ img.LeafSymbol x := by
  cases hr : img.rootIsLeaf with
  | true =>
    simp only [Image.generates_of_rootIsLeaf hr]
    constructor
    · rintro ⟨_, rfl, -⟩
      exact ⟨img.root, Image.reach_root, hr, rfl⟩
    · rintro ⟨j, ⟨p, hp⟩, -, rfl⟩
      obtain ⟨-, rfl⟩ := Image.walk_of_isLeafAt hr hp
      exact ⟨_, rfl, rfl⟩
  | false =>
    simp only [Image.generates_of_not_rootIsLeaf hr, Image.LeafSymbol, Image.Reach]
    exact ⟨fun ⟨p, j, hp, hj⟩ => ⟨j, ⟨p, hp⟩, hj⟩, fun ⟨j, ⟨p, hp⟩, hj⟩ => ⟨p, j, hp, hj⟩⟩

/-- No code is empty: the path of a leaf other than the root has a bit (R176). -/
theorem Image.Generates.ne_nil (h : img.Generates x p) : p ≠ [] := by
  rintro rfl
  cases hr : img.rootIsLeaf with
  | true => simp [Image.generates_of_rootIsLeaf hr] at h
  | false =>
    obtain ⟨j, hj, hl, -⟩ := (Image.generates_of_not_rootIsLeaf hr).1 h
    cases hj
    rw [Image.rootIsLeaf, hl] at hr
    cases hr

/-- A code that begins another is that other, and their symbol is one: the path of a leaf leads on to no other leaf
(R176). -/
theorem Image.Generates.eq_of_prefix (hp : img.Generates x p) (hq : img.Generates y q) (hpq : p <+: q) :
    x = y ∧ p = q := by
  cases hr : img.rootIsLeaf with
  | true =>
    obtain ⟨rfl, rfl⟩ := (Image.generates_of_rootIsLeaf hr).1 hp
    obtain ⟨rfl, rfl⟩ := (Image.generates_of_rootIsLeaf hr).1 hq
    exact ⟨rfl, rfl⟩
  | false =>
    obtain ⟨i, hi, hl, rfl⟩ := (Image.generates_of_not_rootIsLeaf hr).1 hp
    obtain ⟨j, hj, -, rfl⟩ := (Image.generates_of_not_rootIsLeaf hr).1 hq
    obtain ⟨r, rfl⟩ := hpq
    rw [Image.walk_append, hi, Option.bind_some] at hj
    obtain ⟨rfl, rfl⟩ := Image.walk_of_isLeafAt hl hj
    simp

/-- A symbol has one code: its leaves are one by (T2), and the leaf has one path by (T1) (R176). -/
theorem Image.WfTree.generates_unique (hw : img.WfTree) (hp : img.Generates x p) (hq : img.Generates x q) : p = q := by
  cases hr : img.rootIsLeaf with
  | true =>
    obtain ⟨-, rfl⟩ := (Image.generates_of_rootIsLeaf hr).1 hp
    exact ((Image.generates_of_rootIsLeaf hr).1 hq).2.symm
  | false =>
    obtain ⟨i, hi, hil, hix⟩ := (Image.generates_of_not_rootIsLeaf hr).1 hp
    obtain ⟨j, hj, hjl, rfl⟩ := (Image.generates_of_not_rootIsLeaf hr).1 hq
    obtain rfl := hw.distinctSymbols i j ⟨p, hi⟩ ⟨q, hj⟩ hil hjl hix
    exact hw.uniquePaths p q i hi hj

end codes

/-- Settles O54: the traversal has fuel for every path of a tree with (T1). -/
theorem generateRecordsTheLeafPaths : Obligations.GenerateRecordsTheLeafPaths :=
  fun _ _ hw _ _ => Image.mem_generate hw.uniquePaths

/-- Settles O53: a code that begins another symbol's would make the two symbols one. -/
theorem generatedCodesArePrefixFree : Obligations.GeneratedCodesArePrefixFree :=
  fun _ _ hw => ⟨fun _ => Image.exists_generates_iff, fun _ _ _ => hw.generates_unique, fun _ _ => Image.Generates.ne_nil,
    fun _ _ _ _ hxy hp hq hpq => hxy (hp.eq_of_prefix hq hpq).1⟩

/-! ### The round trip of the frame functions (R178) -/

section roundTrip

variable {P : Params} {img : Image P} {i j : NodeIndex P} {p q bs : BitString} {x : Symbol P} {syms : List (Symbol P)}

/-- The rest of a path to a leaf decodes to the leaf's symbol, and what follows it decodes from the root (R138). -/
theorem Image.decodeFrom_append_of_walk (hi : img.isLeafAt i = false) (hp : img.walk i p = some j)
    (hj : img.isLeafAt j = true) (hq : img.decodeFrom img.root q = .ok syms) :
    img.decodeFrom i (p ++ q) = .ok ((img.nodeRead j).symbol :: syms) := by
  induction p generalizing i with
  | nil =>
    cases hp
    rw [hi] at hj
    cases hj
  | cons b p ih =>
    rw [Image.walk_cons, Option.bind_eq_some_iff] at hp
    obtain ⟨k, hk, hp⟩ := hp
    rw [List.cons_append, Image.decodeFrom_cons_eq_ok]
    refine ⟨k, hk, ?_⟩
    cases hl : img.isLeafAt k with
    | true =>
      obtain ⟨rfl, rfl⟩ := Image.walk_of_isLeafAt hl hp
      exact .inl ⟨rfl, syms, hq, rfl⟩
    | false => exact .inr ⟨rfl, ih hl hp⟩

/-- One generated code before a frame that decodes adds its symbol to the frame. -/
theorem Image.Generates.decodeFrame_append (hx : img.Generates x p) (hq : img.decodeFrame q = .ok syms) :
    img.decodeFrame (p ++ q) = .ok (x :: syms) := by
  cases hr : img.rootIsLeaf with
  | true =>
    obtain ⟨rfl, rfl⟩ := (Image.generates_of_rootIsLeaf hr).1 hx
    rw [Image.decodeFrame_of_rootIsLeaf hr] at hq ⊢
    cases hq
    rfl
  | false =>
    obtain ⟨j, hp, hj, rfl⟩ := (Image.generates_of_not_rootIsLeaf hr).1 hx
    rw [Image.decodeFrame_of_not_rootIsLeaf hr] at hq ⊢
    exact Image.decodeFrom_append_of_walk hr hp hj hq

theorem Image.decodeFrame_nil (img : Image P) : img.decodeFrame [] = .ok [] := by
  cases hr : img.rootIsLeaf with
  | true => exact Image.decodeFrame_of_rootIsLeaf hr []
  | false => simp [Image.decodeFrame_of_not_rootIsLeaf hr, Image.decodeFrom]

/-- A consistent image encodes leaf symbols to bits that decode to them. -/
theorem Image.Consistent.exists_encodeFrame (hc : img.Consistent) (hs : ∀ x ∈ syms, img.LeafSymbol x) :
    ∃ bs, img.encodeFrame syms = .ok bs ∧ img.decodeFrame bs = .ok syms := by
  induction syms with
  | nil => exact ⟨[], rfl, img.decodeFrame_nil⟩
  | cons x syms ih =>
    obtain ⟨hx, hs⟩ := List.forall_mem_cons.1 hs
    obtain ⟨p, hp⟩ := Image.exists_generates_iff.2 hx
    obtain ⟨q, henc, hdec⟩ := ih hs
    exact ⟨p ++ q, Image.encodeFrame_cons_eq_ok.2 ⟨p, q, (hc.holdsTheTable x p).2 hp, henc, rfl⟩,
      hp.decodeFrame_append hdec⟩

end roundTrip

/-- Settles O49: the codes a consistent image holds are leaf paths, and each decodes to its symbol. -/
theorem decodeInvertsEncode : Obligations.DecodeInvertsEncode :=
  fun _ _ _ _ hc _ hs => hc.exists_encodeFrame hs

/-! ### The round trip of the machine from reset (R178) -/

/-- With no flag set and the cursor at the root, `STATUS` is 0 (R28). -/
theorem State.status_eq_zero {P : Params} {s : State P} (hunk : s.sUnk = false) (hmal : s.sMal = false)
    (hill : s.sIll = false) (henc : s.encFault = false) (hdec : s.decFault = false) (hcur : s.cursor = s.image.root) :
    s.status = 0 := by
  rw [State.status, State.decMid_eq_false.2 hcur, hunk, hmal, hill, henc, hdec]
  rfl

/-- Settles O50: the frame functions round trip, and the machine's frames from reset are those of the frame functions. -/
theorem machineRoundTrip : Obligations.MachineRoundTrip := by
  intro img syms hw hc hl hs
  obtain ⟨bs, henc, hdec⟩ := decodeInvertsEncode _ img syms hw hc hl hs
  refine ⟨bs, _, _, henc, hdec, runAll_encodeCommands_of_ok (s := State.resetWith img) rfl hl henc, rfl,
    runAll_decodeCommands_of_ok (s := State.resetWith img) rfl rfl hdec, rfl, fun r hr => ?_, ?_, ?_⟩
  · rcases List.mem_append.1 hr with hr | hr <;>
      rw [List.eq_of_mem_replicate hr]
  · exact State.status_eq_zero rfl rfl rfl rfl rfl rfl
  · exact State.status_eq_zero rfl rfl rfl rfl rfl rfl

end Sys2Proof.Machine
end

section
/-! Writing a code table (R174, R184): the entry of each code, the space of a whole table, and why it is consistent. -/

namespace Sys2Proof.Machine

/-! ### A space made of a list of words -/

section writeAll

variable {ι : Type} {w size : Nat} {addr : ι → Nat} {word : ι → BitVec w} {l : List ι}

/-- The space in which each element of a list has put its word at its address, and every other word is blank (R184). -/
def Memory.writeAll (addr : ι → Nat) (word : ι → BitVec w) (l : List ι) : Memory w :=
  l.foldl (fun m e => m.write (addr e) (word e)) []

theorem Memory.writeAll_concat (l : List ι) (e : ι) :
    Memory.writeAll addr word (l ++ [e]) = (Memory.writeAll addr word l).write (addr e) (word e) := by
  simp [Memory.writeAll]

theorem Memory.wf_writeAll (hl : ∀ e ∈ l, addr e < size) : (Memory.writeAll addr word l).wf size := by
  induction l using List.reverseRecOn with
  | nil => exact Memory.wf_nil
  | append_singleton l e ih =>
    rw [Memory.writeAll_concat]
    exact Memory.wf_write (ih fun d hd => hl d (by simp [hd])) (hl e (by simp)) _

/-- An address reads as the word that every element with that address puts there; without such an element as blank. -/
theorem Memory.read_writeAll (hl : ∀ e ∈ l, addr e < size) {a : Nat} {v : BitVec w}
    (hv : ∀ e ∈ l, addr e = a → word e = v) (ha : (∃ e ∈ l, addr e = a) ∨ v = Memory.blank w) :
    (Memory.writeAll addr word l).read a = v := by
  induction l using List.reverseRecOn with
  | nil => simpa [Memory.writeAll, eq_comm] using ha
  | append_singleton l e ih =>
    have hl' : ∀ d ∈ l, addr d < size := fun d hd => hl d (by simp [hd])
    rw [Memory.writeAll_concat, Memory.read_write (Memory.wf_writeAll hl')]
    split
    · next he => exact hv e (by simp) he
    · next he =>
      refine ih hl' (fun d hd => hv d (by simp [hd])) (ha.imp_left ?_)
      rintro ⟨d, hd, rfl⟩
      rcases List.mem_append.1 hd with hd | hd
      · exact ⟨d, hd, rfl⟩
      · rw [List.mem_singleton.1 hd] at he
        exact absurd rfl he

end writeAll

/-! ### The entry of a code (R96, R184) -/

section ofCode

variable {P : Params} {p : BitString}

/-- The number an entry's bits are made of has the bits of the code, the first lowest. -/
theorem testBit_foldr_bits (p : BitString) (k : Nat) :
    (p.foldr (fun (b : Bool) n => 2 * n + b.toNat) 0).testBit k = p.getD k false := by
  induction p generalizing k with
  | nil => simp
  | cons b p ih =>
    rw [List.foldr_cons, ← Nat.bit_val]
    cases k with
    | zero => simp
    | succ k => rw [Nat.testBit_bit_succ, ih, List.getD_cons_succ]

theorem CodeEntry.ofCode_len_toNat (hp : p.length ≤ P.maxCodeLen) :
    (CodeEntry.ofCode p : CodeEntry P).len.toNat = p.length := by
  rw [CodeEntry.ofCode, BitVec.toNat_ofNat]
  exact Nat.mod_eq_of_lt (hp.trans_lt Nat.lt_log2_self)

theorem CodeEntry.ofCode_bits_getLsbD (hp : p.length ≤ P.maxCodeLen) (k : Nat) :
    (CodeEntry.ofCode p : CodeEntry P).bits.getLsbD k = p.getD k false := by
  rw [CodeEntry.ofCode, BitVec.getLsbD_ofNat, testBit_foldr_bits]
  by_cases hk : k < P.maxCodeLen
  · simp [hk]
  · rw [List.getD_eq_default _ _ (by omega)]
    simp

/-- The entry of a code that fits holds the code (R34). -/
theorem CodeEntry.ofCode_code (hp : p.length ≤ P.maxCodeLen) : (CodeEntry.ofCode p : CodeEntry P).code = p := by
  have hlen := CodeEntry.ofCode_len_toNat hp
  apply List.ext_getElem
  · rw [CodeEntry.code_length, hlen]
  · intro k _ hk
    simp [CodeEntry.code, CodeEntry.ofCode_bits_getLsbD hp, hk]

theorem CodeEntry.ofCode_lenOk (hp : p.length ≤ P.maxCodeLen) (hne : p ≠ []) :
    (CodeEntry.ofCode p : CodeEntry P).lenOk = true := by
  have hlen := CodeEntry.ofCode_len_toNat hp
  have hpos := List.length_pos_iff.2 hne
  exact CodeEntry.lenOk_of_bounds (by omega) (by omega)

/-- The bits above the length are zero (S2). -/
theorem CodeEntry.ofCode_ignoredZero (hp : p.length ≤ P.maxCodeLen) :
    (CodeEntry.ofCode p : CodeEntry P).ignoredZero = true := by
  rw [CodeEntry.ignoredZero_iff, CodeEntry.ofCode_len_toNat hp]
  refine ⟨fun _ k hk => ?_, nofun⟩
  rw [CodeEntry.ofCode_bits_getLsbD hp, List.getD_eq_default _ _ hk]

end ofCode

/-! ### The tree of an image with another `CODE` space -/

section withCode

variable {P : Params} (img : Image P) (code : Memory P.codeW)

theorem Image.walk_withCode (i : NodeIndex P) (p : BitString) : { img with code := code }.walk i p = img.walk i p := by
  induction p generalizing i with
  | nil => rfl
  | cons b p ih =>
    simp only [Image.walk_cons, ih]
    rfl

theorem Image.reach_withCode (i : NodeIndex P) : { img with code := code }.Reach i ↔ img.Reach i := by
  simp only [Image.Reach, Image.walk_withCode]

theorem Image.generates_withCode (x : Symbol P) (p : BitString) :
    { img with code := code }.Generates x p ↔ img.Generates x p := by
  simp only [Image.Generates, Image.walk_withCode]
  rfl

theorem Image.uniquePaths_withCode : { img with code := code }.UniquePaths ↔ img.UniquePaths := by
  simp only [Image.UniquePaths, Image.walk_withCode]

theorem Image.distinctSymbols_withCode : { img with code := code }.DistinctSymbols ↔ img.DistinctSymbols := by
  simp only [Image.DistinctSymbols, Image.reach_withCode]
  rfl

theorem Image.twoChildren_withCode : { img with code := code }.TwoChildren ↔ img.TwoChildren := by
  simp only [Image.TwoChildren, Image.reach_withCode]
  rfl

theorem Image.wfTree_withCode : { img with code := code }.WfTree ↔ img.WfTree :=
  ⟨fun h => ⟨(img.uniquePaths_withCode code).1 h.uniquePaths, (img.distinctSymbols_withCode code).1 h.distinctSymbols⟩,
    fun h => ⟨(img.uniquePaths_withCode code).2 h.uniquePaths, (img.distinctSymbols_withCode code).2 h.distinctSymbols⟩⟩

theorem Image.wfTreeStrict_withCode : { img with code := code }.WfTreeStrict ↔ img.WfTreeStrict :=
  ⟨fun h => ⟨(img.wfTree_withCode code).1 h.wfTree, (img.twoChildren_withCode code).1 h.twoChildren⟩,
    fun h => ⟨(img.wfTree_withCode code).2 h.wfTree, (img.twoChildren_withCode code).2 h.twoChildren⟩⟩

end withCode

/-! ### The written table (R174) -/

section table

variable {P : Params} {img : Image P} {x : Symbol P} {p : BitString} {table : List (Symbol P × BitString)}

theorem Image.withCodeTable_code (img : Image P) (table : List (Symbol P × BitString)) :
    (img.withCodeTable table).code =
      Memory.writeAll (fun e => e.1.toNat) (fun e => (CodeEntry.ofCode e.2).pack) table := rfl

theorem Image.wf_withCodeTable_code (img : Image P) (table : List (Symbol P × BitString)) :
    (img.withCodeTable table).code.wf (2 ^ P.symW) :=
  Memory.wf_writeAll fun e _ => e.1.isLt

/-- A symbol with one code in the table has the entry of that code. -/
theorem Image.codeRead_withCodeTable (hmem : (x, p) ∈ table) (hone : ∀ q, (x, q) ∈ table → q = p) :
    (img.withCodeTable table).codeRead x = CodeEntry.ofCode p := by
  rw [Image.codeRead, Image.withCodeTable_code, Memory.read_writeAll (fun e _ => e.1.isLt) ?_ (.inl ⟨_, hmem, rfl⟩),
    CodeEntry.unpack_pack]
  rintro ⟨y, q⟩ hq hy
  obtain rfl := BitVec.eq_of_toNat_eq hy
  rw [hone q hq]

/-- A symbol with no code in the table has the blank entry. -/
theorem Image.codeRead_withCodeTable_of_absent (habsent : ∀ q, (x, q) ∉ table) :
    (img.withCodeTable table).codeRead x = CodeEntry.blank := by
  rw [Image.codeRead, Image.withCodeTable_code, Memory.read_writeAll (fun e _ => e.1.isLt) ?_ (.inr rfl),
    CodeEntry.unpack_blank]
  rintro ⟨y, q⟩ hq hy
  obtain rfl := BitVec.eq_of_toNat_eq hy
  exact absurd hq (habsent q)

variable (hw : img.WfTree) (hfit : img.CodesFit)
include hw hfit

/-- Each entry of the written table is that of the symbol's one generated code, which fits, or blank. -/
theorem Image.codeRead_withGenerated (x : Symbol P) :
    (∃ p, img.Generates x p ∧ p.length ≤ P.maxCodeLen ∧
      (img.withCodeTable img.generate).codeRead x = CodeEntry.ofCode p) ∨
    ((∀ p, ¬ img.Generates x p) ∧ (img.withCodeTable img.generate).codeRead x = CodeEntry.blank) := by
  have hmem (p) : (x, p) ∈ img.generate ↔ img.Generates x p := Image.mem_generate hw.uniquePaths
  by_cases hx : ∃ p, img.Generates x p
  · obtain ⟨p, hp⟩ := hx
    have hread := Image.codeRead_withCodeTable (img := img) ((hmem p).2 hp)
      fun q hq => hw.generates_unique ((hmem q).1 hq) hp
    exact .inl ⟨p, hp, hfit _ ((hmem p).2 hp), hread⟩
  · rw [not_exists] at hx
    exact .inr ⟨hx, Image.codeRead_withCodeTable_of_absent fun p hp => hx p ((hmem p).1 hp)⟩

theorem Image.codeOf_withGenerated (x : Symbol P) (p : BitString) :
    (img.withCodeTable img.generate).codeOf x = some p ↔ img.Generates x p := by
  obtain ⟨q, hq, hlen, hread⟩ | ⟨hnone, hread⟩ := img.codeRead_withGenerated hw hfit x
  · rw [Image.codeOf_eq_some, hread, CodeEntry.ofCode_code hlen]
    constructor
    · rintro ⟨-, rfl⟩
      exact hq
    · exact fun hp => ⟨rfl, hw.generates_unique hq hp⟩
  · simp [Image.codeOf, hread, CodeEntry.blank, hnone]

theorem Image.consistent_withGenerated : (img.withCodeTable img.generate).Consistent where
  holdsTheTable x p := (img.codeOf_withGenerated hw hfit x p).trans (img.generates_withCode _ x p).symm
  codesFit x p hp := hfit (x, p) ((Image.mem_generate hw.uniquePaths).2 ((img.generates_withCode _ x p).1 hp))

theorem Image.wfCode_withGenerated : (img.withCodeTable img.generate).WfCode where
  lenInRange x := by
    obtain ⟨p, hp, hlen, hread⟩ | ⟨-, hread⟩ := img.codeRead_withGenerated hw hfit x
    · rw [hread, CodeEntry.ofCode_lenOk hlen hp.ne_nil]
    · rw [hread]
      rfl
  prefixFree x y p q hxy hp hq hpq := by
    rw [img.codeOf_withGenerated hw hfit] at hp hq
    exact hxy (hp.eq_of_prefix hq hpq).1

theorem Image.ignoredZero_withGenerated (x : Symbol P) :
    ((img.withCodeTable img.generate).codeRead x).ignoredZero = true := by
  obtain ⟨p, -, hlen, hread⟩ | ⟨-, hread⟩ := img.codeRead_withGenerated hw hfit x
  · rw [hread, CodeEntry.ofCode_ignoredZero hlen]
  · simp [hread, CodeEntry.ignoredZero, CodeEntry.blank]

end table

/-- No `CODE` space makes a tree consistent that generates a code longer than a `CODE` word holds (R174). -/
theorem Image.not_consistent_of_long {P : Params} {img : Image P} {code : Memory P.codeW} (hu : img.UniquePaths)
    {e : Symbol P × BitString} (he : e ∈ img.generate) (hlong : P.maxCodeLen < e.2.length) :
    ¬ { img with code := code }.Consistent := by
  intro hc
  have hgen : img.Generates e.1 e.2 := (Image.mem_generate hu).1 he
  have hfit := hc.codesFit e.1 e.2 ((img.generates_withCode code _ _).2 hgen)
  omega

end Sys2Proof.Machine
end

section
/-! Writing a tree (R184): each node's word at its number, and what the image says of the tree (R30, R31, R168). -/

namespace Sys2Proof.Machine

variable {P : Params}

namespace RomTree

variable {t u v c : RomTree P} {b : Bool} {p q : BitString}

/-! ### Trees by their children -/

/-- The child of a node on one side, if present: left on the bit 0, right on the bit 1 (R30). -/
def child : RomTree P → Bool → Option (RomTree P)
  | .leftOnly _ l, false => some l
  | .rightOnly _ r, true => some r
  | .both _ l _, false => some l
  | .both _ _ r, true => some r
  | _, _ => none

/-- The index a node is written at (R184). -/
def index (u : RomTree P) : NodeIndex P := BitVec.ofNat _ u.num

/-- A node's record names the indices of its children. -/
theorem record_child (u : RomTree P) (b : Bool) : u.record.child b = (u.child b).map index := by
  cases u <;> cases b <;> rfl

/-- What holds of a node when it holds of its children holds of every node. -/
theorem childInduction {motive : RomTree P → Prop}
    (node : ∀ t, (∀ b c, t.child b = some c → motive c) → motive t) (t : RomTree P) : motive t := by
  induction t with
  | leaf n s => exact node _ fun b c h => by cases h
  | leftOnly n l hl =>
    refine node _ fun b c h => ?_
    cases b <;> cases h
    exact hl
  | rightOnly n r hr =>
    refine node _ fun b c h => ?_
    cases b <;> cases h
    exact hr
  | both n l r hl hr =>
    refine node _ fun b c h => ?_
    cases b <;> cases h
    · exact hl
    · exact hr

theorem mem_subtrees_iff : u ∈ t.subtrees ↔ u = t ∨ ∃ b c, t.child b = some c ∧ u ∈ c.subtrees := by
  cases t <;> simp [subtrees, child]

theorem mem_subtrees_self (t : RomTree P) : t ∈ t.subtrees := mem_subtrees_iff.2 (.inl rfl)

theorem mem_subtrees_of_child (hu : u ∈ t.subtrees) (hc : u.child b = some c) : c ∈ t.subtrees := by
  induction t using childInduction with
  | node t ih =>
    rw [mem_subtrees_iff] at hu ⊢
    obtain rfl | ⟨b', d, hd, hu⟩ := hu
    · exact .inr ⟨b, c, hc, c.mem_subtrees_self⟩
    · exact .inr ⟨b', d, hd, ih b' d hd hu⟩

/-- Where no node comes up twice, none does in a child, the node itself is in no child, and two children share none. -/
theorem nodup_subtrees_iff : t.subtrees.Nodup ↔
    (∀ b c, t.child b = some c → c.subtrees.Nodup ∧ t ∉ c.subtrees) ∧
    ∀ l r, t.child false = some l → t.child true = some r → l.subtrees.Disjoint r.subtrees := by
  cases t <;> simp [subtrees, child, List.nodup_append', and_comm, and_left_comm, and_assoc]

/-! ### Paths in a tree -/

/-- The node that a bit string leads to, if no child on the way is absent (R30). -/
def descend : RomTree P → BitString → Option (RomTree P)
  | t, [] => some t
  | t, b :: p =>
    match t.child b with
    | some c => descend c p
    | none => none

theorem descend_cons (t : RomTree P) (b : Bool) (p : BitString) : t.descend (b :: p) = (t.child b).bind (·.descend p) := by
  rw [descend]
  cases t.child b <;> rfl

theorem descend_cons_eq_some : t.descend (b :: p) = some u ↔ ∃ c, t.child b = some c ∧ c.descend p = some u := by
  rw [descend_cons, Option.bind_eq_some_iff]

/-- The nodes of a tree are those that bit strings lead to. -/
theorem exists_descend_iff : (∃ p, t.descend p = some u) ↔ u ∈ t.subtrees := by
  induction t using childInduction with
  | node t ih =>
    rw [mem_subtrees_iff]
    constructor
    · rintro ⟨_ | ⟨b, p⟩, h⟩
      · exact .inl (Option.some.inj h).symm
      · obtain ⟨c, hc, hp⟩ := descend_cons_eq_some.1 h
        exact .inr ⟨b, c, hc, (ih b c hc).1 ⟨p, hp⟩⟩
    · rintro (rfl | ⟨b, c, hc, hu⟩)
      · exact ⟨[], rfl⟩
      · obtain ⟨p, hp⟩ := (ih b c hc).2 hu
        exact ⟨b :: p, descend_cons_eq_some.2 ⟨c, hc, hp⟩⟩

theorem mem_subtrees_of_descend (h : t.descend p = some u) : u ∈ t.subtrees := exists_descend_iff.1 ⟨p, h⟩

/-- Where no node comes up twice, one path leads to each. -/
theorem descend_injective (hn : t.subtrees.Nodup) (hp : t.descend p = some u) (hq : t.descend q = some u) : p = q := by
  induction p generalizing t q with
  | nil =>
    cases hp
    cases q with
    | nil => rfl
    | cons b q =>
      obtain ⟨c, hc, hq⟩ := descend_cons_eq_some.1 hq
      exact absurd (mem_subtrees_of_descend hq) ((nodup_subtrees_iff.1 hn).1 b c hc).2
  | cons b p ih =>
    obtain ⟨hchild, hdisjoint⟩ := nodup_subtrees_iff.1 hn
    obtain ⟨c, hc, hp⟩ := descend_cons_eq_some.1 hp
    have hu := mem_subtrees_of_descend hp
    cases q with
    | nil =>
      cases hq
      exact absurd hu (hchild b c hc).2
    | cons b' q =>
      obtain ⟨d, hd, hq⟩ := descend_cons_eq_some.1 hq
      have hu' := mem_subtrees_of_descend hq
      obtain rfl : b = b' := by
        cases b <;> cases b'
        · rfl
        · exact (hdisjoint c d hc hd hu hu').elim
        · exact (hdisjoint d c hd hc hu' hu).elim
        · rfl
      obtain rfl : c = d := Option.some.inj (hc.symm.trans hd)
      rw [ih (hchild b c hc).1 hp hq]

/-! ### Leaves and strictness by the records -/

theorem symbols_eq (t : RomTree P) :
    t.symbols = (t.subtrees.filter fun u => u.record.isLeaf).map fun u => u.record.symbol := by
  induction t with
  | leaf n s => simp [symbols, subtrees, record, Node.isLeaf]
  | leftOnly n l hl => simp [symbols, subtrees, record, Node.isLeaf, hl]
  | rightOnly n r hr => simp [symbols, subtrees, record, Node.isLeaf, hr]
  | both n l r hl hr => simp [symbols, subtrees, record, Node.isLeaf, hl, hr]

theorem isStrict_iff : t.isStrict = true ↔
    ∀ u ∈ t.subtrees, u.record.isLeaf = false → u.record.lv = true ∧ u.record.rv = true := by
  induction t with
  | leaf n s => simp [isStrict, subtrees, record, Node.isLeaf]
  | leftOnly n l hl => simp [isStrict, subtrees, record, Node.isLeaf]
  | rightOnly n r hr => simp [isStrict, subtrees, record, Node.isLeaf]
  | both n l r hl hr =>
    rw [isStrict, Bool.and_eq_true, hl, hr, subtrees, List.forall_mem_cons, List.forall_mem_append]
    exact (and_iff_right fun _ => ⟨rfl, rfl⟩).symm

theorem record_ignoredZero (u : RomTree P) : u.record.ignoredZero = true := by
  cases u <;> simp [Node.ignoredZero, record, Node.isLeaf]

/-! ### The image of a tree -/

section image

variable (hn : t.Numbered)
include hn

theorem index_toNat (hu : u ∈ t.subtrees) : u.index.toNat = u.num := by
  rw [index, BitVec.toNat_ofNat, Nat.mod_eq_of_lt (hn.2 u hu)]

theorem eq_of_num_eq (hu : u ∈ t.subtrees) (hv : v ∈ t.subtrees) (h : u.num = v.num) : u = v :=
  List.inj_on_of_nodup_map hn.1 hu hv h

theorem eq_of_index_eq (hu : u ∈ t.subtrees) (hv : v ∈ t.subtrees) (h : u.index = v.index) : u = v :=
  eq_of_num_eq hn hu hv (by rw [← index_toNat hn hu, h, index_toNat hn hv])

omit hn in
theorem image_tree (t : RomTree P) : t.image.tree = Memory.writeAll num (fun u => u.record.pack) t.subtrees := rfl

omit hn in
theorem image_root (t : RomTree P) : t.image.root = t.index := rfl

theorem wf_image_tree : t.image.tree.wf (2 ^ P.idxW) := Memory.wf_writeAll hn.2

/-- Each node is read back at its index. -/
theorem nodeRead_index (hu : u ∈ t.subtrees) : t.image.nodeRead u.index = u.record := by
  rw [Image.nodeRead, index_toNat hn hu, image_tree, Memory.read_writeAll hn.2 ?_ (.inl ⟨u, hu, rfl⟩), Node.unpack_pack]
  intro v hv h
  rw [eq_of_num_eq hn hv hu h]

/-- Every word at no node's number is zero. -/
theorem read_of_no_node {a : Nat} (ha : ∀ u ∈ t.subtrees, u.num ≠ a) : t.image.tree.read a = 0 :=
  Memory.read_writeAll hn.2 (fun u hu h => absurd h (ha u hu)) (.inr rfl)

/-- Bit strings lead in the image as in the tree. -/
theorem walk_index (hu : u ∈ t.subtrees) : t.image.walk u.index p = (u.descend p).map index := by
  induction p generalizing u with
  | nil => rfl
  | cons b p ih =>
    rw [Image.walk_cons, descend_cons, Image.child, nodeRead_index hn hu, record_child]
    cases hc : u.child b with
    | none => rfl
    | some c => exact ih (mem_subtrees_of_child hu hc)

theorem walk_root_eq_some {j : NodeIndex P} :
    t.image.walk t.image.root p = some j ↔ ∃ u, t.descend p = some u ∧ u.index = j := by
  rw [image_root, walk_index hn t.mem_subtrees_self, Option.map_eq_some_iff]

theorem reach_iff {j : NodeIndex P} : t.image.Reach j ↔ ∃ u ∈ t.subtrees, u.index = j := by
  simp only [Image.Reach, walk_root_eq_some hn, ← exists_descend_iff]
  exact ⟨fun ⟨p, u, hu, hj⟩ => ⟨u, ⟨p, hu⟩, hj⟩, fun ⟨u, ⟨p, hu⟩, hj⟩ => ⟨p, u, hu, hj⟩⟩

theorem isLeafAt_index (hu : u ∈ t.subtrees) : t.image.isLeafAt u.index = u.record.isLeaf := by
  rw [Image.isLeafAt, nodeRead_index hn hu]

theorem uniquePaths_image : t.image.UniquePaths := by
  intro p q j hp hq
  obtain ⟨u, hu, rfl⟩ := (walk_root_eq_some hn).1 hp
  obtain ⟨v, hv, hvu⟩ := (walk_root_eq_some hn).1 hq
  obtain rfl := eq_of_index_eq hn (mem_subtrees_of_descend hv) (mem_subtrees_of_descend hu) hvu
  exact descend_injective (List.Nodup.of_map _ hn.1) hu hv

theorem distinctSymbols_image (hs : t.symbols.Nodup) : t.image.DistinctSymbols := by
  intro i j hi hj hil hjl hsym
  obtain ⟨u, hu, rfl⟩ := (reach_iff hn).1 hi
  obtain ⟨v, hv, rfl⟩ := (reach_iff hn).1 hj
  rw [isLeafAt_index hn hu] at hil
  rw [isLeafAt_index hn hv] at hjl
  rw [nodeRead_index hn hu, nodeRead_index hn hv] at hsym
  rw [symbols_eq] at hs
  exact congrArg index (List.inj_on_of_nodup_map hs (List.mem_filter.2 ⟨hu, hil⟩) (List.mem_filter.2 ⟨hv, hjl⟩) hsym)

theorem wfTree_image (hs : t.symbols.Nodup) : t.image.WfTree := ⟨uniquePaths_image hn, distinctSymbols_image hn hs⟩

/-- What is said of the reached nodes of the image is said of the nodes of the tree. -/
theorem forall_reach_iff {Q : NodeIndex P → Prop} :
    (∀ i, t.image.Reach i → Q i) ↔ ∀ u ∈ t.subtrees, Q u.index := by
  simp only [reach_iff hn, forall_exists_index, and_imp]
  exact ⟨fun h u hu => h _ u hu rfl, fun h i u hu hi => hi ▸ h u hu⟩

theorem twoChildren_image_iff : t.image.TwoChildren ↔ t.isStrict = true := by
  rw [isStrict_iff, Image.TwoChildren, forall_reach_iff hn]
  refine forall₂_congr fun u hu => ?_
  rw [isLeafAt_index hn hu, nodeRead_index hn hu]

theorem wfTreeStrict_image_iff (hs : t.symbols.Nodup) : t.image.WfTreeStrict ↔ t.isStrict = true := by
  rw [← twoChildren_image_iff hn]
  exact ⟨fun h => h.twoChildren, fun h => ⟨wfTree_image hn hs, h⟩⟩

theorem leafSymbol_image_iff {x : Symbol P} : t.image.LeafSymbol x ↔ x ∈ t.symbols := by
  simp only [Image.LeafSymbol, symbols_eq, List.mem_map, List.mem_filter]
  constructor
  · rintro ⟨j, hj, hl, hx⟩
    obtain ⟨u, hu, rfl⟩ := (reach_iff hn).1 hj
    rw [isLeafAt_index hn hu] at hl
    rw [nodeRead_index hn hu] at hx
    exact ⟨u, ⟨hu, hl⟩, hx⟩
  · rintro ⟨u, ⟨hu, hl⟩, hx⟩
    exact ⟨u.index, (reach_iff hn).2 ⟨u, hu, rfl⟩, (isLeafAt_index hn hu).trans hl, by rw [nodeRead_index hn hu, hx]⟩

/-- A word is that of a node, or it is zero and its index is not reached. -/
theorem node_or_unreached (i : NodeIndex P) :
    (∃ u ∈ t.subtrees, u.index = i) ∨ t.image.tree.read i.toNat = 0 := by
  refine or_iff_not_imp_left.2 fun h => read_of_no_node hn fun u hu hi => h ⟨u, hu, ?_⟩
  exact BitVec.eq_of_toNat_eq ((index_toNat hn hu).trans hi)

theorem ignoredZero_image (i : NodeIndex P) : (t.image.nodeRead i).ignoredZero = true := by
  obtain ⟨u, hu, rfl⟩ | hblank := node_or_unreached hn i
  · rw [nodeRead_index hn hu]
    exact u.record_ignoredZero
  · have hread : t.image.nodeRead i = Node.blank := by rw [Image.nodeRead, hblank]; exact Node.unpack_blank
    simp [hread, Node.ignoredZero, Node.blank]

/-! ### The whole image -/

theorem wf_imageWithCodes : t.imageWithCodes.wf := ⟨t.image.wf_withCodeTable_code _, wf_image_tree hn⟩

variable (hs : t.symbols.Nodup) (hfit : t.image.CodesFit)
include hs

theorem wfTree_imageWithCodes : t.imageWithCodes.WfTree := (t.image.wfTree_withCode _).2 (wfTree_image hn hs)

theorem wfTreeStrict_imageWithCodes_iff : t.imageWithCodes.WfTreeStrict ↔ t.isStrict = true :=
  (t.image.wfTreeStrict_withCode _).trans (wfTreeStrict_image_iff hn hs)

include hfit

theorem wfCode_imageWithCodes : t.imageWithCodes.WfCode := Image.wfCode_withGenerated (wfTree_image hn hs) hfit

theorem consistent_imageWithCodes : t.imageWithCodes.Consistent :=
  Image.consistent_withGenerated (wfTree_image hn hs) hfit

theorem wfStruct_imageWithCodes : t.imageWithCodes.WfStruct := by
  have hentry (x) := CodeEntry.ignoredZero_iff.1 (Image.ignoredZero_withGenerated (wfTree_image hn hs) hfit x)
  have hnode (i) := Node.ignoredZero_iff.1 (ignoredZero_image hn i)
  refine ⟨(wfCode_imageWithCodes hn hs hfit).lenInRange, fun x k hv hk => (hentry x).1 hv k hk, fun x => (hentry x).2,
    fun i => (hnode i).1, fun i => (hnode i).2, fun i hi => ?_⟩
  refine (node_or_unreached hn i).resolve_left fun hu => hi ?_
  exact (t.image.reach_withCode _ i).2 ((reach_iff hn).2 hu)

/-- The whole image meets every predicate, the strict one if the tree is strict (R31, R35, R100, R174). -/
theorem meets_imageWithCodes_iff (n : ImagePredicate) :
    t.imageWithCodes.Meets n ↔ (n = .treeStrict → t.isStrict = true) := by
  have htree := wfTree_imageWithCodes hn hs
  cases n with
  | struct => exact iff_of_true (wfStruct_imageWithCodes hn hs hfit) nofun
  | tree => exact iff_of_true htree nofun
  | treeStrict => simpa [Image.Meets] using wfTreeStrict_imageWithCodes_iff hn hs
  | code => exact iff_of_true (wfCode_imageWithCodes hn hs hfit) nofun
  | consistent => exact iff_of_true ⟨htree, consistent_imageWithCodes hn hs hfit⟩ nofun

/-- Such an image is built, with the strict predicate if the tree is strict (R41). -/
theorem build_imageWithCodes_iff {needs : List ImagePredicate} :
    (∃ b, t.imageWithCodes.build needs = .ok b ∧ b.image = t.imageWithCodes) ↔
      (.treeStrict ∈ needs → t.isStrict = true) := by
  have hwf := wf_imageWithCodes hn
  have hlen := Image.checkLen_iff.2 (wfCode_imageWithCodes hn hs hfit).lenInRange
  rw [Image.build_iff, and_iff_right hwf, and_iff_right hlen]
  simp only [Image.check_iff hwf, meets_imageWithCodes_iff hn hs hfit]
  exact ⟨fun h hmem => h _ hmem rfl, fun h n hmem hstrict => h (hstrict ▸ hmem)⟩

end image

/-! ### The image maker -/

theorem make_eq_ok_iff {needs : List ImagePredicate} {b : BuiltImage P} : t.make needs = .ok b ↔
    t.Numbered ∧ t.symbols.Nodup ∧ t.image.CodesFit ∧ t.imageWithCodes.build needs = .ok b := by
  unfold make
  split_ifs with hn hs hfit
  · rw [and_iff_right hn, and_iff_right hs, and_iff_right hfit]
    cases t.imageWithCodes.build needs <;> simp
  · exact iff_of_false nofun fun ⟨_, _, h, _⟩ => hfit h
  · exact iff_of_false nofun fun ⟨_, h, _⟩ => hs h
  · exact iff_of_false nofun fun ⟨h, _⟩ => hn h

/-- A tree is made into an image exactly when it can be numbered, has a table, and the table fits, and it is strict if
that is asked for (R31, R166, R174, R184). -/
theorem exists_make_iff {needs : List ImagePredicate} :
    (∃ b, t.make needs = .ok b ∧ b.image = t.imageWithCodes) ↔
      t.Numbered ∧ t.symbols.Nodup ∧ t.image.CodesFit ∧ (.treeStrict ∈ needs → t.isStrict = true) := by
  constructor
  · rintro ⟨b, hb, himage⟩
    obtain ⟨hn, hs, hfit, hbuild⟩ := make_eq_ok_iff.1 hb
    exact ⟨hn, hs, hfit, (build_imageWithCodes_iff hn hs hfit).1 ⟨b, hbuild, himage⟩⟩
  · rintro ⟨hn, hs, hfit, hstrict⟩
    obtain ⟨b, hbuild, himage⟩ := (build_imageWithCodes_iff hn hs hfit).2 hstrict
    exact ⟨b, make_eq_ok_iff.2 ⟨hn, hs, hfit, hbuild⟩, himage⟩

/-- A tree whose codes fit is made into an image with every predicate but the strict one. -/
theorem exists_make_of_codesFit (hn : t.Numbered) (hs : t.symbols.Nodup) (hfit : t.image.CodesFit) :
    ∃ b, t.make [.struct, .tree, .code, .consistent] = .ok b ∧ b.image = t.imageWithCodes ∧
      b.image.WfStruct ∧ b.image.WfTree ∧ b.image.WfCode ∧ b.image.Consistent := by
  obtain ⟨b, hb, himage⟩ := exists_make_iff (needs := [.struct, .tree, .code, .consistent]).2 ⟨hn, hs, hfit, by simp⟩
  refine ⟨b, hb, himage, ?_⟩
  rw [himage]
  exact ⟨wfStruct_imageWithCodes hn hs hfit, wfTree_imageWithCodes hn hs, wfCode_imageWithCodes hn hs hfit,
    consistent_imageWithCodes hn hs hfit⟩

end RomTree

/-- Settles O56: the written table, the tree with a code too long, the written tree, and the image maker. -/
theorem writtenTablesAreConsistent : Obligations.WrittenTablesAreConsistent := by
  refine fun P => ⟨fun img hw hfit => ?_, fun img code hw ⟨e, he, hlong⟩ => ?_, fun t hn hs => ?_, fun t needs => ?_⟩
  · exact ⟨Image.consistent_withGenerated hw hfit, Image.wfCode_withGenerated hw hfit, rfl, rfl⟩
  · exact Image.not_consistent_of_long hw.uniquePaths he hlong
  · exact ⟨fun u hu => RomTree.nodeRead_index hn hu, fun a ha => RomTree.read_of_no_node hn ha,
      RomTree.index_toNat hn t.mem_subtrees_self, RomTree.wfTree_image hn hs, RomTree.wfTreeStrict_image_iff hn hs,
      fun x => RomTree.leafSymbol_image_iff hn, RomTree.exists_make_of_codesFit hn hs⟩
  · exact RomTree.exists_make_iff

end Sys2Proof.Machine
end

section
/-! The offline heap (R188 to R197): each percolation repairs the one place where the order may fail. -/

namespace Sys2Proof.Machine

section heap

variable {α : Type} {lt : α → α → Bool} {A : List α} {q : Heap α} {x : α} {i j k r n fuel : Nat}

/-! ### What the operations hold, whatever the ordering -/

/-- The child that may move up: the smaller one, the left one on a tie (R193). -/
def minChild (lt : α → α → Bool) (A : List α) (i : Nat) : Nat :=
  if lessAt lt A (2 * i + 1) (2 * i) then 2 * i + 1 else 2 * i

theorem percolateDown_of_no_child (h : A.length < 2 * i) : percolateDown lt fuel A i = A := by
  cases fuel with
  | zero => rfl
  | succ fuel => exact if_pos h

theorem percolateDown_of_child (h : 2 * i ≤ A.length) : percolateDown lt (fuel + 1) A i =
    if lessAt lt A (minChild lt A i) i then percolateDown lt fuel (swapAt A (minChild lt A i) i) (minChild lt A i)
    else A :=
  if_neg h.not_gt

theorem swapAt_perm (A : List α) (i j : Nat) : (swapAt A i j).Perm A := by
  unfold swapAt
  split
  · next x y hx hy =>
    obtain ⟨hi, rfl⟩ := List.getElem?_eq_some_iff.1 hx
    obtain ⟨hj, rfl⟩ := List.getElem?_eq_some_iff.1 hy
    exact List.set_set_perm hi hj
  · exact .refl A

theorem percolateUp_perm (fuel : Nat) (A : List α) (i : Nat) : (percolateUp lt fuel A i).Perm A := by
  induction fuel generalizing A i with
  | zero => exact .refl A
  | succ fuel ih =>
    rw [percolateUp]
    split
    · exact (ih _ _).trans (swapAt_perm A i (i / 2))
    · exact .refl A

theorem percolateDown_perm (fuel : Nat) (A : List α) (i : Nat) : (percolateDown lt fuel A i).Perm A := by
  induction fuel generalizing A i with
  | zero => exact .refl A
  | succ fuel ih =>
    obtain h | h := lt_or_ge A.length (2 * i)
    · rw [percolateDown_of_no_child h]
    · rw [percolateDown_of_child h]
      split
      · exact (ih _ _).trans (swapAt_perm A _ i)
      · exact .refl A

theorem buildHeap_perm (n : Nat) (A : List α) : (buildHeap lt n A).Perm A := by
  induction n generalizing A with
  | zero => exact .refl A
  | succ n ih => exact (ih _).trans (percolateDown_perm _ A (n + 1))

namespace Heap

theorem add_of_full (h : q.size = q.capacity) : q.add lt x = q := if_pos h

theorem add_items (h : q.size < q.capacity) :
    (q.add lt x).items = percolateUp lt (q.items.length + 1) (q.items ++ [x]) (q.items.length + 1) := by
  rw [add, if_neg (show ¬ q.items.length = q.capacity from h.ne)]

/-- Below its capacity a queue takes the item in (R192). -/
theorem add_perm (h : q.size < q.capacity) : (q.add lt x).items.Perm (x :: q.items) := by
  rw [add_items h]
  exact (percolateUp_perm _ _ _).trans (List.perm_append_singleton x q.items)

@[simp] theorem add_capacity : (q.add lt x).capacity = q.capacity := by
  unfold add
  split <;> rfl

@[simp] theorem remove_capacity : (q.remove lt).capacity = q.capacity := by
  unfold remove
  split <;> rfl

theorem remove_of_nil (h : q.items = []) : q.remove lt = q := by
  rw [remove, h]
  rfl

/-- A removal puts the last element first and percolates it down (R193). -/
theorem remove_items (h : q.items ≠ []) : (q.remove lt).items =
    percolateDown lt q.items.length (q.items.set 0 (q.items.getLast h)).dropLast 1 := by
  rw [remove, List.getLast?_eq_some_getLast h]

/-- The last element in place of the first leaves all but the first. -/
theorem dropLast_set_getLast_perm (h : A ≠ []) : (A.set 0 (A.getLast h)).dropLast.Perm A.tail := by
  obtain ⟨a, B, rfl⟩ := List.exists_cons_of_ne_nil h
  induction B using List.reverseRecOn with
  | nil => exact .refl []
  | append_singleton m l _ =>
    have hlast : (a :: (m ++ [l])).getLast h = l := by simp
    rw [hlast, List.set_cons_zero, ← List.cons_append, List.dropLast_concat]
    exact (List.perm_append_singleton l m).symm

/-- `Remove` drops the first element (R193). -/
theorem remove_perm (q : Heap α) : (q.remove lt).items.Perm q.items.tail := by
  by_cases h : q.items = []
  · rw [remove_of_nil h, h]
    rfl
  · rw [remove_items h]
    exact (percolateDown_perm _ _ _).trans (dropLast_set_getLast_perm h)

/-- A queue with room takes in a list of items. -/
theorem foldl_add_perm (l : List α) (q : Heap α) (h : q.size + l.length ≤ q.capacity) :
    (l.foldl (add lt) q).items.Perm (l ++ q.items) ∧ (l.foldl (add lt) q).capacity = q.capacity := by
  induction l generalizing q with
  | nil => exact ⟨.refl _, rfl⟩
  | cons x l ih =>
    rw [List.length_cons] at h
    have hadd : (q.add lt x).items.Perm (x :: q.items) := add_perm (by omega)
    have hsize : (q.add lt x).size = q.size + 1 := hadd.length_eq
    obtain ⟨hperm, hcap⟩ := ih (q.add lt x) (by rw [hsize, add_capacity]; omega)
    exact ⟨hperm.trans ((hadd.append_left l).trans List.perm_middle), hcap.trans add_capacity⟩

theorem front_eq_ok_iff : q.front = .ok x ↔ ∃ rest, q.items = x :: rest := by
  rw [front]
  cases q.items <;> simp

/-- `Front` and `Remove` take one element out of a queue that has one. -/
theorem exists_front (lt : α → α → Bool) (h : 1 ≤ q.size) :
    ∃ x, q.front = .ok x ∧ q.items.Perm (x :: (q.remove lt).items) := by
  obtain ⟨x, rest, hx⟩ := List.exists_cons_of_ne_nil (List.length_pos_iff.1 h)
  refine ⟨x, front_eq_ok_iff.2 ⟨rest, hx⟩, ?_⟩
  have hrest := (remove_perm (lt := lt) q).symm.cons x
  rwa [hx, List.tail_cons, ← hx] at hrest

end Heap

/-! ### Comparing positions -/

/-- What the statements ask of an ordering: it is strict, and its relation "not above" is transitive. -/
structure StrictWeak (lt : α → α → Bool) : Prop where
  asymm : ∀ a b, lt a b = true → lt b a = false
  trans : ∀ a b c, lt b a = false → lt c b = false → lt c a = false

theorem lessAt_of_getElem? {a b : α} (hi : A[i - 1]? = some a) (hj : A[j - 1]? = some b) :
    lessAt lt A i j = lt a b := by
  rw [lessAt, hi, hj]

/-- What lies at the positions decides the comparison. -/
theorem lessAt_congr {B : List α} {i' j' : Nat} (hi : B[i' - 1]? = A[i - 1]?) (hj : B[j' - 1]? = A[j - 1]?) :
    lessAt lt B i' j' = lessAt lt A i j := by
  rw [lessAt, lessAt, hi, hj]

theorem lessAt_of_length_lt (h : A.length < i) : lessAt lt A i j = false := by
  rw [lessAt, List.getElem?_eq_none (by omega)]

theorem lessAt_eq_true_iff : lessAt lt A i j = true ↔
    ∃ a b, A[i - 1]? = some a ∧ A[j - 1]? = some b ∧ lt a b = true := by
  unfold lessAt
  cases A[i - 1]? <;> cases A[j - 1]? <;> simp

theorem lessAt_asymm (h : StrictWeak lt) (hij : lessAt lt A i j = true) : lessAt lt A j i = false := by
  obtain ⟨a, b, ha, hb, hab⟩ := lessAt_eq_true_iff.1 hij
  rw [lessAt_of_getElem? hb ha]
  exact h.asymm a b hab

theorem lessAt_self (h : StrictWeak lt) (A : List α) (i : Nat) : lessAt lt A i i = false := by
  cases hi : lessAt lt A i i with
  | false => rfl
  | true => exact hi.symm.trans (lessAt_asymm h hi)

theorem lessAt_trans (h : StrictWeak lt) (hj : 1 ≤ j) (hjA : j ≤ A.length) (hji : lessAt lt A j i = false)
    (hkj : lessAt lt A k j = false) : lessAt lt A k i = false := by
  have hb : A[j - 1]? = some A[j - 1] := List.getElem?_eq_getElem (by omega)
  refine Bool.eq_false_of_not_eq_true fun hki => ?_
  obtain ⟨c, a, hc, ha, hca⟩ := lessAt_eq_true_iff.1 hki
  rw [lessAt_of_getElem? hb ha] at hji
  rw [lessAt_of_getElem? hc hb] at hkj
  rw [h.trans a _ c hji hkj] at hca
  cases hca

/-- After a swap each position holds what the swapped position held. -/
theorem getElem?_swapAt (hi : 1 ≤ i) (hiA : i ≤ A.length) (hj : 1 ≤ j) (hjA : j ≤ A.length) (hk : 1 ≤ k) :
    (swapAt A i j)[k - 1]? = A[Equiv.swap i j k - 1]? := by
  have ha : A[i - 1]? = some A[i - 1] := List.getElem?_eq_getElem (by omega)
  have hb : A[j - 1]? = some A[j - 1] := List.getElem?_eq_getElem (by omega)
  have hiA' : i - 1 < A.length := by omega
  have hjA' : j - 1 < A.length := by omega
  rw [swapAt, ha, hb]
  by_cases hkj : k = j
  · subst hkj
    simp [hjA', ha]
  have hjk : j - 1 ≠ k - 1 := by omega
  by_cases hki : k = i
  · subst hki
    simp [hjk, hiA', hb]
  have hik : i - 1 ≠ k - 1 := by omega
  rw [Equiv.swap_apply_of_ne_of_ne hki hkj, List.getElem?_set_ne hjk, List.getElem?_set_ne hik]

theorem lessAt_swapAt (hi : 1 ≤ i) (hiA : i ≤ A.length) (hj : 1 ≤ j) (hjA : j ≤ A.length) (hk : 1 ≤ k) (hn : 1 ≤ n) :
    lessAt lt (swapAt A i j) k n = lessAt lt A (Equiv.swap i j k) (Equiv.swap i j n) :=
  lessAt_congr (getElem?_swapAt hi hiA hj hjA hk) (getElem?_swapAt hi hiA hj hjA hn)

/-! ### The order, but for one place -/

/-- The order holds from position `r` on: no child of a position from `r` on is below its parent. -/
def OrderedFrom (lt : α → α → Bool) (r : Nat) (A : List α) : Prop :=
  ∀ k, r ≤ k / 2 → k ≤ A.length → lessAt lt A k (k / 2) = false

/-- The order holds but between position `i` and its parent: the children of `i` are not below that parent (R192). -/
structure OrderedAbove (lt : α → α → Bool) (A : List α) (i : Nat) : Prop where
  others : ∀ k, 1 < k → k ≤ A.length → k ≠ i → lessAt lt A k (k / 2) = false
  children : ∀ k, k ≤ A.length → k / 2 = i → 1 < i → lessAt lt A k (i / 2) = false

/-- The order holds from `r` on but between position `i` and its children: these are not below the parent of `i`
(R193). -/
structure OrderedBelow (lt : α → α → Bool) (r : Nat) (A : List α) (i : Nat) : Prop where
  others : ∀ k, r ≤ k / 2 → k ≤ A.length → k / 2 ≠ i → lessAt lt A k (k / 2) = false
  children : ∀ k, k ≤ A.length → k / 2 = i → r ≤ i / 2 → lessAt lt A k (i / 2) = false

theorem orderedFrom_one_iff : OrderedFrom lt 1 A ↔ Heap.Ordered lt A :=
  forall_congr' fun k => by rw [show 1 ≤ k / 2 ↔ 1 < k by omega]

section percolate

variable (h : StrictWeak lt)
include h

/-- A swap with the parent moves the place upward. -/
theorem OrderedAbove.swapAt (hA : OrderedAbove lt A i) (hi : 1 < i) (hiA : i ≤ A.length)
    (hlt : lessAt lt A i (i / 2) = true) : OrderedAbove lt (swapAt A i (i / 2)) (i / 2) := by
  have hle := lessAt_asymm h hlt
  have hpi : i / 2 ≠ i := by omega
  have hswap {k n : Nat} (hk : 1 ≤ k) (hn : 1 ≤ n) :=
    lessAt_swapAt (lt := lt) (j := i / 2) hi.le hiA (by omega) (by omega) hk hn
  constructor
  · intro k hk hkA hki
    rw [(swapAt_perm A i (i / 2)).length_eq] at hkA
    rw [hswap (by omega) (by omega)]
    by_cases hk_eq : k = i
    · subst hk_eq
      simpa using hle
    rw [Equiv.swap_apply_of_ne_of_ne hk_eq hki]
    by_cases hchild : k / 2 = i
    · simpa [hchild] using hA.children k hkA hchild hi
    by_cases hsibling : k / 2 = i / 2
    · rw [hsibling, Equiv.swap_apply_right]
      exact lessAt_trans h (by omega) (by omega) hle (hsibling ▸ hA.others k hk hkA hk_eq)
    · rw [Equiv.swap_apply_of_ne_of_ne hchild hsibling]
      exact hA.others k hk hkA hk_eq
  · intro k hkA hkp hp
    rw [(swapAt_perm A i (i / 2)).length_eq] at hkA
    have hparent := hA.others (i / 2) hp (by omega) hpi
    rw [hswap (by omega) (by omega), Equiv.swap_apply_of_ne_of_ne (by omega : i / 2 / 2 ≠ i) (by omega)]
    by_cases hk_eq : k = i
    · subst hk_eq
      simpa using hparent
    · rw [Equiv.swap_apply_of_ne_of_ne hk_eq (by omega)]
      exact lessAt_trans h (by omega) (by omega) hparent (hkp ▸ hA.others k (by omega) hkA hk_eq)

theorem percolateUp_ordered (hA : OrderedAbove lt A i) (hi : 1 ≤ i) (hiA : i ≤ A.length) (hfuel : i ≤ fuel) :
    Heap.Ordered lt (percolateUp lt fuel A i) := by
  induction fuel generalizing A i with
  | zero => omega
  | succ fuel ih =>
    rw [percolateUp]
    split
    · next hlt =>
      refine ih (hA.swapAt h hlt.1 hiA hlt.2) (by omega) ?_ (by omega)
      rw [(swapAt_perm A i (i / 2)).length_eq]
      omega
    · next hlt =>
      intro k hk hkA
      by_cases hki : k = i
      · subst hki
        simpa [hk] using hlt
      · exact hA.others k hk hkA hki

/-- The child that may move up is below no other. -/
theorem lessAt_minChild (hk : k / 2 = i) :
    lessAt lt A k (minChild lt A i) = false := by
  unfold minChild
  obtain rfl | rfl : k = 2 * i ∨ k = 2 * i + 1 := by omega
  · split
    · next hlt => exact lessAt_asymm h hlt
    · exact lessAt_self h A _
  · split
    · exact lessAt_self h A _
    · next hlt => simpa using hlt

omit h in
theorem minChild_div_two : minChild lt A i / 2 = i := by
  unfold minChild
  split <;> omega

omit h in
theorem minChild_le_length (hiA : 2 * i ≤ A.length) : minChild lt A i ≤ A.length := by
  unfold minChild
  split
  · next hlt =>
    by_contra hlen
    rw [lessAt_of_length_lt (by omega)] at hlt
    cases hlt
  · exact hiA

/-- A swap with the smaller child moves the place downward. -/
theorem OrderedBelow.swapAt (hA : OrderedBelow lt r A i) (hr : 1 ≤ r) (hi : 1 ≤ i) (hiA : 2 * i ≤ A.length)
    (hlt : lessAt lt A (minChild lt A i) i = true) :
    OrderedBelow lt r (swapAt A (minChild lt A i) i) (minChild lt A i) := by
  have hle := lessAt_asymm h hlt
  have hmin {k : Nat} (hk : k / 2 = i) := lessAt_minChild (A := A) h hk
  have hc : minChild lt A i / 2 = i := minChild_div_two
  have hcA := minChild_le_length (lt := lt) hiA
  generalize minChild lt A i = c at *
  have hswap {k n : Nat} (hk : 1 ≤ k) (hn : 1 ≤ n) :=
    lessAt_swapAt (lt := lt) (i := c) (j := i) (by omega) hcA hi (by omega) hk hn
  constructor
  · intro k hrk hkA hkc
    rw [(swapAt_perm A c i).length_eq] at hkA
    rw [hswap (by omega) (by omega)]
    by_cases hki : k / 2 = i
    · rw [hki, Equiv.swap_apply_right]
      by_cases hk_eq : k = c
      · rw [hk_eq, Equiv.swap_apply_left]
        exact hle
      · rw [Equiv.swap_apply_of_ne_of_ne hk_eq (by omega)]
        exact hmin hki
    rw [Equiv.swap_apply_of_ne_of_ne hkc hki]
    by_cases hk_eq : k = i
    · subst hk_eq
      rw [Equiv.swap_apply_right]
      exact hA.children c hcA hc hrk
    · rw [Equiv.swap_apply_of_ne_of_ne (by omega) hk_eq]
      exact hA.others k hrk hkA hki
  · intro k hkA hkc hrc
    rw [(swapAt_perm A c i).length_eq] at hkA
    rw [hswap (by omega) (by omega), Equiv.swap_apply_of_ne_of_ne (by omega) (by omega), hc, Equiv.swap_apply_right]
    exact hkc ▸ hA.others k (by omega) hkA (by omega)

omit h in
theorem OrderedBelow.orderedFrom (hA : OrderedBelow lt r A i) (hlen : A.length < 2 * i) : OrderedFrom lt r A :=
  fun k hrk hkA => hA.others k hrk hkA (by omega)

theorem percolateDown_ordered (hA : OrderedBelow lt r A i) (hr : 1 ≤ r) (hi : 1 ≤ i) (hfuel : A.length < i + fuel) :
    OrderedFrom lt r (percolateDown lt fuel A i) := by
  induction fuel generalizing A i with
  | zero => exact hA.orderedFrom (by omega)
  | succ fuel ih =>
    obtain hlen | hlen := lt_or_ge A.length (2 * i)
    · rw [percolateDown_of_no_child hlen]
      exact hA.orderedFrom hlen
    have hc : minChild lt A i / 2 = i := minChild_div_two
    rw [percolateDown_of_child hlen]
    split
    · next hlt =>
      refine ih (hA.swapAt h hr hi hlen hlt) (by omega) ?_
      rw [(swapAt_perm A _ i).length_eq]
      omega
    · next hlt =>
      intro k hrk hkA
      by_cases hki : k / 2 = i
      · rw [hki]
        exact lessAt_trans h (by omega) (minChild_le_length hlen) (Bool.eq_false_of_not_eq_true hlt)
          (lessAt_minChild h hki)
      · exact hA.others k hrk hkA hki

/-- Each pass of `BuildHeap` adds one position to those from which the order holds (R191). -/
theorem buildHeap_ordered (hA : OrderedFrom lt (n + 1) A) : Heap.Ordered lt (buildHeap lt n A) := by
  induction n generalizing A with
  | zero => exact orderedFrom_one_iff.1 hA
  | succ n ih =>
    refine ih (percolateDown_ordered h ⟨fun k hk hkA hne => hA k (by omega) hkA, fun k _ _ hn => ?_⟩ ?_ ?_ ?_) <;> omega

namespace Heap

/-- The first element is a minimum (R188). -/
theorem Ordered.lessAt_one (hA : Ordered lt A) (hk : 1 ≤ k) (hkA : k ≤ A.length) : lessAt lt A k 1 = false := by
  induction k using Nat.strongRecOn with
  | ind k ih =>
    obtain rfl | hk := hk.eq_or_lt
    · exact lessAt_self h A 1
    · exact lessAt_trans h (by omega) (by omega) (ih (k / 2) (by omega) (by omega) (by omega)) (hA k hk hkA)

theorem Ordered.not_lt_head {rest : List α} (hA : Ordered lt (x :: rest)) {y : α} (hy : y ∈ x :: rest) :
    lt y x = false := by
  obtain ⟨k, hk, rfl⟩ := List.getElem_of_mem hy
  have hless := hA.lessAt_one h (Nat.le_add_left 1 k) hk
  rwa [lessAt_of_getElem? (List.getElem?_eq_getElem hk) rfl] at hless

theorem add_ordered (hq : Ordered lt q.items) (hsize : q.size ≤ q.capacity) : Ordered lt (q.add lt x).items := by
  obtain hfull | hroom := hsize.eq_or_lt
  · rwa [add_of_full hfull]
  rw [add_items hroom]
  refine percolateUp_ordered h ⟨fun k hk hkA hne => ?_, fun k hkA hkp hp => ?_⟩ (by omega) (by simp) le_rfl
  · rw [List.length_append, List.length_singleton] at hkA
    rw [lessAt_congr (List.getElem?_append_left (by omega)) (List.getElem?_append_left (by omega))]
    exact hq k hk (by omega)
  · rw [List.length_append, List.length_singleton] at hkA
    omega

theorem remove_ordered (hq : Ordered lt q.items) : Ordered lt (q.remove lt).items := by
  by_cases hne : q.items = []
  · rwa [remove_of_nil hne]
  rw [remove_items hne]
  have hlen : (q.items.set 0 (q.items.getLast hne)).dropLast.length = q.items.length - 1 := by simp
  have hget {k : Nat} (hk : 1 < k) (hkA : k ≤ q.items.length - 1) :
      (q.items.set 0 (q.items.getLast hne)).dropLast[k - 1]? = q.items[k - 1]? := by
    rw [List.getElem?_dropLast, List.length_set, if_pos (by omega), List.getElem?_set_ne (by omega)]
  refine orderedFrom_one_iff.1 (percolateDown_ordered h ⟨fun k hk hkA hne => ?_, fun k _ _ hp => ?_⟩ le_rfl le_rfl ?_)
  · rw [hlen] at hkA
    rw [lessAt_congr (hget (by omega) hkA) (hget (by omega) (by omega))]
    exact hq k (by omega) (by omega)
  · omega
  · omega

theorem ofItems_ordered (l : List α) : Ordered lt (ofItems lt l).items :=
  buildHeap_ordered h fun k hk hkA => by omega

/-- Draining a queue gives its items in non-decreasing order (R196). -/
theorem drain_sorts (hq : Ordered lt q.items) (hn : q.items.length = n) :
    (q.drain lt n).Perm q.items ∧ (q.drain lt n).Pairwise fun a b => lt b a = false := by
  induction n generalizing q with
  | zero =>
    rw [List.length_eq_zero_iff.1 hn]
    exact ⟨.refl [], .nil⟩
  | succ n ih =>
    obtain ⟨x, rest, hx⟩ := List.exists_cons_of_length_eq_add_one hn
    have hperm : (q.remove lt).items.Perm rest := by simpa [hx] using remove_perm (lt := lt) q
    obtain ⟨hdrain, hsorted⟩ := ih (remove_ordered h hq) (by rw [hperm.length_eq]; simpa [hx] using hn)
    rw [drain, hx]
    refine ⟨(hdrain.trans hperm).cons x, hsorted.cons fun y hy => ?_⟩
    rw [hx] at hq
    exact hq.not_lt_head h (List.mem_cons_of_mem x ((hdrain.trans hperm).mem_iff.1 hy))

end Heap

end percolate

end heap

/-- Settles O59: a percolation moves the one place where the order may fail until there is none. -/
theorem heapKeepsItsOrder : Obligations.HeapKeepsItsOrder := by
  intro α lt q x hasymm htrans hq hsize
  have h : StrictWeak lt := ⟨hasymm, htrans⟩
  refine ⟨Heap.add_ordered h hq hsize, Heap.remove_ordered h hq, Heap.add_of_full, Heap.add_perm, Heap.remove_perm q,
    fun hempty => ?_, fun m hm y hy => ?_, fun hne => ?_⟩
  · rw [Heap.front, List.isEmpty_iff.1 hempty]
  · obtain ⟨rest, hitems⟩ := Heap.front_eq_ok_iff.1 hm
    rw [hitems] at hq hy
    exact hq.not_lt_head h hy
  · obtain ⟨m, rest, hitems⟩ := List.exists_cons_of_ne_nil (List.isEmpty_eq_false_iff.1 hne)
    exact ⟨m, Heap.front_eq_ok_iff.2 ⟨rest, hitems⟩⟩

/-- Settles O60: bottom-up percolation makes a heap, and draining it takes a minimum each time. -/
theorem heapSortSorts : Obligations.HeapSortSorts := by
  intro α lt l hasymm htrans
  have h : StrictWeak lt := ⟨hasymm, htrans⟩
  have hperm : (Heap.ofItems lt l).items.Perm l := buildHeap_perm _ l
  obtain ⟨hsort, hsorted⟩ := Heap.drain_sorts h (Heap.ofItems_ordered h l) hperm.length_eq
  exact ⟨Heap.ofItems_ordered h l, hperm, rfl, hsort.trans hperm, hsorted⟩

end Sys2Proof.Machine
end

section
/-! The frequency map of an input (R186, R212): what counting one more symbol does to the counts and to the keys. -/

namespace Sys2Proof.Machine

section counts

variable {P : Params} {l : List (Symbol P × Nat)} {s x : Symbol P} {n : Nat} {syms : List (Symbol P)}

theorem keys_countOne (l : List (Symbol P × Nat)) (s : Symbol P) : (countOne l s).map Prod.fst =
    if s ∈ l.map Prod.fst then l.map Prod.fst else l.map Prod.fst ++ [s] := by
  induction l with
  | nil => rfl
  | cons e l ih =>
    obtain ⟨t, m⟩ := e
    by_cases hts : t = s
    · simp [countOne, hts]
    · simp only [countOne, if_neg hts, List.map_cons, ih, List.mem_cons, Ne.symm hts, false_or]
      split <;> rfl

theorem sum_counts_countOne (l : List (Symbol P × Nat)) (s : Symbol P) :
    ((countOne l s).map Prod.snd).sum = (l.map Prod.snd).sum + 1 := by
  induction l with
  | nil => rfl
  | cons e l ih =>
    obtain ⟨t, m⟩ := e
    by_cases hts : t = s
    · simp [countOne, hts, add_right_comm]
    · simp [countOne, hts, ih, add_assoc]

/-- Counting `s` keeps the count of every other symbol. -/
theorem mem_countOne_of_ne (hx : x ≠ s) : (x, n) ∈ countOne l s ↔ (x, n) ∈ l := by
  induction l with
  | nil => simp [countOne, hx]
  | cons e l ih =>
    obtain ⟨t, m⟩ := e
    by_cases hts : t = s
    · simp [countOne, hts, hx]
    · simp [countOne, hts, ih]

/-- Counting `s` adds one to its count, or gives it the count 1. -/
theorem mem_countOne_self (hl : (l.map Prod.fst).Nodup) : (s, n) ∈ countOne l s ↔
    (∃ m, (s, m) ∈ l ∧ n = m + 1) ∨ s ∉ l.map Prod.fst ∧ n = 1 := by
  induction l with
  | nil => simp [countOne]
  | cons e l ih =>
    obtain ⟨t, m⟩ := e
    obtain ⟨ht, hl⟩ := List.nodup_cons.1 hl
    by_cases hts : t = s
    · subst hts
      have hnot (k) : (t, k) ∉ l := fun hk => ht (List.mem_map.2 ⟨_, hk, rfl⟩)
      simp [countOne, hnot]
    · simp [countOne, hts, Ne.symm hts, ih hl]

/-- An input with one more symbol counts that symbol once more. -/
theorem analyzeFrequencies_concat (syms : List (Symbol P)) (s : Symbol P) :
    (analyzeFrequencies (syms ++ [s])).entries = countOne (analyzeFrequencies syms).entries s := by
  rw [analyzeFrequencies, List.foldl_append]
  rfl

theorem mem_keys_analyzeFrequencies : x ∈ (analyzeFrequencies syms).entries.map Prod.fst ↔ x ∈ syms := by
  induction syms using List.reverseRecOn with
  | nil => rfl
  | append_singleton syms s ih =>
    rw [analyzeFrequencies_concat, mem_keys_countOne, ih, List.mem_append, List.mem_singleton]

theorem mem_analyzeFrequencies : (x, n) ∈ (analyzeFrequencies syms).entries ↔ n = syms.count x ∧ 0 < n := by
  induction syms using List.reverseRecOn generalizing n with
  | nil =>
    refine iff_of_false List.not_mem_nil ?_
    simp
  | append_singleton syms s ih =>
    rw [analyzeFrequencies_concat, List.count_append]
    by_cases hx : x = s
    · subst hx
      rw [mem_countOne_self (analyzeFrequencies syms).keysUnique, mem_keys_analyzeFrequencies, ← List.count_eq_zero,
        List.count_singleton_self]
      simp only [ih]
      constructor
      · rintro (⟨m, ⟨rfl, hm⟩, rfl⟩ | ⟨h0, rfl⟩) <;> omega
      · rintro ⟨rfl, -⟩
        obtain h0 | hpos := (syms.count x).eq_zero_or_pos
        · exact .inr ⟨h0, by rw [h0]⟩
        · exact .inl ⟨_, ⟨rfl, hpos⟩, rfl⟩
    · rw [mem_countOne_of_ne hx, ih, List.count_singleton]
      simp [Ne.symm hx]

theorem sum_counts_analyzeFrequencies (syms : List (Symbol P)) :
    ((analyzeFrequencies syms).entries.map Prod.snd).sum = syms.length := by
  induction syms using List.reverseRecOn with
  | nil => rfl
  | append_singleton syms s ih =>
    rw [analyzeFrequencies_concat, sum_counts_countOne, ih, List.length_append, List.length_singleton]

/-- There is one entry for each distinct symbol. -/
theorem length_analyzeFrequencies (syms : List (Symbol P)) :
    (analyzeFrequencies syms).entries.length = syms.dedup.length := by
  have hperm : ((analyzeFrequencies syms).entries.map Prod.fst).Perm syms.dedup :=
    (List.perm_ext_iff_of_nodup (analyzeFrequencies syms).keysUnique syms.nodup_dedup).2 fun x => by
      rw [mem_keys_analyzeFrequencies, List.mem_dedup]
  rw [← hperm.length_eq, List.length_map]

theorem FrequencyMap.ofList_iff : (∃ fm, FrequencyMap.ofList l = some fm ∧ fm.entries = l) ↔
    (l.map Prod.fst).Nodup ∧ ∀ e ∈ l, 0 < e.2 := by
  unfold FrequencyMap.ofList
  split
  · next h => exact iff_of_true ⟨_, rfl, rfl⟩ h
  · next h => exact iff_of_false nofun h

end counts

/-- Settles O57, by induction on the input, one more symbol at its end. -/
theorem frequenciesAreCounts : Obligations.FrequenciesAreCounts := by
  refine fun P => ⟨fun syms => ⟨(analyzeFrequencies syms).keysUnique, fun _ _ => mem_analyzeFrequencies⟩,
    fun syms x => ?_, fun _ => FrequencyMap.ofList_iff⟩
  rw [analyzeFrequencies_concat, keys_countOne]
  simp only [mem_keys_analyzeFrequencies]

end Sys2Proof.Machine
end

section
/-! The tree builder (R202 to R210): a relation that says what the merge loop does, and what every run of it gives. -/

namespace Sys2Proof.Machine

variable {P : Params}

/-! ### The trees of the builder -/

namespace HuffTree

variable {t : HuffTree P}

theorem rom_isStrict (t : HuffTree P) : t.rom.isStrict = true := by
  induction t with
  | leaf n s f => rfl
  | internal n f l r hl hr => simp [rom, RomTree.isStrict, hl, hr]

@[simp] theorem rom_num (t : HuffTree P) : t.rom.num = t.num := by cases t <;> rfl

/-- The symbols of the written tree are those of the leaves. -/
theorem rom_symbols (t : HuffTree P) : t.rom.symbols = t.leaves.flatMap fun u => u.rom.symbols := by
  induction t with
  | leaf n s f => rfl
  | internal n f l r hl hr => simp [rom, RomTree.symbols, leaves, hl, hr]

/-- The numbers of the written tree are those of the leaves and those of the internal nodes. -/
theorem rom_nums_perm (t : HuffTree P) :
    (t.rom.subtrees.map RomTree.num).Perm (t.leaves.map num ++ t.innerNums) := by
  induction t with
  | leaf n s f => rfl
  | internal n f l r hl hr =>
    simp only [rom, RomTree.subtrees, leaves, innerNums, List.map_cons, List.map_append, RomTree.num]
    refine (((hl.append hr).trans ?_).cons n).trans List.perm_middle.symm
    rw [List.append_assoc, List.append_assoc]
    refine List.Perm.append_left _ ?_
    rw [← List.append_assoc, ← List.append_assoc]
    exact List.perm_append_comm.append_right _

end HuffTree

/-! ### The leaves of a map -/

section leavesFrom

variable (n : Nat) (l : List (Symbol P × Nat))

/-- The leaf of each entry, with the entry's place in the map as its number. -/
theorem leavesFrom_eq_map : leavesFrom n l = (l.zipIdx n).map fun e => .leaf e.2 e.1.1 e.1.2 := by
  induction l generalizing n with
  | nil => rfl
  | cons e l ih => simp [leavesFrom, ih]

theorem length_leavesFrom : (leavesFrom n l).length = l.length := by simp [leavesFrom_eq_map]

theorem nums_leavesFrom : (leavesFrom n l).map HuffTree.num = List.range' n l.length := by
  rw [leavesFrom_eq_map, List.map_map, ← List.zipIdx_map_snd]
  rfl

theorem freqs_leavesFrom : (leavesFrom n l).map HuffTree.freq = l.map Prod.snd := by
  rw [leavesFrom_eq_map, List.map_map, ← congrArg (List.map Prod.snd) (List.zipIdx_map_fst n l), List.map_map]
  rfl

theorem symbols_leavesFrom : ((leavesFrom n l).flatMap fun u => u.rom.symbols) = l.map Prod.fst := by
  rw [leavesFrom_eq_map, List.flatMap_map, ← congrArg (List.map Prod.fst) (List.zipIdx_map_fst n l), List.map_map]
  exact List.map_eq_flatMap.symm

theorem leaves_leavesFrom : (leavesFrom n l).flatMap HuffTree.leaves = leavesFrom n l := by
  rw [leavesFrom_eq_map, List.flatMap_map]
  exact List.map_eq_flatMap.symm

theorem innerNums_leavesFrom : (leavesFrom n l).flatMap HuffTree.innerNums = [] := by
  rw [leavesFrom_eq_map, List.flatMap_map]
  exact List.flatMap_eq_nil_iff.2 fun _ _ => rfl

theorem sumsHold_leavesFrom : ∀ u ∈ leavesFrom n l, u.sumsHold = true := by
  rw [leavesFrom_eq_map, List.forall_mem_map]
  exact fun _ _ => rfl

end leavesFrom

/-! ### The merges -/

/-- A forest merges to a tree when it is that tree, or when two of its trees become the children of a node with the next
number and what is left then merges to the tree (R202, R210). The order of the forest does not matter. -/
inductive MergesTo : Nat → List (HuffTree P) → HuffTree P → Prop where
  | done {next : Nat} {t : HuffTree P} : MergesTo next [t] t
  | merge {next : Nat} {forest rest forest' : List (HuffTree P)} {x y t : HuffTree P}
      (hxy : forest.Perm (x :: y :: rest))
      (hnode : forest'.Perm (.internal next (x.freq + y.freq) x y :: rest)) (hrest : MergesTo (next + 1) forest' t) :
      MergesTo next forest t

namespace MergesTo

variable {next : Nat} {forest forest' : List (HuffTree P)} {t : HuffTree P}

theorem of_perm (h : MergesTo next forest t) (hp : forest'.Perm forest) : MergesTo next forest' t := by
  cases h with
  | done =>
    rw [List.perm_singleton.1 hp]
    exact .done
  | merge hxy hnode hrest => exact .merge (hp.trans hxy) hnode hrest

/-- No merge adds or drops a leaf (R204). -/
theorem leaves_perm (h : MergesTo next forest t) : t.leaves.Perm (forest.flatMap HuffTree.leaves) := by
  induction h with
  | done => simp
  | merge hxy hnode _ ih =>
    refine ih.trans ((hnode.flatMap_right _).trans (.trans ?_ (hxy.flatMap_right _).symm))
    simp [HuffTree.leaves]

/-- The root holds the sum of all frequencies (R206). -/
theorem freq_eq (h : MergesTo next forest t) : t.freq = (forest.map HuffTree.freq).sum := by
  induction h with
  | done => simp
  | merge hxy hnode _ ih =>
    rw [ih, (hnode.map _).sum_eq, (hxy.map _).sum_eq]
    simp [HuffTree.freq, add_assoc]

theorem sumsHold (h : MergesTo next forest t) (hf : ∀ u ∈ forest, u.sumsHold = true) : t.sumsHold = true := by
  induction h with
  | done => exact hf _ (List.mem_singleton_self _)
  | merge hxy hnode _ ih =>
    simp only [hxy.mem_iff, List.forall_mem_cons] at hf
    obtain ⟨hx, hy, hrest⟩ := hf
    refine ih ?_
    simp only [hnode.mem_iff, List.forall_mem_cons]
    exact ⟨by simp [HuffTree.sumsHold, hx, hy], hrest⟩

/-- Each merge uses the next number, and there is one merge less than there are trees (R204, R210). -/
theorem innerNums_perm (h : MergesTo next forest t) :
    t.innerNums.Perm (List.range' next (forest.length - 1) ++ forest.flatMap HuffTree.innerNums) := by
  induction h with
  | done => simp
  | @merge next forest rest forest' x y t hxy hnode _ ih =>
    have hlen : forest.length - 1 = rest.length + 1 := by simp [hxy.length_eq]
    have hlen' : forest'.length - 1 = rest.length := by simp [hnode.length_eq]
    have hinner := hnode.flatMap_right HuffTree.innerNums
    rw [hlen'] at ih
    rw [hlen, List.range'_succ]
    refine ih.trans ((hinner.append_left _).trans ?_)
    refine .trans ?_ ((hxy.flatMap_right HuffTree.innerNums).symm.append_left _)
    simp [HuffTree.innerNums]

/-- The last merge makes the root (R210). -/
theorem eq_singleton_or_num_eq (h : MergesTo next forest t) :
    forest = [t] ∨ 2 ≤ forest.length ∧ t.num + 2 = next + forest.length := by
  induction h with
  | done => exact .inl rfl
  | @merge next forest rest forest' x y t hxy hnode _ ih =>
    have hlen : forest.length = rest.length + 2 := hxy.length_eq
    have hlen' : forest'.length = rest.length + 1 := hnode.length_eq
    refine .inr ⟨by omega, ?_⟩
    obtain rfl | ⟨-, hnum⟩ := ih
    · obtain rfl : rest = [] := List.length_eq_zero_iff.1 (by simpa using hlen')
      obtain rfl : t = _ := by simpa using hnode
      simp [HuffTree.num, hlen]
    · omega

end MergesTo

/-! ### The loop of `Build` -/

/-- One pass of the loop takes two trees out and puts their parent in. -/
theorem exists_mergeAll_succ {q : Heap (HuffTree P)} (fuel next : Nat) (h2 : 2 ≤ q.size) (hcap : q.size ≤ q.capacity) :
    ∃ x y rest q', q.items.Perm (x :: y :: rest) ∧
      q'.items.Perm (.internal next (x.freq + y.freq) x y :: rest) ∧ q'.capacity = q.capacity ∧
      mergeAll (fuel + 1) next q = mergeAll fuel (next + 1) q' := by
  obtain ⟨x, hx, hpx⟩ := Heap.exists_front HuffTree.less (by omega : 1 ≤ q.size)
  have hsize₁ : q.size = (q.remove HuffTree.less).size + 1 := hpx.length_eq
  obtain ⟨y, hy, hpy⟩ := Heap.exists_front HuffTree.less (by omega : 1 ≤ (q.remove HuffTree.less).size)
  have hsize₂ : (q.remove HuffTree.less).size = ((q.remove HuffTree.less).remove HuffTree.less).size + 1 :=
    hpy.length_eq
  refine ⟨x, y, _, _, hpx.trans (hpy.cons x), Heap.add_perm (lt := HuffTree.less) ?_, by simp, ?_⟩
  · simp only [Heap.remove_capacity]
    omega
  · rw [mergeAll, if_neg (by omega), hx]
    change (Heap.front _ >>= _) = _
    rw [hy]
    rfl

/-- With one tree left the loop ends, and returns it. -/
theorem exists_mergeAll_of_size_one {q : Heap (HuffTree P)} (fuel next : Nat) (h : q.size = 1) :
    ∃ t, mergeAll fuel next q = .ok t ∧ MergesTo next q.items t := by
  obtain ⟨t, ht⟩ := List.length_eq_one_iff.1 h
  have hstop : mergeAll fuel next q = q.front := by
    cases fuel with
    | zero => rfl
    | succ fuel => exact if_pos h.le
  exact ⟨t, hstop.trans (Heap.front_eq_ok_iff.2 ⟨[], ht⟩), ht ▸ .done⟩

/-- The loop returns a tree to which the trees of the queue merge. -/
theorem exists_mergeAll {q : Heap (HuffTree P)} (fuel next : Nat) (hpos : 1 ≤ q.size) (hfuel : q.size ≤ fuel + 1)
    (hcap : q.size ≤ q.capacity) : ∃ t, mergeAll fuel next q = .ok t ∧ MergesTo next q.items t := by
  induction fuel generalizing next q with
  | zero => exact exists_mergeAll_of_size_one 0 next (by omega)
  | succ fuel ih =>
    obtain h1 | h2 := hpos.eq_or_lt
    · exact exists_mergeAll_of_size_one _ next h1.symm
    · obtain ⟨x, y, rest, q', hxy, hnode, hcap', hstep⟩ := exists_mergeAll_succ fuel next h2 hcap
      have hsize : q.size = rest.length + 2 := hxy.length_eq
      have hsize' : q'.size = rest.length + 1 := hnode.length_eq
      obtain ⟨t, ht, hm⟩ := ih (q := q') (next + 1) (by omega) (by omega) (by omega)
      exact ⟨t, hstep.trans ht, .merge hxy hnode hm⟩

theorem buildTree_of_nil {fm : FrequencyMap P} (h : fm.entries = []) : buildTree fm = .error .emptyAlphabet := by
  rw [buildTree, h]
  rfl

/-- A map with an entry has a tree, to which its leaves merge. -/
theorem exists_buildTree {fm : FrequencyMap P} (h : fm.entries ≠ []) :
    ∃ t, buildTree fm = .ok t ∧ MergesTo fm.entries.length (leavesFrom 0 fm.entries) t := by
  have hlen := length_leavesFrom 0 fm.entries
  have hpos := List.length_pos_iff.2 h
  obtain ⟨hperm, hcap⟩ := Heap.foldl_add_perm (lt := HuffTree.less) (leavesFrom 0 fm.entries) (.empty fm.entries.length)
    (by simp [Heap.size, Heap.empty, hlen])
  rw [buildTree, if_neg (by simpa using h)]
  generalize (leavesFrom 0 fm.entries).foldl (Heap.add HuffTree.less) (.empty fm.entries.length) = q at *
  have hsize : q.size = fm.entries.length := by simpa [Heap.empty, Heap.size, hlen] using hperm.length_eq
  obtain ⟨t, ht, hm⟩ := exists_mergeAll (q := q) fm.entries.length fm.entries.length (by omega) (by omega)
    (by rw [hcap, hsize]; exact le_rfl)
  exact ⟨t, ht, hm.of_perm (by simpa [Heap.empty] using hperm.symm)⟩

/-! ### The tree of a map -/

section tree

variable {fm : FrequencyMap P} {t : HuffTree P} (hm : MergesTo fm.entries.length (leavesFrom 0 fm.entries) t)
include hm

theorem MergesTo.leaves_perm_leavesFrom : t.leaves.Perm (leavesFrom 0 fm.entries) := by
  simpa [leaves_leavesFrom] using hm.leaves_perm

theorem MergesTo.innerNums_perm_range' :
    t.innerNums.Perm (List.range' fm.entries.length (fm.entries.length - 1)) := by
  simpa [innerNums_leavesFrom, length_leavesFrom] using hm.innerNums_perm

theorem MergesTo.num_eq : t.num = 2 * fm.entries.length - 2 := by
  obtain hone | ⟨-, hnum⟩ := hm.eq_singleton_or_num_eq
  · have hlen : fm.entries.length = 1 := by rw [← length_leavesFrom 0 fm.entries, hone, List.length_singleton]
    have hnums := nums_leavesFrom 0 fm.entries
    rw [hone, hlen] at hnums
    rw [hlen]
    exact List.singleton_inj.1 hnums
  · rw [length_leavesFrom] at hnum
    omega

theorem MergesTo.freq_eq_sum : t.freq = (fm.entries.map Prod.snd).sum := by
  rw [hm.freq_eq, freqs_leavesFrom]

/-- The nodes of the tree have the numbers from 0 to `2n - 2` (R210). -/
theorem MergesTo.rom_nums_perm (hne : fm.entries ≠ []) :
    (t.rom.subtrees.map RomTree.num).Perm (List.range' 0 (2 * fm.entries.length - 1)) := by
  have hpos := List.length_pos_iff.2 hne
  have hleaves := (hm.leaves_perm_leavesFrom).map HuffTree.num
  rw [nums_leavesFrom] at hleaves
  refine t.rom_nums_perm.trans ((hleaves.append hm.innerNums_perm_range').trans (.of_eq ?_))
  rw [show 2 * fm.entries.length - 1 = fm.entries.length + (fm.entries.length - 1) by omega]
  simpa using List.range'_append_1 (s := 0) (m := fm.entries.length) (n := fm.entries.length - 1)

theorem MergesTo.rom_numbered (hne : fm.entries ≠ []) (hidx : 2 * fm.entries.length - 1 ≤ 2 ^ P.idxW) :
    t.rom.Numbered := by
  have hperm := hm.rom_nums_perm hne
  refine ⟨hperm.nodup_iff.2 List.nodup_range', fun u hu => ?_⟩
  have hu := hperm.mem_iff.1 (List.mem_map_of_mem hu)
  rw [List.mem_range'_1] at hu
  omega

/-- The leaves carry the keys of the map. -/
theorem MergesTo.rom_symbols_perm : t.rom.symbols.Perm (fm.entries.map Prod.fst) := by
  rw [t.rom_symbols, ← symbols_leavesFrom 0]
  exact hm.leaves_perm_leavesFrom.flatMap_right _

/-- Where its numbers fit, the tree is strict and has exactly the map's symbols at its leaves (R204). -/
theorem MergesTo.wfTreeStrict_image (hne : fm.entries ≠ []) (hidx : 2 * fm.entries.length - 1 ≤ 2 ^ P.idxW) :
    t.rom.image.WfTreeStrict ∧ ∀ x, t.rom.image.LeafSymbol x ↔ ∃ n, (x, n) ∈ fm.entries := by
  have hn := hm.rom_numbered hne hidx
  have hsymbols := hm.rom_symbols_perm
  refine ⟨(RomTree.wfTreeStrict_image_iff hn (hsymbols.nodup_iff.2 fm.keysUnique)).2 t.rom_isStrict, fun x => ?_⟩
  rw [RomTree.leafSymbol_image_iff hn, hsymbols.mem_iff]
  simp

end tree

/-! ### What is built -/

theorem buildTree_of_singleton {fm : FrequencyMap P} {s : Symbol P} {f : Nat} (h : fm.entries = [(s, f)]) :
    buildTree fm = .ok (.leaf 0 s f) := by
  obtain ⟨t, ht, hm⟩ := exists_buildTree (fm := fm) (by simp [h])
  obtain hone | ⟨hlen, -⟩ := hm.eq_singleton_or_num_eq
  · rw [h] at hone
    rw [ht, ← List.singleton_inj.1 hone]
  · simp [h, leavesFrom] at hlen

/-- A tree that is built is one to which the leaves of the map merge. -/
theorem mergesTo_of_buildTree {fm : FrequencyMap P} {t : HuffTree P} (h : buildTree fm = .ok t) :
    MergesTo fm.entries.length (leavesFrom 0 fm.entries) t := by
  by_cases hne : fm.entries = []
  · simp [buildTree_of_nil hne] at h
  · obtain ⟨t', ht', hm⟩ := exists_buildTree hne
    obtain rfl : t' = t := Except.ok.inj (ht'.symm.trans h)
    exact hm

/-- What is built is the image itself, with its proofs. -/
theorem Image.image_of_build {img : Image P} {needs : List ImagePredicate} {b : BuiltImage P}
    (h : img.build needs = .ok b) : b.image = img := by
  unfold Image.build at h
  split_ifs at h
  split at h <;> cases h
  rfl

/-- An image that is built meets every predicate that was asked for (R41). -/
theorem Image.meets_of_build {img : Image P} {needs : List ImagePredicate} {b : BuiltImage P}
    (h : img.build needs = .ok b) : ∀ p ∈ needs, b.image.Meets p := by
  have himage := Image.image_of_build h
  obtain ⟨hw, -, hchecks⟩ := Image.build_iff.1 ⟨b, h, himage⟩
  rw [himage]
  exact fun p hp => (Image.check_iff hw p).1 (hchecks p hp)

theorem meets_of_imageOfCounts {fm : FrequencyMap P} {b : BuiltImage P} (h : imageOfCounts fm = .ok b) :
    ∀ p ∈ [.struct, .treeStrict, .code, .consistent], b.image.Meets p := by
  unfold imageOfCounts at h
  split at h
  · cases h
  · obtain ⟨-, -, -, hbuild⟩ := RomTree.make_eq_ok_iff.1 h
    exact Image.meets_of_build hbuild

/-- Settles O58: the leaves of a map merge to its tree, and a merge keeps the leaves, the sum and the numbering. -/
theorem builtTreesHoldTheCounts : Obligations.BuiltTreesHoldTheCounts := by
  refine fun P => ⟨fun _ => buildTree_of_nil, fun _ _ _ => buildTree_of_singleton, fun fm hne => ?_, fun fm b hb => ?_,
    fun syms t ht => ?_⟩
  · obtain ⟨t, ht, hm⟩ := exists_buildTree hne
    have hleaves := hm.leaves_perm_leavesFrom
    exact ⟨t, ht, hleaves, hleaves.length_eq.trans (length_leavesFrom 0 _), hm.sumsHold (sumsHold_leavesFrom 0 _),
      hm.innerNums_perm_range', hm.num_eq, hm.wfTreeStrict_image hne⟩
  · have hmeets := meets_of_imageOfCounts hb
    exact ⟨hmeets .struct (by simp), hmeets .treeStrict (by simp), hmeets .code (by simp),
      (hmeets .consistent (by simp)).2⟩
  · have hm := mergesTo_of_buildTree ht
    rw [hm.freq_eq_sum, sum_counts_analyzeFrequencies, hm.leaves_perm_leavesFrom.length_eq, length_leavesFrom,
      length_analyzeFrequencies]
    exact ⟨rfl, rfl⟩

end Sys2Proof.Machine
end

section
/-! The conditions of the hardware (60_exceptions.md): when each is raised, what each command answers with (R232), and that
every command word completes (R236). -/

namespace Sys2Proof.Machine

variable {P : Params} {i : Instr P} {s t : State P} {w : CmdWord P}

/-! ### UnknownSymbol (R224) -/

/-- An `ENC_SYM` that completes and does not raise UnknownSymbol leaves its two bits as they are. -/
theorem execEncSym_keeps_bits {sym : Symbol P} (h : execEncSym sym s = .next t)
    (hnot : ¬ (s.encFault = false ∧ (s.image.codeRead sym).valid = false)) :
    t.encFault = s.encFault ∧ t.sUnk = s.sUnk := by
  obtain ⟨-, rfl⟩ | ⟨hf, hv, -⟩ | ⟨-, -, -, rfl⟩ := execEncSym_next h
  · simp
  · exact absurd ⟨hf, hv⟩ hnot
  · simp

/-- Settles O15: the absent entry is one case of `ENC_SYM`, and the other two write neither bit. -/
theorem unknownSymbolIsRaisedExactly : Obligations.UnknownSymbolIsRaisedExactly := by
  intro sym s
  rw [exec_eq_execIn]
  exact ⟨fun ⟨hf, hv⟩ => execEncSym_of_absent hf hv, fun _ h hnot => execEncSym_keeps_bits h hnot⟩

/-! ### MalformedBitstream (R226) -/

/-- A command meets a cause of MalformedBitstream: an absent child at a `DEC_BIT`, or a code cut short by a `DEC_END`. -/
def MeetsMalformed (i : Instr P) (s : State P) : Prop :=
  s.decFault = false ∧ ((∃ b, i = .decBit b ∧ s.image.rootIsLeaf = false ∧ s.image.child s.cursor b = none) ∨
    (i = .decEnd ∧ s.cursor ≠ s.image.root))

/-- After a command, `s_mal` was set before it or the command met a cause. -/
theorem sMal_or_meetsMalformed (h : execIn i s = .next t) : t.sMal = true → s.sMal = true ∨ MeetsMalformed i s := by
  apply execIn_cases (Q := fun i s t => t.sMal = true → s.sMal = true ∨ MeetsMalformed i s) h
  case decBitAbsent => exact fun b hf hr hc _ => .inr ⟨hf, .inl ⟨b, rfl, hr, hc⟩⟩
  case decEndTruncated => exact fun hf hc _ => .inr ⟨hf, .inr ⟨rfl, hc⟩⟩
  case clrStatus => simp
  all_goals simp +contextual

/-- Settles O20: the effects are those of `DEC_BIT` and `DEC_END`, and no other case of a command sets the flag. -/
theorem malformedBitstreamIsRaisedExactly : Obligations.MalformedBitstreamIsRaisedExactly := by
  refine ⟨fun b s hf hr hc => ?_, fun s hf hc => ?_, fun i s t h hclear hset => ?_⟩
  · rw [exec_eq_execIn]
    exact execDecBit_of_child_none hf hr hc
  · obtain ⟨-, hrule⟩ := decEndFollowsItsRule
    obtain ⟨-, htruncated, -⟩ := hrule s
    exact htruncated hf hc
  · rw [exec_eq_execIn] at h
    exact (sMal_or_meetsMalformed h hset).resolve_left (by simp [hclear])

/-! ### The condition codes of each command (R220, R232) -/

/-- The condition codes that a command can answer with, by its group (R220, R232). -/
def answerCodes : Instr P → List Rcode
  | .encSym _ | .encEnd => [.ok, .unknownSymbol]
  | .decBit _ | .decEnd => [.ok, .malformedBitstream]
  | .rdStatus | .clrStatus => [.ok]
  | .illegalOp6 _ | .illegalOp7 _ => [.illegalCmd]

/-- A command answers once, with one of its codes. -/
theorem execIn_answerCodes (h : execIn i s = .next t) :
    ∃ r : Response, t.resp = s.resp ++ [r] ∧ r.rcode ∈ answerCodes i := by
  apply execIn_cases (Q := fun i s t => ∃ r : Response, t.resp = s.resp ++ [r] ∧ r.rcode ∈ answerCodes i) h
  case encEnd => cases s.encFault <;> simp [answerCodes]
  all_goals intros; simp [answerCodes]

/-- Settles O32: the codes of each command by its opcode. -/
theorem answersByCommand : Obligations.AnswersByCommand := by
  intro i s t h
  rw [exec_eq_execIn] at h
  obtain ⟨r, hresp, hr⟩ := execIn_answerCodes h
  refine ⟨r, hresp, ?_⟩
  cases i <;> simpa [Instr.opcode, answerCodes] using hr

/-! ### Every word completes (R236) -/

theorem execDecBit_completes (b : Bool) (s : State P) : ∃ t, execDecBit b s = .next t := by
  cases hf : s.decFault with
  | true => exact ⟨_, execDecBit_of_decFault b hf⟩
  | false =>
    cases hr : s.image.rootIsLeaf with
    | true => exact ⟨_, execDecBit_of_rootIsLeaf b hf hr⟩
    | false =>
      cases hc : s.image.child s.cursor b with
      | none => exact ⟨_, execDecBit_of_child_none hf hr hc⟩
      | some j => exact ⟨_, execDecBit_of_child_some hf hr hc⟩

theorem execDecEnd_completes (s : State P) : ∃ t, execDecEnd s = .next t := by
  cases hf : s.decFault with
  | true => exact ⟨_, execDecEnd_of_decFault hf⟩
  | false =>
    cases hm : s.decMid with
    | true => exact ⟨_, execDecEnd_of_decMid hf hm⟩
    | false => exact ⟨_, execDecEnd_of_atRoot hf hm⟩

/-- Over an image with (S1) every command completes: only `ENC_SYM` of an entry that fails (S1) does not. -/
theorem execIn_completes (hl : s.image.LenInRange) (i : Instr P) : ∃ t, execIn i s = .next t := by
  cases i with
  | encSym sym => exact execEncSym_completes (by simp [hl sym])
  | decBit b => exact execDecBit_completes b s
  | decEnd => exact execDecEnd_completes s
  | encEnd | rdStatus | clrStatus | illegalOp6 _ | illegalOp7 _ => exact ⟨_, rfl⟩

theorem execWord_completes (hl : s.image.LenInRange) (w : CmdWord P) : ∃ t, execWord w s = .next t := by
  cases hd : decode w with
  | ok i => exact execWord_of_ok hd ▸ execIn_completes hl i
  | error e => exact ⟨_, execWord_of_error hd⟩

/-! ### How many items a word emits (R236) -/

/-- From the first state to the second, the two streams grew by the given items. -/
def Emitted (s t : State P) (es : List EncItem) (ds : List (DecItem P)) : Prop :=
  t.encOut = s.encOut ++ es ∧ t.decOut = s.decOut ++ ds

/-- `ENC_SYM` sends the bits of one code, or nothing. -/
theorem execEncSym_emitted {sym : Symbol P} (h : execEncSym sym s = .next t) :
    ∃ es, Emitted s t es [] ∧ es.length ≤ P.maxCodeLen := by
  obtain ⟨-, rfl⟩ | ⟨-, -, rfl⟩ | ⟨-, hv, hl, rfl⟩ := execEncSym_next h
  · exact ⟨[], by simp [Emitted]⟩
  · exact ⟨[], by simp [Emitted]⟩
  · have hbounds : 1 ≤ (s.image.codeRead sym).len.toNat ∧ (s.image.codeRead sym).len.toNat ≤ P.maxCodeLen := by
      simpa [CodeEntry.lenOk, hv] using hl
    exact ⟨(s.image.codeRead sym).code.map .data, by simp [Emitted], by simpa using hbounds.2⟩

/-- A command other than `ENC_SYM` emits at most one item: an END, or the symbol of a leaf. -/
theorem execIn_emitted (hi : i.opcode ≠ 0) (h : execIn i s = .next t) :
    ∃ es ds, Emitted s t es ds ∧ es.length + ds.length ≤ 1 := by
  revert hi
  apply execIn_cases (Q := fun i s t => i.opcode ≠ 0 → ∃ es ds, Emitted s t es ds ∧ es.length + ds.length ≤ 1) h
  case encSymFailed | encSymAbsent | encSymSent => intros; exact absurd rfl ‹_›
  case decBitMoved =>
    intro b j _ _ _ _
    cases hl : s.image.isLeafAt j <;> simp [Emitted, hl]
  all_goals intros; simp [Emitted]

/-- A word that is not `ENC_SYM` emits at most one item; a rejected word emits none. -/
theorem execWord_emitted_le_one (hw : w.toNat % 8 ≠ 0) (h : execWord w s = .next t) :
    ∃ es ds, Emitted s t es ds ∧ es.length + ds.length ≤ 1 := by
  apply execWord_cases (Q := fun s t => ∃ es ds, Emitted s t es ds ∧ es.length + ds.length ≤ 1) h
  · intro i hd hi
    obtain ⟨hop, -⟩ := decode_eq_ok_iff.1 hd
    exact execIn_emitted (fun h0 => hw (by simp [hop, h0])) hi
  · intro e _
    exact ⟨[], [], by simp [Emitted]⟩

/-- The items of any word, by whether its opcode is that of `ENC_SYM`. -/
theorem execWord_emitted (h : execWord w s = .next t) :
    ∃ es ds, Emitted s t es ds ∧ (w.toNat % 8 = 0 → es.length ≤ P.maxCodeLen ∧ ds = []) ∧
      (w.toNat % 8 ≠ 0 → es.length + ds.length ≤ 1) := by
  by_cases hw : w.toNat % 8 = 0
  · rw [execWord_of_ok (decode_eq_encSym hw)] at h
    obtain ⟨es, hitems, hlen⟩ := execEncSym_emitted h
    exact ⟨es, [], hitems, fun _ => ⟨hlen, rfl⟩, fun hne => absurd hw hne⟩
  · obtain ⟨es, ds, hitems, hlen⟩ := execWord_emitted_le_one hw h
    exact ⟨es, ds, hitems, fun h0 => absurd h0 hw, fun _ => hlen⟩

/-- Settles O37: the word taken completes, answers once and emits what its command may. -/
theorem everyWordCompletesUnderS1 : Obligations.EveryWordCompletesUnderS1 := by
  intro s w ws hl hr hc
  rw [step_of_cmds hr hc]
  obtain ⟨t, ht⟩ := execWord_completes (s := { s with cmds := ws }) hl w
  obtain ⟨-, hcmds, -⟩ := execWord_ports ht
  obtain ⟨r, hresp, -⟩ := execWord_answers ht
  obtain ⟨es, ds, ⟨henc, hdec⟩, hbounds⟩ := execWord_emitted ht
  exact ⟨t, r, es, ds, ht, hcmds, hresp, henc, hdec, hbounds⟩

end Sys2Proof.Machine
end

section
/-! The host's operations on `rst` and on the image, by the level of `rst` (R260, R264, R38). -/

namespace Sys2Proof.Machine

variable {P : Params} {s : State P} {b : BuiltImage P}

/-- Releasing an asserted `rst` resets over the image in place; the words still to be given stay (assumption 6). -/
theorem State.releaseReset_of_rst (hr : s.rst = true) :
    s.releaseReset = { State.resetWith s.image with cmds := s.cmds } := if_pos hr

/-- With `rst` asserted a built image takes the place of the old one (R264). -/
theorem State.placeImage_of_rst (hr : s.rst = true) : s.placeImage b = .next { s with image := b.image } := if_pos hr

/-- Out of reset the image cannot be placed, whatever it is (U2, assumption 6). -/
theorem State.placeImage_of_not_rst (hr : s.rst = false) : s.placeImage b = .refused .imageChangedOutOfReset := by
  simp [State.placeImage, hr]

/-- Settles O2: in reset the engine takes no word, so the step has nothing to run; the rest is what the host's two
operations do at each level of `rst`. -/
theorem heldResetStopsAndReleaseResets : Obligations.HeldResetStopsAndReleaseResets := by
  refine ⟨fun s hr => ⟨?_, ?_, fun b => ?_⟩, fun s b hr => ?_⟩
  · exact stepWith_of_fetch_none (State.fetch_eq_none.2 (.inl hr))
  · exact State.releaseReset_of_rst hr
  · exact State.placeImage_of_rst hr
  · exact State.placeImage_of_not_rst hr

end Sys2Proof.Machine
end
